-- ==== Sys2Proof/Word.lean ====
section
/-! DEFINITION. Bytes, the source's fixed sizes (R12, R14) and the ten result codes (R120). -/

namespace Sys2Proof

/-- A byte is 8 bits, bit 7 most significant (R14). -/
abbrev Byte := BitVec 8

/-- `BLK`, the block size of the reference configuration (R12, conflict C7). -/
abbrev blkSize : Nat := 16

/-- `MAX_REQ`, the longest request: a memory write (R12, R112). -/
abbrev maxReq : Nat := 19

/-- `MAX_REP`, the longest reply: a memory read (R12, R113). -/
abbrev maxRep : Nat := 18

/-- `FILLER`, the byte read past the end of a final reply (R12, R265). -/
abbrev filler : Byte := 0xFF

@[simp] theorem blkSize_eq : blkSize = 16 := rfl
@[simp] theorem maxReq_eq : maxReq = 19 := rfl
@[simp] theorem maxRep_eq : maxRep = 18 := rfl

/-- The result codes, in the order that numbers them (R19, R120). -/
inductive Code where
  | ok | incomplete | unchecked | reqCheckErr | repCheckErr
  | illegal | forbidden | noDevice | noBus | noReply
  deriving DecidableEq, Repr

end Sys2Proof
end

