-- ==== Sys2Proof/Syntax.lean ====
section
/-! DEFINITION. The instructions: the four request kinds and the reserved opcodes (R3, R111, R118, R124), one
constructor per row of the opcode table. An instruction is the request's body, opcode and payload (log 21). -/

namespace Sys2Proof

/-- The rows of R124. A reserved opcode keeps the bits that no rule interprets (R186): the opcode's bits 3:0 as `low`,
the payload byte `lo`, and for the write-sized ones the 16 bytes `data`. -/
inductive Instr where
  | regRead (reg : BitVec 6)
  | regWrite (reg : BitVec 6) (value : Byte)
  | memRead (blk : BitVec 12)
  | memWrite (blk : BitVec 12) (data : List Byte)
  | rsvA0 (low : BitVec 4) (lo : Byte)
  | rsvB0 (low : BitVec 4) (lo : Byte) (data : List Byte)
  | rsvC0 (low : BitVec 4) (lo : Byte)
  | rsvD0 (low : BitVec 4) (lo : Byte) (data : List Byte)
  | rsvE0 (low : BitVec 4) (lo : Byte)
  | rsvF0 (low : BitVec 4) (lo : Byte) (data : List Byte)
  deriving DecidableEq, Repr

end Sys2Proof
end

