-- ==== Sys2Proof/WellFormed.lean ====
section
/-! DEFINITION. Which terms of `Instr` are instructions: a write-sized request carries one whole block (R112). -/

namespace Sys2Proof

/-- A data block has exactly `BLK` bytes (R112). -/
def blockOk (data : List Byte) : Bool := data.length == blkSize

/-- The check of each constructor. Register indexes and block indexes are in range by their types (R111, R119). -/
def Instr.wellFormed : Instr → Bool
  | .regRead _ => true
  | .regWrite _ _ => true
  | .memRead _ => true
  | .memWrite _ data => blockOk data
  | .rsvA0 _ _ => true
  | .rsvB0 _ _ data => blockOk data
  | .rsvC0 _ _ => true
  | .rsvD0 _ _ data => blockOk data
  | .rsvE0 _ _ => true
  | .rsvF0 _ _ data => blockOk data

end Sys2Proof
end

