-- ==== Sys2Proof/Decode.lean ====
section
/-! DEFINITION. From the bytes of a request's body to an instruction, and back (R111, R112, R118, R119, R124, R181),
with the size function that frames them (R155) and the host's table numbering. -/

namespace Sys2Proof

/-- `RequestSize(op)` (R155), the check byte included. Bits 6:5 of a memory opcode are ignored. -/
def requestSize (op : Byte) : Nat :=
  if op.getLsbD 7 = false then (if op.getLsbD 6 = false then 2 else 3)
  else if op.getLsbD 4 = false then 3 else 3 + blkSize

/-- Why bytes are no instruction: there is no opcode byte, or fewer payload bytes than `RequestSize` asks for. -/
inductive DecodeError where
  | noOpcode
  | shortPayload (op : Byte)
  deriving DecidableEq, Repr

/-- `reg = opcode[5:0]` (R119). -/
def opReg (op : Byte) : BitVec 6 := op.extractLsb' 0 6

/-- `blkHi = opcode[3:0]` (R111); the ignored bits of a reserved opcode. -/
def opLow (op : Byte) : BitVec 4 := op.extractLsb' 0 4

/-- `blk = {opcode[3:0], req[2]}` (R119). -/
def opBlk (op lo : Byte) : BitVec 12 := opLow op ++ lo

/-- The instruction of an opcode and its payload, by the opcode's top nibble (R111, R124, R181). `lo` is the first
payload byte (`req[2]`), `data` the bytes after it. -/
def instrOf (op lo : Byte) (data : List Byte) : Instr :=
  if op.getLsbD 7 = false then
    if op.getLsbD 6 = false then .regRead (opReg op) else .regWrite (opReg op) lo
  else
    match op.getLsbD 6, op.getLsbD 5, op.getLsbD 4 with
    | false, false, false => .memRead (opBlk op lo)
    | false, false, true  => .memWrite (opBlk op lo) data
    | false, true,  false => .rsvA0 (opLow op) lo
    | false, true,  true  => .rsvB0 (opLow op) lo data
    | true,  false, false => .rsvC0 (opLow op) lo
    | true,  false, true  => .rsvD0 (opLow op) lo data
    | true,  true,  false => .rsvE0 (opLow op) lo
    | true,  true,  true  => .rsvF0 (opLow op) lo data

/-- Decodes the body of a request, `req[1..]`: the instruction and the bytes after it. Every opcode has a kind (R118),
so only missing bytes are rejected (R123: the opcode alone gives the length). -/
def decode : List Byte → Except DecodeError (Instr × List Byte)
  | [] => .error .noOpcode
  | op :: rest =>
    let n := requestSize op - 2
    if rest.length < n then .error (.shortPayload op)
    else .ok (instrOf op (rest.headD 0) ((rest.take n).drop 1), rest.drop n)

/-- The body of an instruction: opcode and payload (R111, R112). -/
def encode : Instr → List Byte
  | .regRead reg => [0b00#2 ++ reg]
  | .regWrite reg value => [0b01#2 ++ reg, value]
  | .memRead blk => [0x8#4 ++ blk.extractLsb' 8 4, blk.extractLsb' 0 8]
  | .memWrite blk data => (0x9#4 ++ blk.extractLsb' 8 4) :: blk.extractLsb' 0 8 :: data
  | .rsvA0 low lo => [0xA#4 ++ low, lo]
  | .rsvB0 low lo data => (0xB#4 ++ low) :: lo :: data
  | .rsvC0 low lo => [0xC#4 ++ low, lo]
  | .rsvD0 low lo data => (0xD#4 ++ low) :: lo :: data
  | .rsvE0 low lo => [0xE#4 ++ low, lo]
  | .rsvF0 low lo data => (0xF#4 ++ low) :: lo :: data

/-- The body whose opcode-table bits are `w`: bit 0 is bit 0 of the opcode byte, later bytes count on from it, and every
bit from `nbits` up is 0. -/
def tableBytes (nbits w : Nat) : List Byte :=
  (List.range (maxReq - 1)).map fun k => BitVec.ofNat 8 ((w % 2 ^ nbits) >>> (8 * k))

/-- The decoder's answer for the opcode table's numbering of an instruction's bits. -/
def decodeTableWord (nbits w : Nat) : Option Instr :=
  match decode (tableBytes nbits w) with
  | .ok (i, _) => some i
  | .error _ => none

end Sys2Proof
end

