-- ==== Sys2Proof/Config.lean ====
section
/-! DEFINITION. What an implementation fixes (the OPEN parameters of R12, as plain data), what the environment chooses
(bus events and actions), and the free values: constants with no body, of which nothing can be proved. -/

namespace Sys2Proof.Machine

/-- The two halves of program storage (R49). -/
inductive Half where
  | maintenance | operational
  deriving DecidableEq, Repr

/-- The regions of the memory-address space (R81). -/
inductive Region where
  | prog | ram | config | ident | unmapped
  deriving DecidableEq, Repr

/-- The OPEN parameters of R12 that one node takes. `RegionOf` is the table `regionTab`, indexed by the block index's
bits from `regionShift` up; `Protected` and `HalfOf` are lists of ranges [lo, hi) of blocks.
DESIGN CHOICE (log 5, 15): plain data of each node, so that a claim about every state is a claim about every value. -/
structure Params where
  regMagic          : BitVec 6
  magicValue        : Byte
  regCtrl           : BitVec 6
  ctrlReboot        : Byte
  ctrlSwitch        : Byte
  ctrlResurrect     : Byte
  regUnlock         : BitVec 6
  unlockKey         : Byte
  changedChildBit   : BitVec 3
  hubBit            : Nat
  regionShift       : Nat
  regionTab         : List Region
  protectedRanges   : List (Nat × Nat)
  operationalRanges : List (Nat × Nat)
  progPageBlocks    : Nat
  bootHalf          : Half
  defaultAddr       : BitVec 7
  deriving DecidableEq, Repr

/-- The node's identity (R36): build-time, read-only. Widths the source does not give are numbers and byte lists (log 13). -/
structure Ident where
  address  : BitVec 7
  caps     : Nat
  version  : Nat × Nat × Nat
  fwName   : List Byte
  modelTag : List Byte
  deriving DecidableEq, Repr

/-- The running configuration `cfg` (R35). No rule reads the last three fields; their widths are open (log 13). -/
structure RunCfg where
  ownAddr    : BitVec 7
  hubMax     : BitVec 7
  hubDivisor : Nat
  calib      : List Byte
  feature    : List Byte
  deriving DecidableEq, Repr

/-- The kind of collaborator a node has (R32, log 11): `free` draws every result and change, `storage` is the plain
storage of the spec's example instance (95 section 0). -/
inductive Collab where
  | free | storage
  deriving DecidableEq, Repr

/-- The bus events of R221. `rw` is true for a controller read (R122); `mack true` is ACK. -/
inductive BusEvent where
  | start
  | sclLow
  | addr (a : BitVec 7) (rw : Bool)
  | wbyte (b : Byte)
  | rbyte
  | mack (ack : Bool)
  | ackEnd
  | stop
  | notify
  deriving DecidableEq, Repr

/-- The cooperative steps of a node's PPE (R283 to R288). -/
inductive PpeStep where
  | clear | reboot | validate | service | notifyBegin | notifyEnd
  deriving DecidableEq, Repr

/-- The steps of a node's HFE (R323 to R343). `openTx` carries the environment draw `envLocked` (R322, log 28). -/
inductive HfeStep where
  | resurrect | notified | openTx (envLocked : Bool) | flag | forward | turnAround | copy | endResurrection | noBus
  deriving DecidableEq, Repr

/-- What a collaborator does between atomic steps (R38, R92, R191; log 12). -/
inductive CollabStep where
  | setChanged (v : Byte)
  | setReg (r : BitVec 6) (v : Byte)
  | writeRam (addr : BitVec 16) (v : Byte)
  deriving DecidableEq, Repr

/-- One agent's atomic step (R10): the host's bus event, a cooperative step of node `n`, a step of its HFE, of its
collaborator, or a power-on reset of it (R400). -/
inductive Action where
  | host (e : BusEvent)
  | coop (n : Nat) (c : PpeStep)
  | hub (n : Nat) (h : HfeStep)
  | collab (n : Nat) (c : CollabStep)
  | powerOn (n : Nat)
  deriving DecidableEq, Repr

/-- Which agent acts when the agenda is empty (R368: no order is fixed): a free value of the step's number; `none` when
no agent acts (log 2). -/
opaque Config.freeAction : Nat → Option Action

/-- The free value number `draw` at position `pos`: a byte the spec calls any value (R84, R187, R53; log 8, 10, 11). -/
opaque Config.freeByte (draw pos : Nat) : Byte

/-- A free number, for latches the spec leaves unspecified at a reset (R53; log 8). -/
opaque Config.freeNat (draw pos : Nat) : Nat

/-- What a non-volatile byte that nothing has written holds in node `key` at address `addr` (R82; log 9). -/
opaque Config.nvByte (key addr : Nat) : Byte

/-- What a byte of working storage holds in node `key` since its reset number `epoch`, until written (R53, R82; log 9). -/
opaque Config.ramByte (key epoch addr : Nat) : Byte

/-- `CfgDecode` (R404, OPEN): the bytes of the configuration region in ascending order to the configuration, or `none`
for an invalid region (R405; log 13). -/
opaque Config.cfgDecode : List Byte → Option RunCfg

end Sys2Proof.Machine
end

