-- ==== Sys2Proof/Machine/State.lean ====
section
/-! DEFINITION. The state of a network of nodes as plain data (10_state.md), the outcomes' reasons, and the state
right after reset (R53). -/

namespace Sys2Proof.Machine

/-- The control state of the PPE (R40). -/
inductive PpeState where
  | idle | startDetected | addressing | receiving | receivingAcknowledge
  | sending | sendingStalled | sendingWaitAcknowledge | sendingCheckAcknowledge | notifying
  deriving DecidableEq, Repr

/-- The request status (R42). -/
inductive ReqStatus where
  | accumulating | unchecked | valid | answered
  deriving DecidableEq, Repr

/-- The PPE's buffers and latches (R40 to R45). `dir` true is a controller read; `lastMack` true is ACK. -/
structure Ppe where
  st       : PpeState
  req      : Vector Byte 19
  reqLen   : Nat
  reqSt    : ReqStatus
  rep      : Vector Byte 18
  repLen   : Nat
  repPos   : Nat
  repFinal : Bool
  cycAddr  : Option (BitVec 7)
  dir      : Bool
  readSeen : Bool
  drained  : Bool
  busBusy  : Bool
  shift    : Byte
  lastMack : Bool
  deriving DecidableEq, Repr

/-- The control state of the HFE (R47). -/
inductive HfeState where
  | idle | notified | requestForwarding | replyForwarding | resurrection
  deriving DecidableEq, Repr

/-- The HFE's counters and latches (R47, R48). Inert in a node without `HUB_CAPABLE` (log 25). -/
structure Hfe where
  st           : HfeState
  fwdStarted   : Bool
  fwdPos       : Nat
  rdNeed       : Nat
  rdPos        : Nat
  resurrectReq : Bool
  notifySeen   : Bool
  deriving DecidableEq, Repr

/-- The pending reboot request (R56). -/
inductive RebootReq where
  | none | keep | switch
  deriving DecidableEq, Repr

/-- How far a segment's controller is in the grammar of R228. `idle` is between transactions (R227). -/
inductive BusPhase where
  | idle
  | started
  | clocked
  | addrAck (rw : Bool)
  | writeData
  | writeAck
  | readData
  | readMack
  | readAck
  deriving DecidableEq, Repr

/-- A segment: the primary one, or the secondary one of hub `h` (R220). -/
inductive SegId where
  | primary
  | sub (h : Nat)
  deriving DecidableEq, Repr

/-- Bytes at addresses, in canonical form: addresses strictly rising. An unlisted address holds no byte the spec gives,
and reads as a free value (log 9). -/
abbrev Memory := List Host.Cell

/-- One node (10_state.md: `{regs, cfg, ident, mem, ppe, hfe, execHalf}` with R38, R50, R56), the segment it is a target
on, its parameters, and how far its own secondary segment is (`sec`). `nodeKey` and `memEpoch` select the free contents
of memory nothing has written (log 9). -/
structure Node where
  seg           : SegId
  par           : Params
  collab        : Collab
  ident         : Ident
  nodeKey       : Nat
  regs          : Vector Byte 64
  notifyPending : Bool
  rebootReq     : RebootReq
  execHalf      : Half
  cfg           : RunCfg
  mem           : Memory
  memEpoch      : Nat
  progPending   : List Nat
  progBuf       : Memory
  ppe           : Ppe
  hfe           : Hfe
  sec           : BusPhase
  deriving DecidableEq, Repr

/-- What the controller of a segment receives (R223 to R225, R234). -/
inductive Obs where
  | addrAck (ack : Bool)
  | dataAck (ack : Bool)
  | byte (b : Byte)
  | notify
  deriving DecidableEq, Repr

/-- The network: nodes in any number and any tree (R11), the primary segment, what the host has received (newest first,
log 22), who acts next (log 2), the counters of the free values (log 2, 8) and the node being served (log 20). -/
structure State where
  nodes   : List Node
  primary : BusPhase
  hostLog : List Obs
  agenda  : List Action
  tick    : Nat
  draws   : Nat
  cur     : Nat
  deriving DecidableEq, Repr

/-- Why the machine stops inside a node (R18, 93 section 3). Every one is safe: no run of the hardware passes here. -/
inductive Fault where
  /-- Raised by `commit` when a reply exists (R290). Safe. -/
  | commitTwice
  /-- Raised by `commitPartial` past `MAX_REP` or after a final commit (R291). Safe. -/
  | commitOverflow
  /-- Raised by `commit` when `PackageReply` is given a length outside 1..18 (R159). Safe. -/
  | packageLength
  /-- Raised by `step` in a state that breaks an invariant of R54. Safe. -/
  | invariant
  /-- Raised by a bus event that R261 says cannot reach a target in its state (log 18). Safe. -/
  | notApplicable
  /-- Raised by a service or commit for a node the network does not have (log 19). Safe. -/
  | noNode
  deriving DecidableEq, Repr

/-- What the spec gives no meaning (R18, 93 section 4). -/
inductive Refusal where
  /-- Raised by `exec` for an instruction that has no meaning yet; no arm raises it. Safe. -/
  | notModelled (mnemonic : String)
  /-- Raised by a controller event outside the grammar of R228 (R229). Safe. -/
  | busGrammar
  deriving DecidableEq, Repr

/-- Why an operation gives no next state. -/
inductive Stop where
  | fault (r : Fault)
  | refused (r : Refusal)
  deriving DecidableEq, Repr

/-- An operation's result: a value, or the reason it stops. -/
abbrev Res (α : Type) := Except Stop α

/-- The outcome of a step. -/
abbrev Out := Host.Outcome State Fault Refusal

/-- The PPE right after reset (R53). Contents R53 leaves unspecified are 0x00, and `lastMack` NACK (DESIGN CHOICE, log 7). -/
def Ppe.reset : Ppe where
  st := .idle
  req := Vector.replicate 19 0
  reqLen := 0
  reqSt := .accumulating
  rep := Vector.replicate 18 0
  repLen := 0
  repPos := 0
  repFinal := false
  cycAddr := none
  dir := false
  readSeen := false
  drained := false
  busBusy := false
  shift := 0
  lastMack := false

/-- The HFE right after reset (R53). The counters R53 leaves unspecified are 0, 1 and 0 (DESIGN CHOICE, log 7). -/
def Hfe.reset : Hfe where
  st := .idle
  fwdStarted := false
  fwdPos := 0
  rdNeed := 1
  rdPos := 0
  resurrectReq := false
  notifySeen := false

/-- The spec's example instance `EX` of the parameters (95 section 0), with `BOOT_HALF` operational and `DEFAULT_ADDR` 1,
which EX does not give. DESIGN CHOICE (log 4). -/
def Params.exInstance : Params where
  regMagic := 0x3F
  magicValue := 0x42
  regCtrl := 0x3E
  ctrlReboot := 0x01
  ctrlSwitch := 0x02
  ctrlResurrect := 0x03
  regUnlock := 0x3D
  unlockKey := 0xA5
  changedChildBit := 0
  hubBit := 0
  regionShift := 8
  regionTab := List.replicate 8 .prog ++ [.ram, .config, .ident] ++ List.replicate 5 .unmapped
  protectedRanges := [(0, 0x040)]
  operationalRanges := [(0x400, 0x1000)]
  progPageBlocks := 4
  bootHalf := .operational
  defaultAddr := 1

/-- A node right after power-on (R53), with the given place, identity and configuration. Collaborator registers are
0x00 (DESIGN CHOICE, log 6); memory lists nothing (log 9). -/
def Node.reset (seg : SegId) (key : Nat) (own bound : BitVec 7) (caps : Nat) : Node where
  seg := seg
  par := Params.exInstance
  collab := .free
  ident := { address := own, caps := caps, version := (0, 0, 0), fwName := [], modelTag := [] }
  nodeKey := key
  regs := Vector.replicate 64 0
  notifyPending := false
  rebootReq := .none
  execHalf := Params.exInstance.bootHalf
  cfg := { ownAddr := own, hubMax := bound, hubDivisor := 0, calib := [], feature := [] }
  mem := []
  memEpoch := 0
  progPending := []
  progBuf := []
  ppe := Ppe.reset
  hfe := Hfe.reset
  sec := .idle

/-- The example network of 95 right after reset: hub 5 with subnet bound 20 on the primary segment, child 9 on the hub's
secondary segment. DESIGN CHOICE (log 4): the spec fixes no network; every network is some State. -/
def State.reset : State where
  nodes := [Node.reset .primary 0 5 20 1, Node.reset (.sub 0) 1 9 9 0]
  primary := .idle
  hostLog := []
  agenda := []
  tick := 0
  draws := 0
  cur := 0

end Sys2Proof.Machine
end

