-- ==== Sys2Proof/Machine/Codec.lean ====
section
/-! DEFINITION. The message codec (40_codec.md): checksums, reply sizes, packaging and checking. Pure functions (R150). -/

namespace Sys2Proof.Machine

/-- One bit step of the 8-bit CRC, generator 0x14D (R151). -/
def crc8Bit (r : Byte) : Byte := if r.getLsbD 7 then (r <<< 1) ^^^ 0x4D else r <<< 1

/-- One byte step of the 8-bit CRC (R151). -/
def crc8Byte (r b : Byte) : Byte := Nat.repeat crc8Bit 8 (r ^^^ b)

/-- `Checksum8(s)` (R151): seed 0xBB, bytes in index order, most significant bit first. -/
def checksum8 (s : List Byte) : Byte := s.foldl crc8Byte 0xBB

/-- One bit step of the 4-bit CRC, held in the top nibble (R153). -/
def crc4Bit (r : Byte) : Byte := if r.getLsbD 7 then (r <<< 1) ^^^ 0x30 else r <<< 1

/-- One byte step of the 4-bit CRC (R153). -/
def crc4Byte (r b : Byte) : Byte := Nat.repeat crc4Bit 8 (r ^^^ b)

/-- `Checksum4(s)` (R153): seed 0x1 in the top nibble; the result is the top nibble. -/
def checksum4 (s : List Byte) : BitVec 4 := (s.foldl crc4Byte 0x10).extractLsb' 4 4

/-- `ReplySize(op)`, the length of an `ok` reply (R156). -/
def replySize (op : Byte) : Nat :=
  if op.getLsbD 7 = false then (if op.getLsbD 6 = false then 2 else 1)
  else if op.getLsbD 4 = false then 2 + blkSize else 1

/-- The 4-bit value of a result code (R120). -/
def codeNibble : Code → BitVec 4
  | .ok => 0x0
  | .incomplete => 0x1
  | .unchecked => 0x2
  | .reqCheckErr => 0x3
  | .repCheckErr => 0x4
  | .illegal => 0x5
  | .forbidden => 0x6
  | .noDevice => 0x7
  | .noBus => 0x8
  | .noReply => 0x9

/-- The result code as the byte a service puts in `rep[0]` (R180): the code in bits 3:0. -/
def codeByte (c : Code) : Byte := (codeNibble c).setWidth 8

/-- The code a nibble names; 0xA to 0xF are unassigned (R121). -/
def codeOfNibble (n : BitVec 4) : Option Code :=
  [Code.ok, .incomplete, .unchecked, .reqCheckErr, .repCheckErr, .illegal, .forbidden, .noDevice, .noBus, .noReply][n.toNat]?

/-- `PackageRequest(req)` (R157): byte 0 becomes the checksum of bytes 1 to n-1; the rest is not touched. -/
def packageRequest : List Byte → List Byte
  | [] => []
  | _ :: rest => checksum8 (rest.take (requestSize (rest.headD 0) - 1)) :: rest

/-- A whole request frame for a body (R110, R126). -/
def frameOf (body : List Byte) : List Byte := packageRequest (0 :: body)

/-- `CheckRequest(req, k)` (R158). Bytes past the request's size are ignored. -/
def checkRequest (req : List Byte) (k : Nat) : Code :=
  if k < 2 then .incomplete
  else
    let n := requestSize (req.getD 1 0)
    if k < n then .incomplete
    else if req.getD 0 0 ≠ checksum8 ((req.take n).drop 1) then .reqCheckErr
    else .ok

/-- The status byte of a reply with the given code nibble and payload (R114): `Checksum4` over the reply with the check
field 0, in bits 7:4. -/
def statusByte (code : BitVec 4) (payload : List Byte) : Byte := checksum4 (code.setWidth 8 :: payload) ++ code

/-- `PackageReply(rep, len)` (R159) on a buffer of exactly `len` bytes; `none` when `len` is outside 1..18. A reply of
length 2 + BLK is a memory read's, and gets its inner check first. -/
def packageReply : List Byte → Option (List Byte)
  | [] => none
  | s :: payload =>
    if maxRep < payload.length + 1 then none
    else
      let payload' := if payload.length + 1 = 2 + blkSize then payload.take blkSize ++ [checksum8 (payload.take blkSize)] else payload
      some (statusByte (s.extractLsb' 0 4) payload' :: payload')

/-- `StatusOnly(code)` (R117, R160), for all 16 code values. -/
def statusOnly (code : BitVec 4) : List Byte := [statusByte code []]

/-- `CheckReply(rep, op, k)` (R161), the controller's verdict on the `k` bytes it read. -/
def checkReply (rep : List Byte) (op : Byte) (k : Nat) : Code :=
  if k = 0 then .incomplete
  else if (rep.take k).all (· == 0xFF) then .noReply
  else
    let code := (rep.getD 0 0).extractLsb' 0 4
    let len := if code = codeNibble .ok then replySize op else 1
    if k < len then .incomplete
    else if (rep.getD 0 0).extractLsb' 4 4 ≠ checksum4 (code.setWidth 8 :: (rep.take len).drop 1) then .repCheckErr
    else
      match codeOfNibble code with
      | none => .repCheckErr
      | some c =>
        if c = .ok ∧ op.getLsbD 7 = true ∧ op.getLsbD 4 = false ∧ len = 2 + blkSize ∧
            rep.getD (len - 1) 0 ≠ checksum8 ((rep.take (blkSize + 1)).drop 1) then .repCheckErr
        else c

end Sys2Proof.Machine
end

