-- ==== Sys2Proof/Machine/Operands.lean ====
section
/-! DEFINITION. What operands name: bus addresses (R33, R34, R122), block addresses (R83), regions (R81), the halves and
the protected range (R86), pages (R87), and who owns a register (R31). -/

namespace Sys2Proof.Machine

/-- The address byte `{a[6:0], rw}` (R122). -/
def addressByte (a : BitVec 7) (rw : Bool) : Byte := a ++ BitVec.ofBool rw

/-- The target address of an address byte (R122). -/
def addressOf (b : Byte) : BitVec 7 := b.extractLsb' 1 7

/-- The direction of an address byte: true for a controller read (R122). -/
def directionOf (b : Byte) : Bool := b.getLsbD 0

/-- `HUB_CAPABLE`: one capability bit of `ident`, at an OPEN position (R36; log 14). -/
def Node.hubCapable (nd : Node) : Bool := nd.ident.caps.testBit nd.par.hubBit

/-- `isChild(a)` (R33): unsigned comparison over 7-bit addresses. -/
def Node.isChild (nd : Node) (a : BitVec 7) : Bool :=
  nd.hubCapable && decide (nd.cfg.ownAddr < a) && decide (a ≤ nd.cfg.hubMax)

/-- `match(a)` (R34). -/
def Node.matches (nd : Node) (a : BitVec 7) : Bool := a == nd.cfg.ownAddr || nd.isChild a

/-- `isChild(ppe.cycAddr)`, false when no cycle is open (R262). -/
def Node.childCycle (nd : Node) : Bool :=
  match nd.ppe.cycAddr with
  | none => false
  | some a => nd.isChild a

/-- Whether a block lies in one of the ranges [lo, hi) (log 15). -/
def inRanges (rs : List (Nat × Nat)) (blk : Nat) : Bool := rs.any fun r => decide (r.1 ≤ blk) && decide (blk < r.2)

/-- `RegionOf(blk)` (R81): by the block index's bits from `regionShift` up (log 15). -/
def Params.region (p : Params) (blk : Nat) : Region := p.regionTab.getD (blk >>> p.regionShift) .unmapped

/-- `Protected(blk)` (R86). -/
def Params.isProtected (p : Params) (blk : Nat) : Bool := inRanges p.protectedRanges blk

/-- `HalfOf(blk)` (R86). -/
def Params.halfOf (p : Params) (blk : Nat) : Half :=
  if inRanges p.operationalRanges blk then .operational else .maintenance

/-- The other half of program storage (R189). -/
def Half.other : Half → Half
  | .maintenance => .operational
  | .operational => .maintenance

/-- The virtual byte address of byte 0 of a block (R83). -/
def blkBase (blk : Nat) : Nat := blkSize * blk

/-- The program blocks of the page of `blk` (R87): PROG_PAGE_BLOCKS consecutive blocks; a block of another region is no
program block and belongs to no page. DEDUCED (log 16). -/
def Params.pageBlocks (p : Params) (blk : Nat) : List Nat :=
  let first := p.progPageBlocks * (blk / p.progPageBlocks)
  (List.range' first (min p.progPageBlocks (4096 - first))).filter fun b => p.region b == .prog

/-- Whether the protocol core owns a register (R31); the collaborator owns every other. -/
def Params.coreOwned (p : Params) (r : BitVec 6) : Bool :=
  r == 0 || r == p.regMagic || r == p.regCtrl || r == p.regUnlock

end Sys2Proof.Machine
end

