-- ==== Sys2Proof/Machine/Flags.lean ====
section
/-! DEFINITION. The status bits. The hardware has no arithmetic flags (R46); what it has is the "changed" summary with
its notification latch (R37, R38), the request status and its result-code reading (R42), and the invariants that tie
the PPE's status bits together (R54). -/

namespace Sys2Proof.Machine

/-- The mask of the `CHILD` bit of `REG_CHANGED` (R37). -/
def Params.childMask (p : Params) : Byte := 1 <<< p.changedChildBit.toNat

/-- `setChanged(v)` (R38): a bit going from 0 to 1 sets `notifyPending`, whoever changes it. -/
def Node.setChanged (nd : Node) (v : Byte) : Node :=
  { nd with
    regs := nd.regs.set 0 v
    notifyPending := nd.notifyPending || (v &&& ~~~nd.regs[0] != 0) }

/-- The result-code reading of the request status (R42). `answered` has none: the reply carries its own code. -/
def ReqStatus.code : ReqStatus → Option Code
  | .accumulating => some .incomplete
  | .unchecked => some .unchecked
  | .valid => some .ok
  | .answered => none

/-- The size of the request in the buffer, by its byte 1 (R112). -/
def Ppe.reqSize (p : Ppe) : Nat := requestSize p.req[1]

/-- The invariants of R54, in its order. -/
def Ppe.r54 (p : Ppe) : Bool :=
  decide (p.reqLen ≤ maxReq) &&
  decide (p.repPos ≤ p.repLen) && decide (p.repLen ≤ maxRep) &&
  decide (p.reqSt = .accumulating → p.reqLen < 2 ∨ p.reqLen < p.reqSize) &&
  decide (p.reqSt = .unchecked ∨ p.reqSt = .valid → p.reqLen = p.reqSize) &&
  decide (p.reqSt = .answered ↔ p.repFinal = true) &&
  decide (p.drained = true → p.repFinal = true) &&
  decide (p.cycAddr = none → p.reqLen = 0 ∧ p.repLen = 0 ∧ p.readSeen = false)

/-- Every node's invariants of R54. -/
def State.r54 (s : State) : Bool := s.nodes.all fun nd => nd.ppe.r54

end Sys2Proof.Machine
end

