-- ==== Sys2Proof/Machine/Ops.lean ====
section
/-! DEFINITION. The named operations: memory (R50, R83), registers (R30 to R39, R187, R188), the request and reply
buffers with the commit contract (R263 to R265, R290 to R292), and serving a request (R180). -/

namespace Sys2Proof.Machine

/-! ### Memory -/

/-- The stored byte at an address, if any. -/
def Memory.read? : Memory → Nat → Option Byte
  | [], _ => none
  | (a, v) :: m, x => if a = x then some v else Memory.read? m x

/-- Stores a byte, keeping the addresses strictly rising. -/
def Memory.write : Memory → Nat → Byte → Memory
  | [], x, b => [(x, b)]
  | (a, v) :: m, x, b =>
    if x < a then (x, b) :: (a, v) :: m
    else if x = a then (x, b) :: m
    else (a, v) :: Memory.write m x b

/-- Stores bytes at consecutive rising addresses (R83). -/
def Memory.writeBytes : Memory → Nat → List Byte → Memory
  | m, _, [] => m
  | m, x, b :: bs => Memory.writeBytes (Memory.write m x b) (x + 1) bs

/-- The canonical form: addresses strictly rising, all inside the 65536 bytes of the space (R80). -/
def Memory.wf (m : Memory) : Bool :=
  decide (m.Pairwise fun c d => c.1 < d.1) && m.all fun c => decide (c.1 < 65536)

/-- The byte at a virtual address (R84): the stored one, or the free contents of memory nothing has written (log 9). -/
def Node.readByte (nd : Node) (a : Nat) : Byte :=
  match nd.mem.read? a with
  | some v => v
  | none =>
    if nd.par.region (a / blkSize) = .ram then Config.ramByte nd.nodeKey nd.memEpoch a else Config.nvByte nd.nodeKey a

/-- The `BLK` bytes of a block in ascending order (R83). -/
def Node.readBlock (nd : Node) (blk : Nat) : List Byte :=
  (List.range blkSize).map fun i => nd.readByte (blkBase blk + i)

/-- The bytes of the configuration region in ascending order (R404). -/
def Node.configBytes (nd : Node) : List Byte :=
  ((List.range 4096).filter fun b => nd.par.region b == .config).flatMap nd.readBlock

/-- Adds a block to the set of pending ones, kept strictly rising (R85). -/
def addBlock : List Nat → Nat → List Nat
  | [], b => [b]
  | x :: xs, b => if b < x then b :: x :: xs else if b = x then x :: xs else x :: addBlock xs b

/-! ### Registers -/

/-- The stored byte of a register (R30). -/
def Node.reg (nd : Node) (r : BitVec 6) : Byte := nd.regs[r.toNat]

/-- Stores a byte in a register (R30). -/
def Node.setReg (nd : Node) (r : BitVec 6) (v : Byte) : Node := { nd with regs := nd.regs.set r.toNat v }

/-- The collaborator's `setChanged` (R38, R191): its own bits of `REG_CHANGED`; the `CHILD` bit keeps its value (R37). -/
def Node.collabSetChanged (nd : Node) (v : Byte) : Node :=
  nd.setChanged ((v &&& ~~~nd.par.childMask) ||| (nd.reg 0 &&& nd.par.childMask))

/-- The memory without working storage, whose bytes then are those of a new epoch (log 9). -/
def Node.memWithoutRam (nd : Node) : Memory := nd.mem.filter fun c => nd.par.region (c.1 / blkSize) != .ram

/-- A free change of all that the collaborator may change (R32, R93): its registers, its bits of `REG_CHANGED` and working
storage take free values, and what the protocol core owns keeps its value (R31). A bit that rises sets `notifyPending`; one
that rises and falls again sets it too, which is free (R38; log 11). -/
def Node.redrawApp (nd : Node) (draw : Nat) : Node :=
  { nd with
    regs := Vector.ofFn fun i : Fin 64 =>
      if nd.par.coreOwned (BitVec.ofNat 6 i.val) then nd.regs[i] else Config.freeByte draw i.val
    notifyPending := nd.notifyPending || (Config.freeByte draw 65).getLsbD 0
    mem := nd.memWithoutRam
    memEpoch := nd.memEpoch + 1 : Node }.collabSetChanged (Config.freeByte draw 0)

/-- `AppRegRead(r)` (R32, R191): the byte, and the collaborator's changed state. A free collaborator answers a free
value and has any side effect (R93); plain storage answers the stored byte (log 11). -/
def Node.appRegRead (nd : Node) (r : BitVec 6) (draw : Nat) : Byte × Node :=
  match nd.collab with
  | .free => (Config.freeByte draw 64, nd.redrawApp draw)
  | .storage => (nd.reg r, nd)

/-- `AppRegWrite(r, v)` (R32, R191): the collaborator's changed state (log 11). -/
def Node.appRegWrite (nd : Node) (r : BitVec 6) (v : Byte) (draw : Nat) : Node :=
  match nd.collab with
  | .free => nd.redrawApp draw
  | .storage => nd.setReg r v

/-- `RegValue(r)` (R187): a read of `REG_CHANGED` clears its `CHILD` bit. -/
def Node.regValue (nd : Node) (r : BitVec 6) (draw : Nat) : Byte × Node :=
  if r = nd.par.regMagic then (nd.par.magicValue, nd)
  else if r = 0 then (nd.reg 0, nd.setChanged (nd.reg 0 &&& ~~~nd.par.childMask))
  else if r = nd.par.regCtrl ∨ r = nd.par.regUnlock then (nd.reg r, nd)
  else nd.appRegRead r draw

/-- The requests a write of `REG_CTRL` makes (R188): reboot, firmware switch, resurrection. -/
def Node.ctrlWrite (nd : Node) (v : Byte) : Node :=
  let nd := if v = nd.par.ctrlReboot then { nd with rebootReq := .keep } else nd
  let nd := if v = nd.par.ctrlSwitch then { nd with rebootReq := .switch } else nd
  if v = nd.par.ctrlResurrect ∧ nd.hubCapable = true then { nd with hfe := { nd.hfe with resurrectReq := true } } else nd

/-- `RegStore(r, v)` (R188): `REG_CHANGED` and `REG_MAGIC` discard the write. -/
def Node.regStore (nd : Node) (r : BitVec 6) (v : Byte) (draw : Nat) : Node :=
  if r = 0 ∨ r = nd.par.regMagic then nd
  else if r = nd.par.regUnlock then nd.setReg r v
  else if r = nd.par.regCtrl then (nd.setReg r v).ctrlWrite v
  else nd.appRegWrite r v draw

/-! ### The request and reply buffers -/

/-- Writes bytes into a buffer from a position on; bytes past its end are dropped. -/
def putBytes {n : Nat} (v : Vector Byte n) (pos : Nat) (bs : List Byte) : Vector Byte n :=
  Vector.ofFn fun i => if pos ≤ i.val ∧ i.val < pos + bs.length then bs.getD (i.val - pos) 0 else v[i]

/-- The request bytes received so far, `req[0..reqLen-1]` (R41). -/
def Ppe.reqBytes (p : Ppe) : List Byte := p.req.toList.take p.reqLen

/-- The reply bytes committed so far, `rep[0..repLen-1]` (R43). -/
def Ppe.repBytes (p : Ppe) : List Byte := p.rep.toList.take p.repLen

/-- `clearBuffers()` (R263): ends the cycle. The clear step (R283) and the start condition (R266) alone call it. -/
def Node.clearBuffers (nd : Node) : Node :=
  { nd with
    ppe := { nd.ppe with
      reqLen := 0, reqSt := .accumulating, repLen := 0, repPos := 0, repFinal := false
      drained := false, readSeen := false, cycAddr := none }
    hfe := { nd.hfe with fwdStarted := false } }

/-- `accept(b)` (R264): stores a written byte while the request is incomplete; otherwise discards it. -/
def Ppe.accept (p : Ppe) (b : Byte) : Ppe :=
  if p.reqSt = .accumulating then
    let p := { p with req := putBytes p.req p.reqLen [b], reqLen := p.reqLen + 1 }
    if 2 ≤ p.reqLen ∧ p.reqLen = p.reqSize then { p with reqSt := .unchecked } else p
  else p

/-- The default error reply `StatusOnly(incomplete)` = 0x61, a table constant (R265). -/
def incompleteByte : Byte := 0x61

/-- `loadNext()` (R265): the next output byte, the filler, the default error reply, or a stall. -/
def Node.loadNext (nd : Node) : Node :=
  let p := nd.ppe
  if p.repPos < p.repLen then
    { nd with ppe := { p with shift := p.rep.toList.getD p.repPos 0, repPos := p.repPos + 1, st := .sending } }
  else if p.repFinal then
    { nd with ppe := { p with shift := filler, st := .sending } }
  else if p.repLen = 0 ∧ p.reqSt = .accumulating ∧ nd.childCycle = false then
    { nd with ppe := { p with
        rep := putBytes p.rep 0 [incompleteByte], repLen := 1, repFinal := true, reqSt := .answered
        shift := incompleteByte, repPos := 1, st := .sending } }
  else { nd with ppe := { p with st := .sendingStalled } }

/-- `resume()` (R292): a stalled read gets its byte once a commit supplies one. -/
def Node.resume (nd : Node) : Node := if nd.ppe.st = .sendingStalled then nd.loadNext else nd

/-- `commit(rep, len)` (R290): packages and publishes a full reply. -/
def Node.commit (nd : Node) (rep : List Byte) : Except Fault Node :=
  if nd.ppe.repFinal = true ∨ nd.ppe.repLen ≠ 0 then .error .commitTwice
  else
    match packageReply rep with
    | none => .error .packageLength
    | some bytes =>
      let nd := { nd with ppe := { nd.ppe with
        rep := putBytes nd.ppe.rep 0 bytes, repLen := bytes.length, repFinal := true, reqSt := .answered } }
      .ok nd.resume

/-- `commitPartial(bytes, isFinal)` (R291): appends reply bytes without packaging. -/
def Node.commitPartial (nd : Node) (bytes : List Byte) (isFinal : Bool) : Except Fault Node :=
  if nd.ppe.repFinal = true ∨ maxRep < nd.ppe.repLen + bytes.length then .error .commitOverflow
  else
    let p := { nd.ppe with rep := putBytes nd.ppe.rep nd.ppe.repLen bytes, repLen := nd.ppe.repLen + bytes.length }
    let p := if isFinal then { p with repFinal := true, reqSt := .answered } else p
    .ok ({ nd with ppe := p }).resume

/-! ### Nodes of the network -/

/-- Replaces node `i`. -/
def State.setNode (s : State) (i : Nat) (nd : Node) : State := { s with nodes := s.nodes.set i nd }

/-- Changes node `i`. -/
def State.modNode (s : State) (i : Nat) (f : Node → Node) : State := { s with nodes := s.nodes.modify i f }

/-- Uses up one free value. -/
def State.draw (s : State) : State := { s with draws := s.draws + 1 }

/-- `commit` at node `i` (R289): the shared way every result, error results among them, becomes a reply (R360, R379). -/
def State.commitAt (s : State) (i : Nat) (rep : List Byte) : Res State :=
  match s.nodes[i]? with
  | none => .error (.fault .noNode)
  | some nd =>
    match nd.commit rep with
    | .error f => .error (.fault f)
    | .ok nd' => .ok (s.setNode i nd')

/-- A result as the outcome of a step. -/
def Res.out : Res State → Out
  | .ok s => .next s
  | .error (.fault r) => .fault r
  | .error (.refused r) => .refused r

/-- Serves the current node's request (R180, R288) in one atomic step: `f` is the request kind's rule, giving the reply
with its code in byte 0 and the changed node from the node and the number of this step's free value; the reply is then
committed. -/
def State.serve (s : State) (f : Node → Nat → List Byte × Node) : Out :=
  match s.nodes[s.cur]? with
  | none => .fault .noNode
  | some nd => (((s.setNode s.cur (f nd s.draws).2).draw).commitAt s.cur (f nd s.draws).1).out

end Sys2Proof.Machine
end

