-- ==== Sys2Proof/Machine/Collaborator.lean ====
section
/-! DEFINITION. What a collaborator does between atomic steps (R30, R38, R92, R191). It never touches what the protocol
core owns; a change it may not make does not happen (log 12). -/

namespace Sys2Proof.Machine

/-- A step of a node's collaborator. -/
def Node.collabStep (nd : Node) : CollabStep → Node
  | .setChanged v => nd.collabSetChanged v
  | .setReg r v => if nd.par.coreOwned r then nd else nd.setReg r v
  | .writeRam a v =>
    if nd.par.region (a.toNat / blkSize) = .ram then { nd with mem := nd.mem.write a.toNat v } else nd

end Sys2Proof.Machine
end

