-- ==== Sys2Proof/Machine/MemoryRequests.lean ====
section
/-! DEFINITION. The memory requests (R184, R185) over the block primitives (R84 to R88). -/

namespace Sys2Proof.Machine

/-- The bytes a read of a block gives (R84): free ones, drawn anew at each read, for a pending program block. -/
def Node.blockData (nd : Node) (blk : Nat) (draw : Nat) : List Byte :=
  if nd.par.region blk = .prog ∧ blk ∈ nd.progPending then (List.range blkSize).map fun i => Config.freeByte draw i
  else nd.readBlock blk

/-- `MemReadBlock(blk)` (R84), as the reply of R184: `illegal` for an unmapped block. -/
def Node.memReadReply (nd : Node) (blk : Nat) (draw : Nat) : List Byte :=
  if nd.par.region blk = .unmapped then [codeByte .illegal]
  else codeByte .ok :: nd.blockData blk draw ++ [0]

/-- `ProgWritable(blk)` (R86). -/
def Node.progWritable (nd : Node) (blk : Nat) : Bool :=
  nd.reg nd.par.regUnlock == nd.par.unlockKey && !nd.par.isProtected blk && nd.par.halfOf blk != nd.execHalf

/-- The bytes the program buffer holds for a pending block (R87). The buffer is empty after a reset, and a byte that was
not buffered is a free value. DESIGN CHOICE (log 33): the spec gives neither. -/
def Node.bufBlock (nd : Node) (blk : Nat) (draw : Nat) : List Byte :=
  (List.range blkSize).map fun i =>
    (nd.progBuf.read? (blkBase blk + i)).getD (Config.freeByte draw (128 + blkBase blk + i))

/-- `ProgramPageIfComplete(page(blk))` (R87): once every block of the page is pending, each takes its buffered bytes and
is pending no more. -/
def Node.programPage (nd : Node) (blk : Nat) (draw : Nat) : Node :=
  let page := nd.par.pageBlocks blk
  if page.all fun b => nd.progPending.contains b then
    { nd with
      mem := page.foldl (fun m b => m.writeBytes (blkBase b) (nd.bufBlock b draw)) nd.mem
      progPending := nd.progPending.filter fun b => !page.contains b
      progBuf := nd.progBuf.filter fun c => !page.contains (c.1 / blkSize) }
  else nd

/-- `MemWriteBlock(blk, data)` (R85). A status other than `ok` leaves all memory unchanged. -/
def Node.memWriteBlock (nd : Node) (blk : Nat) (data : List Byte) (draw : Nat) : Code × Node :=
  match nd.par.region blk with
  | .unmapped => (.illegal, nd)
  | .ident => (.forbidden, nd)
  | .prog =>
    if nd.progWritable blk then
      (.ok, ({ nd with
        progPending := addBlock nd.progPending blk
        progBuf := nd.progBuf.writeBytes (blkBase blk) data }).programPage blk draw)
    else (.forbidden, nd)
  | .ram => (.ok, { nd with mem := nd.mem.writeBytes (blkBase blk) data })
  | .config => (.ok, { nd with mem := nd.mem.writeBytes (blkBase blk) data })

/-- `MEM_READ blk` (R184): the status alone, or the block with its check byte left to `PackageReply`. -/
def execMemRead (blk : BitVec 12) (s : State) : Out :=
  s.serve fun nd draw => (nd.memReadReply blk.toNat draw, nd)

/-- `MEM_WRITE blk, data` (R185): the status of `MemWriteBlock`. -/
def execMemWrite (blk : BitVec 12) (data : List Byte) (s : State) : Out :=
  s.serve fun nd draw => ([codeByte (nd.memWriteBlock blk.toNat data draw).1], (nd.memWriteBlock blk.toNat data draw).2)

end Sys2Proof.Machine
end

