-- ==== Sys2Proof/Machine/RegisterRequests.lean ====
section
/-! DEFINITION. The register requests (R182, R183). -/

namespace Sys2Proof.Machine

/-- `REG_READ r` (R182): `[ok, RegValue(r)]`. -/
def execRegRead (reg : BitVec 6) (s : State) : Out :=
  s.serve fun nd draw => ([codeByte .ok, (nd.regValue reg draw).1], (nd.regValue reg draw).2)

/-- `REG_WRITE r, v` (R183): `RegStore(r, v)`, then `[ok]`. -/
def execRegWrite (reg : BitVec 6) (value : Byte) (s : State) : Out :=
  s.serve fun nd draw => ([codeByte .ok], nd.regStore reg value draw)

end Sys2Proof.Machine
end

