-- ==== Sys2Proof/Machine/ReservedRequests.lean ====
section
/-! DEFINITION. The reserved opcodes 0xA0 to 0xFF (R118, R186): answered `illegal`, no state written, nothing of the
opcode's bits 3:0 or of the payload interpreted. -/

namespace Sys2Proof.Machine

/-- The service of a reserved request (R186). -/
def serveReserved (s : State) : Out := s.serve fun nd _ => ([codeByte .illegal], nd)

/-- `RSV_A0`, read-sized (R186). -/
def execRsvA0 (s : State) : Out := serveReserved s

/-- `RSV_B0`, write-sized (R186). -/
def execRsvB0 (s : State) : Out := serveReserved s

/-- `RSV_C0`, read-sized (R186). -/
def execRsvC0 (s : State) : Out := serveReserved s

/-- `RSV_D0`, write-sized (R186). -/
def execRsvD0 (s : State) : Out := serveReserved s

/-- `RSV_E0`, read-sized (R186). -/
def execRsvE0 (s : State) : Out := serveReserved s

/-- `RSV_F0`, write-sized (R186). -/
def execRsvF0 (s : State) : Out := serveReserved s

end Sys2Proof.Machine
end

