-- ==== Sys2Proof/Machine/Dispatch.lean ====
section
/-! DEFINITION. The dispatch of the service (R181): one arm per constructor, one meaning per arm. -/

namespace Sys2Proof.Machine

def exec (i : Instr) (s : State) : Host.Outcome State Fault Refusal :=
  match i with
  | .regRead reg => Sys2Proof.Machine.execRegRead reg s
  | .regWrite reg value => Sys2Proof.Machine.execRegWrite reg value s
  | .memRead blk => Sys2Proof.Machine.execMemRead blk s
  | .memWrite blk data => Sys2Proof.Machine.execMemWrite blk data s
  | .rsvA0 _ _ => Sys2Proof.Machine.execRsvA0 s
  | .rsvB0 _ _ _ => Sys2Proof.Machine.execRsvB0 s
  | .rsvC0 _ _ => Sys2Proof.Machine.execRsvC0 s
  | .rsvD0 _ _ _ => Sys2Proof.Machine.execRsvD0 s
  | .rsvE0 _ _ => Sys2Proof.Machine.execRsvE0 s
  | .rsvF0 _ _ _ => Sys2Proof.Machine.execRsvF0 s

end Sys2Proof.Machine
end

