-- ==== Sys2Proof/Machine/Edge.lean ====
section
/-! DEFINITION. The edge handler of one PPE: its reaction to every bus event in every state (R261, R266 to R281). -/

namespace Sys2Proof.Machine

/-- `START` (R266), which also abandons a notification pulse (R281). -/
def Node.onStart (nd : Node) : Node :=
  let nd := if nd.ppe.drained then nd.clearBuffers else nd
  { nd with ppe := { nd.ppe with busBusy := true, st := .startDetected } }

/-- `STOP` (R267): ends the transaction, not the cycle. -/
def Node.onStop (nd : Node) : Node := { nd with ppe := { nd.ppe with busBusy := false, st := .idle } }

/-- `ADDR(a, rw)` in `Addressing` (R269, R270): the first match opens the cycle, and every read starts at byte 0. -/
def Node.onAddr (nd : Node) (a : BitVec 7) (rw : Bool) : Node :=
  if nd.matches a then
    { nd with ppe := { nd.ppe with
        cycAddr := nd.ppe.cycAddr.orElse fun _ => some a
        dir := rw
        repPos := if rw then 0 else nd.ppe.repPos
        readSeen := nd.ppe.readSeen || rw
        st := .receivingAcknowledge } }
  else { nd with ppe := { nd.ppe with st := .idle } }

/-- `ACK_END` in `ReceivingAcknowledge` (R271, R272). -/
def Node.onAddrAckEnd (nd : Node) : Node :=
  if nd.ppe.dir then nd.loadNext else { nd with ppe := { nd.ppe with st := .receiving } }

/-- `ACK_END` in `SendingCheckAcknowledge` (R276, R277): load the next byte, or note that the reply is drained. -/
def Node.onReadAckEnd (nd : Node) : Node :=
  if nd.ppe.lastMack then nd.loadNext
  else { nd with ppe := { nd.ppe with
      drained := nd.ppe.drained || (nd.ppe.repFinal && decide (nd.ppe.repLen ≤ nd.ppe.repPos))
      st := .idle } }

/-- Whether an event can reach a target in a state: the cells of R261 that are not "n/a". -/
def edgeApplies : PpeState → BusEvent → Bool
  | .idle, _ => true
  | .startDetected, .start => true
  | .startDetected, .sclLow => true
  | .startDetected, .stop => true
  | .addressing, .start => true
  | .addressing, .addr _ _ => true
  | .addressing, .stop => true
  | .receivingAcknowledge, .ackEnd => true
  | .receiving, .start => true
  | .receiving, .wbyte _ => true
  | .receiving, .stop => true
  | .sending, .start => true
  | .sending, .rbyte => true
  | .sending, .stop => true
  | .sendingWaitAcknowledge, .mack _ => true
  | .sendingCheckAcknowledge, .ackEnd => true
  | .notifying, .start => true
  | .notifying, .notify => true
  | _, _ => false

/-- The edge handler (R261). An ignored event (R280), and one that cannot reach the node, leave it as it is. -/
def Node.edge (nd : Node) (e : BusEvent) : Node :=
  if edgeApplies nd.ppe.st e = false then nd
  else
    match e with
    | .start => nd.onStart
    | .stop => nd.onStop
    | .sclLow => if nd.ppe.st = .startDetected then { nd with ppe := { nd.ppe with st := .addressing } } else nd
    | .addr a rw => if nd.ppe.st = .addressing then nd.onAddr a rw else nd
    | .wbyte b =>
      if nd.ppe.st = .receiving then { nd with ppe := { nd.ppe.accept b with st := .receivingAcknowledge } } else nd
    | .rbyte =>
      if nd.ppe.st = .sending then { nd with ppe := { nd.ppe with st := .sendingWaitAcknowledge } } else nd
    | .mack k =>
      if nd.ppe.st = .sendingWaitAcknowledge then
        { nd with ppe := { nd.ppe with lastMack := k, st := .sendingCheckAcknowledge } }
      else nd
    | .ackEnd =>
      if nd.ppe.st = .receivingAcknowledge then nd.onAddrAckEnd
      else if nd.ppe.st = .sendingCheckAcknowledge then nd.onReadAckEnd
      else nd
    | .notify => nd

end Sys2Proof.Machine
end

