-- ==== Sys2Proof/Machine/Bus.lean ====
section
/-! DEFINITION. Bus segments (42_bus.md): the joint transition of an event, the combined response, clock holding, the
grammar of a controller's events, the controller operations, and the pseudo-operations of R125 and R126. -/

namespace Sys2Proof.Machine

/-- The grammar of R228: where a segment goes on a controller's event; `none` where the grammar does not allow it. -/
def BusPhase.next : BusPhase → BusEvent → Option BusPhase
  | .idle, .start => some .started
  | .started, .sclLow => some .clocked
  | .clocked, .addr _ rw => some (.addrAck rw)
  | .addrAck false, .ackEnd => some .writeData
  | .addrAck true, .ackEnd => some .readData
  | .writeData, .wbyte _ => some .writeAck
  | .writeData, .start => some .started
  | .writeData, .stop => some .idle
  | .writeAck, .ackEnd => some .writeData
  | .readData, .rbyte => some .readMack
  | .readData, .start => some .started
  | .readData, .stop => some .idle
  | .readMack, .mack _ => some .readAck
  | .readAck, .ackEnd => some .readData
  | _, _ => none

/-- How far the controller of a segment is (R227). -/
def State.phase (s : State) : SegId → BusPhase
  | .primary => s.primary
  | .sub h => match s.nodes[h]? with
    | some nd => nd.sec
    | none => .idle

/-- Sets how far the controller of a segment is. -/
def State.setPhase (s : State) (k : SegId) (p : BusPhase) : State :=
  match k with
  | .primary => { s with primary := p }
  | .sub h => s.modNode h fun nd => { nd with sec := p }

/-- The targets on a segment (R220). -/
def State.targets (s : State) (k : SegId) : List Node := s.nodes.filter fun nd => nd.seg == k

/-- Whether the controller of a segment is in `Resurrection` and holds its lines (R235). -/
def State.resurrecting (s : State) : SegId → Bool
  | .primary => false
  | .sub h => match s.nodes[h]? with
    | some nd => nd.hfe.st == .resurrection
    | none => false

/-- Whether a segment is held (R226): a target stalls, or its controller is in `Resurrection`. -/
def State.held (s : State) (k : SegId) : Bool :=
  ((s.targets k).any fun nd => nd.ppe.st == .sendingStalled) || s.resurrecting k

/-- The combined response to an event (R223 to R225): acknowledges are ORed, read bytes ANDed, an undriven read is 0xFF. -/
def State.response (s : State) (k : SegId) (e : BusEvent) : Option Obs :=
  match e with
  | .addr a _ => some (.addrAck ((s.targets k).any fun nd => nd.ppe.st == .addressing && nd.matches a))
  | .wbyte _ => some (.dataAck ((s.targets k).any fun nd => nd.ppe.st == .receiving))
  | .rbyte => some (.byte (((s.targets k).filter fun nd => nd.ppe.st == .sending).foldl (fun v nd => v &&& nd.ppe.shift) 0xFF))
  | _ => none

/-- Applies the edge handler of every target on a segment (R222). -/
def State.edgeAll (s : State) (k : SegId) (e : BusEvent) : State :=
  { s with nodes := s.nodes.map fun nd => if nd.seg = k then nd.edge e else nd }

/-- A controller's event on a segment (R222): refused outside the grammar (R229), else the joint transition of every
target, with the controller's response. -/
def State.emit (s : State) (k : SegId) (e : BusEvent) : Res (State × Option Obs) :=
  match (s.phase k).next e with
  | none => .error (.refused .busGrammar)
  | some p =>
    if (s.targets k).all fun nd => edgeApplies nd.ppe.st e then .ok ((s.edgeAll k e).setPhase k p, s.response k e)
    else .error (.fault .notApplicable)

/-- The host's event on the primary segment (R240): nothing occurs while the segment is held (R226, log 3); `NOTIFY` is
no controller's event (R221); the response goes to the host. -/
def State.hostEvent (s : State) (e : BusEvent) : Res State :=
  if s.held .primary then .ok s
  else
    match s.emit .primary e with
    | .error x => .error x
    | .ok (s', r) => .ok { s' with hostLog := r.toList ++ s'.hostLog }

/-- `NOTIFY` delivered to the controller of a segment, and to nobody else (R234, R326). -/
def State.notifyController (s : State) : SegId → State
  | .primary => { s with hostLog := .notify :: s.hostLog }
  | .sub h => s.modNode h fun nd => { nd with hfe := { nd.hfe with notifySeen := true } }

/-- Whether a response is an acknowledge. -/
def ackOf : Option Obs → Bool
  | some (.addrAck k) => k
  | some (.dataAck k) => k
  | _ => false

/-- The byte of a response; 0xFF where there is none (R225). -/
def byteOf : Option Obs → Byte
  | some (.byte b) => b
  | _ => 0xFF

/-- The events of a list in order on a segment, with the last response that was not empty. -/
def State.emitAll (s : State) (k : SegId) : List BusEvent → Option Obs → Res (State × Option Obs)
  | [], r => .ok (s, r)
  | e :: es, r =>
    match s.emit k e with
    | .error x => .error x
    | .ok (s', r') => s'.emitAll k es (r'.orElse fun _ => r)

/-- `OpenWrite(a)` and `OpenRead(a)` (R230), by direction. -/
def openEvents (a : BitVec 7) (rw : Bool) : List BusEvent := [.start, .sclLow, .addr a rw, .ackEnd]

/-- `WriteByte(b)` (R230). -/
def writeEvents (b : Byte) : List BusEvent := [.wbyte b, .ackEnd]

/-- `ReadByte(k)` (R230). -/
def readEvents (ack : Bool) : List BusEvent := [.rbyte, .mack ack, .ackEnd]

/-- `OpenWrite(a)` or `OpenRead(a)` on a segment, with the address acknowledge (R230). -/
def State.openTx (s : State) (k : SegId) (a : BitVec 7) (rw : Bool) : Res (State × Bool) :=
  (s.emitAll k (openEvents a rw) none).map fun x => (x.1, ackOf x.2)

/-- `WriteByte(b)` on a segment, with the data acknowledge (R230). -/
def State.writeByte (s : State) (k : SegId) (b : Byte) : Res (State × Bool) :=
  (s.emitAll k (writeEvents b) none).map fun x => (x.1, ackOf x.2)

/-- `ReadByte(k)` on a segment, with the byte (R230). -/
def State.readByte (s : State) (k : SegId) (ack : Bool) : Res (State × Byte) :=
  (s.emitAll k (readEvents ack) none).map fun x => (x.1, byteOf x.2)

/-- `Stop` on a segment (R230). -/
def State.stopTx (s : State) (k : SegId) : Res State := (s.emit k .stop).map Prod.fst

/-- `SEND a, q` (R126): the host's events that write a request. -/
def sendEvents (a : BitVec 7) (q : List Byte) : List BusEvent :=
  openEvents a false ++ q.flatMap writeEvents ++ [.stop]

/-- `FETCH a, m` (R126): the host's events that read `m` bytes, the last one with NACK. -/
def fetchEvents (a : BitVec 7) (m : Nat) : List BusEvent :=
  openEvents a true ++ (List.range m).flatMap (fun i => readEvents (decide (i + 1 < m))) ++ [.stop]

/-- `REGRD`, `REGWR`, `MEMRD` and `MEMWR` (R126) for the body of a request: send it, then fetch its `ok` reply's length. -/
def exchangeEvents (a : BitVec 7) (body : List Byte) : List BusEvent × List BusEvent :=
  (sendEvents a (frameOf body), fetchEvents a (replySize (body.headD 0)))

end Sys2Proof.Machine
end

