-- ==== Sys2Proof/Machine/Reset.lean ====
section
/-! DEFINITION. The three kinds of reset (R400 to R406) as one operation, with what a hub's reset and a resurrection's
end do to its children (R402, R338). -/

namespace Sys2Proof.Machine

/-- The kinds of reset (R400). -/
inductive ResetKind where
  | powerOn | reboot | recovery
  deriving DecidableEq, Repr

/-- `execHalf` after a reset (R400, R189). -/
def Node.halfAfter (nd : Node) : ResetKind → Half
  | .powerOn => nd.par.bootHalf
  | .reboot => if nd.rebootReq = .switch then nd.execHalf.other else nd.execHalf
  | .recovery => .maintenance

/-- The configuration a node takes at a reset (R404), or the unprovisioned one (R405). -/
def Node.loadCfg (nd : Node) : RunCfg :=
  match Config.cfgDecode nd.configBytes with
  | some c => c
  | none => { ownAddr := nd.par.defaultAddr, hubMax := nd.par.defaultAddr, hubDivisor := 0, calib := [], feature := [] }

/-- The registers after a reset (R53): the core's at 0x00, the collaborator's at free values (log 8). -/
def Node.resetRegs (nd : Node) (draw : Nat) : Vector Byte 64 :=
  Vector.ofFn fun i : Fin 64 => if nd.par.coreOwned (BitVec.ofNat 6 i.val) then 0 else Config.freeByte draw i.val

/-- The PPE after a reset (R53). What R53 leaves unspecified takes free values (log 8). -/
def Ppe.afterReset (busy : Bool) (draw : Nat) : Ppe :=
  { Ppe.reset with
    req := Vector.ofFn fun i : Fin 19 => Config.freeByte draw (64 + i.val)
    rep := Vector.ofFn fun i : Fin 18 => Config.freeByte draw (96 + i.val)
    shift := Config.freeByte draw 120
    lastMack := (Config.freeByte draw 121).getLsbD 0
    busBusy := busy }

/-- The HFE after a reset (R53). The counters it leaves unspecified take free values of their ranges (R48; log 8). -/
def Hfe.afterReset (draw : Nat) : Hfe :=
  let need := 1 + Config.freeNat draw 1 % maxRep
  { Hfe.reset with
    fwdPos := Config.freeNat draw 0 % (maxReq + 1)
    rdNeed := need
    rdPos := Config.freeNat draw 2 % (need + 1) }

/-- The memory after a reset (R403): working storage is unlisted, so its contents are free ones of a new epoch; blocks
still pending take free values (R87); the rest is kept. -/
def Node.resetMem (nd : Node) (draw : Nat) : Memory :=
  nd.progPending.foldl
    (fun m b => m.writeBytes (blkBase b) ((List.range blkSize).map fun i => Config.freeByte draw (128 + blkBase b + i)))
    nd.memWithoutRam

/-- A node after a reset (R53, R400 to R406), except for what its children see. `busy`: whether its segment is between
a START and its STOP (R401). -/
def Node.afterReset (nd : Node) (kind : ResetKind) (busy : Bool) (draw : Nat) : Node :=
  { nd with
    cfg := nd.loadCfg
    regs := nd.resetRegs draw
    notifyPending := false
    rebootReq := .none
    execHalf := nd.halfAfter kind
    mem := nd.resetMem draw
    memEpoch := nd.memEpoch + 1
    progPending := []
    progBuf := []
    ppe := Ppe.afterReset busy draw
    hfe := Hfe.afterReset draw
    sec := .idle }

/-- An open secondary transaction of hub `i` is abandoned: every target but a stalled one receives `STOP` (R402). -/
def State.abandonTx (s : State) (i : Nat) : State :=
  if s.phase (.sub i) = .idle then s
  else { s with nodes := s.nodes.map fun nd => if nd.seg = .sub i ∧ nd.ppe.st ≠ .sendingStalled then nd.onStop else nd }

/-- Resets node `i` (R400), in one atomic step. A reset of any kind of a hub in `Resurrection` releases the lines (R402) and
resets no child of it: only the end-of-resurrection step does (R337, R338). DEDUCED (log 35). -/
def State.resetNode (s : State) (i : Nat) (kind : ResetKind) : State :=
  match s.nodes[i]? with
  | none => s
  | some nd =>
    ((s.abandonTx i).setNode i (nd.afterReset kind (decide (s.phase nd.seg ≠ .idle)) s.draws)).draw

/-- The recovery reset of every target on the secondary segment of hub `h` (R338). A target that is itself a hub in
`Resurrection` leaves it by this reset, and its own targets are not reset. DEDUCED (log 35). -/
def State.recoverChildren (s : State) (h : Nat) : State :=
  (List.range s.nodes.length).foldl
    (fun t i => if (t.nodes[i]?.any fun nd => nd.seg == .sub h) then t.resetNode i .recovery else t) s

end Sys2Proof.Machine
end

