-- ==== Sys2Proof/Machine/PpeSteps.lean ====
section
/-! DEFINITION. The cooperative steps of a PPE but the service step (R283 to R286). A step that is not enabled waits: it
leaves the state as it is (log 3). -/

namespace Sys2Proof.Machine

/-- Runs a step of node `i` where its condition holds; otherwise nothing happens (log 3). -/
def State.whenNode (s : State) (i : Nat) (enabled : Node → Bool) (act : Node → Res State) : Res State :=
  match s.nodes[i]? with
  | none => .ok s
  | some nd => if enabled nd then act nd else .ok s

/-- The clear step (R283). -/
def State.clearStep (s : State) (i : Nat) : Res State :=
  s.whenNode i (fun nd => nd.ppe.drained) fun nd => .ok (s.setNode i nd.clearBuffers)

/-- When the reboot step is enabled (R283, R189). -/
def Node.rebootEnabled (nd : Node) : Bool := nd.rebootReq != .none && nd.ppe.cycAddr == none && nd.ppe.st == .idle

/-- The reboot step (R283). -/
def State.rebootStep (s : State) (i : Nat) : Res State :=
  s.whenNode i Node.rebootEnabled fun _ => .ok (s.resetNode i .reboot)

/-- When the validate step is enabled (R284). -/
def Node.validateEnabled (nd : Node) : Bool := nd.ppe.reqSt == .unchecked && !nd.childCycle

/-- The validate step (R284): a bad check byte is answered `reqCheckErr`. -/
def State.validateStep (s : State) (i : Nat) : Res State :=
  s.whenNode i Node.validateEnabled fun nd =>
    if checkRequest nd.ppe.req.toList nd.ppe.reqLen = .ok then
      .ok (s.setNode i { nd with ppe := { nd.ppe with reqSt := .valid } })
    else s.commitAt i [codeByte .reqCheckErr]

/-- When the service step is enabled (R180, R288). -/
def Node.serviceEnabled (nd : Node) : Bool :=
  nd.ppe.reqSt == .valid && !nd.ppe.repFinal && nd.ppe.repLen == 0 && !nd.childCycle

/-- When the notify-begin step is enabled (R285). -/
def State.notifyEnabled (s : State) (nd : Node) : Bool :=
  nd.notifyPending && nd.ppe.st == .idle && !nd.ppe.busBusy && !s.held nd.seg

/-- The notify-begin step (R285). It sets `ppe.st` and nothing else, so a drained node may be `Notifying`, beside the derived
last sentence of R278. DEDUCED (log 24). -/
def State.notifyBegin (s : State) (i : Nat) : Res State :=
  s.whenNode i s.notifyEnabled fun nd =>
    .ok (s.setNode i { nd with ppe := { nd.ppe with st := .notifying } })

/-- The notify-end step (R286). The pulse needs an idle segment that is not held (R226, R234; log 23). -/
def State.notifyEnd (s : State) (i : Nat) : Res State :=
  s.whenNode i (fun nd => nd.ppe.st == .notifying && s.phase nd.seg == .idle && !s.held nd.seg) fun nd =>
    .ok ((s.notifyController nd.seg).modNode i fun n =>
      { n with notifyPending := false, ppe := { n.ppe with st := .idle } })

end Sys2Proof.Machine
end

