-- ==== Sys2Proof/Machine/HfeSteps.lean ====
section
/-! DEFINITION. The steps of the hub forwarding engine (44_hub_forwarding.md). Each does at most one address phase or one
byte on the secondary segment (R321), and waits where it is not enabled (log 3). -/

namespace Sys2Proof.Machine

/-- Changes a node's HFE. -/
def Node.withHfe (nd : Node) (f : Hfe → Hfe) : Node := { nd with hfe := f nd.hfe }

/-- When the resurrection step is enabled (R327, R320). -/
def Node.resurrectEnabled (nd : Node) : Bool := nd.hubCapable && nd.hfe.st == .idle && nd.hfe.resurrectReq

/-- When the notified step is enabled (R326), after the resurrection step (R339). -/
def Node.notifiedEnabled (nd : Node) : Bool :=
  nd.hubCapable && nd.hfe.st == .idle && nd.hfe.notifySeen && !nd.resurrectEnabled

/-- Whether a child cycle waits to be forwarded (R323, R343). -/
def Node.childPending (nd : Node) : Bool :=
  nd.hubCapable && nd.childCycle && !nd.hfe.fwdStarted && (decide (1 ≤ nd.ppe.reqLen) || nd.ppe.readSeen)

/-- When the open step is enabled (R323), after the resurrection and notified steps (R339). R339 adds that a pending child
cycle waits for at most one notified step, yet a `NOTIFY` that comes after the step of R328 disables this step once more: the
model follows the conditions of R323 and R326, and the wait has no bound. DEDUCED (log 36). -/
def Node.openEnabled (nd : Node) : Bool :=
  nd.hfe.st == .idle && nd.childPending && !nd.resurrectEnabled && !nd.notifiedEnabled

/-- `secLocked` (R322). -/
def State.secLocked (s : State) (h : Nat) (envLocked : Bool) : Bool :=
  ((s.targets (.sub h)).any fun nd => nd.ppe.st == .notifying || nd.ppe.st == .sendingStalled)
    || s.resurrecting (.sub h) || envLocked

/-- The child did not answer (R325, R330, R332): stop, answer `noDevice`, and be idle. -/
def State.noDevice (s : State) (h : Nat) : Res State :=
  match s.stopTx (.sub h) with
  | .error x => .error x
  | .ok s' =>
    match s'.commitAt h [codeByte .noDevice] with
    | .error x => .error x
    | .ok s'' => .ok (s''.modNode h fun n => n.withHfe fun f => { f with st := .idle })

/-- The open step (R323 to R325). -/
def State.openStep (s : State) (h : Nat) (envLocked : Bool) : Res State :=
  s.whenNode h Node.openEnabled fun nd =>
    let s' := s.modNode h fun n => n.withHfe fun f => { f with fwdStarted := true }
    if s.secLocked h envLocked then s'.commitAt h [codeByte .noBus]
    else
      match s'.openTx (.sub h) (nd.ppe.cycAddr.getD 0) false with
      | .error x => .error x
      | .ok (t, true) => .ok (t.modNode h fun n => n.withHfe fun f => { f with fwdPos := 0, st := .requestForwarding })
      | .ok (t, false) => t.noDevice h

/-- The notified step (R326). -/
def State.notifiedStep (s : State) (h : Nat) : Res State :=
  s.whenNode h Node.notifiedEnabled fun _ => .ok (s.modNode h fun n => n.withHfe fun f => { f with st := .notified })

/-- The resurrection step (R327). -/
def State.resurrectStep (s : State) (h : Nat) : Res State :=
  s.whenNode h Node.resurrectEnabled fun _ =>
    .ok (s.modNode h fun n => n.withHfe fun f => { f with resurrectReq := false, st := .resurrection })

/-- The step of the `Notified` state (R328). -/
def State.flagStep (s : State) (h : Nat) : Res State :=
  s.whenNode h (fun nd => nd.hubCapable && nd.hfe.st == .notified) fun _ =>
    .ok (s.modNode h fun n =>
      (n.setChanged (n.reg 0 ||| n.par.childMask)).withHfe fun f => { f with notifySeen := false, st := .idle })

/-- The forward step (R329, R330). -/
def State.forwardStep (s : State) (h : Nat) : Res State :=
  s.whenNode h
    (fun nd => nd.hubCapable && nd.hfe.st == .requestForwarding && decide (nd.hfe.fwdPos < nd.ppe.reqLen) && !s.held (.sub h))
    fun nd =>
      match s.writeByte (.sub h) (nd.ppe.req.toList.getD nd.hfe.fwdPos 0) with
      | .error x => .error x
      | .ok (t, true) => .ok (t.modNode h fun n => n.withHfe fun f => { f with fwdPos := f.fwdPos + 1 })
      | .ok (t, false) => t.noDevice h

/-- The number of reply bytes to read from the child (R331). -/
def Node.replyNeed (nd : Node) : Nat := if 2 ≤ nd.hfe.fwdPos then replySize nd.ppe.req[1] else 1

/-- The turn-around step (R331, R332). -/
def State.turnAroundStep (s : State) (h : Nat) : Res State :=
  s.whenNode h
    (fun nd => nd.hubCapable && nd.hfe.st == .requestForwarding && decide (nd.hfe.fwdPos = nd.ppe.reqLen) && nd.ppe.readSeen
      && nd.ppe.cycAddr.isSome && !s.held (.sub h))
    fun nd =>
      match s.openTx (.sub h) (nd.ppe.cycAddr.getD 0) true with
      | .error x => .error x
      | .ok (t, true) =>
        .ok (t.modNode h fun n => n.withHfe fun f => { f with rdNeed := nd.replyNeed, rdPos := 0, st := .replyForwarding })
      | .ok (t, false) => t.noDevice h

/-- The copy step (R334, R335): one reply byte, unchanged, into the hub's reply. -/
def State.copyStep (s : State) (h : Nat) : Res State :=
  s.whenNode h
    (fun nd => nd.hubCapable && nd.hfe.st == .replyForwarding && decide (nd.hfe.rdPos < nd.hfe.rdNeed) && !s.held (.sub h))
    fun nd =>
      let last := decide (nd.hfe.rdPos + 1 = nd.hfe.rdNeed)
      match s.readByte (.sub h) (!last) with
      | .error x => .error x
      | .ok (t, b) =>
        match t.nodes[h]? with
        | none => .error (.fault .noNode)
        | some n =>
          match (n.withHfe fun f => { f with rdPos := f.rdPos + 1 }).commitPartial [b] last with
          | .error f => .error (.fault f)
          | .ok n' =>
            let u := t.setNode h n'
            if last then
              match u.stopTx (.sub h) with
              | .error x => .error x
              | .ok v => .ok (v.modNode h fun n => n.withHfe fun f => { f with st := .idle })
            else .ok u

/-- The end-of-resurrection step, with the recovery reset of every child (R337, R338). -/
def State.endResurrectionStep (s : State) (h : Nat) : Res State :=
  s.whenNode h (fun nd => nd.hubCapable && nd.hfe.st == .resurrection) fun _ =>
    .ok ((s.modNode h fun n => n.withHfe fun f => { f with st := .idle }).recoverChildren h)

/-- The no-bus step during resurrection (R343). -/
def State.noBusStep (s : State) (h : Nat) : Res State :=
  s.whenNode h (fun nd => nd.hfe.st == .resurrection && nd.childPending) fun _ =>
    (s.modNode h fun n => n.withHfe fun f => { f with fwdStarted := true }).commitAt h [codeByte .noBus]

/-- A step of node `h`'s HFE. -/
def State.hubStep (s : State) (h : Nat) : HfeStep → Res State
  | .resurrect => s.resurrectStep h
  | .notified => s.notifiedStep h
  | .openTx envLocked => s.openStep h envLocked
  | .flag => s.flagStep h
  | .forward => s.forwardStep h
  | .turnAround => s.turnAroundStep h
  | .copy => s.copyStep h
  | .endResurrection => s.endResurrectionStep h
  | .noBus => s.noBusStep h

end Sys2Proof.Machine
end

