-- ==== Sys2Proof/Machine/Scheduler.lean ====
section
/-! DEFINITION. Which agent acts (R10, R260, R368), and what each action does. The service step fetches the request from
the node's buffer, decodes it and runs it (R180, R181, R288). -/

namespace Sys2Proof.Machine

/-- The action of this step: the head of the agenda, or a free one when the agenda is empty (log 2). -/
def State.nextAction (s : State) : Option Action :=
  match s.agenda with
  | a :: _ => some a
  | [] => Config.freeAction s.tick

/-- The state with this step's action taken from the agenda. -/
def State.advance (s : State) : State := { s with agenda := s.agenda.tail, tick := s.tick + 1 }

/-- The body of the request in a node's buffer: where the service step fetches its instruction (R110, R180). -/
def Ppe.body (p : Ppe) : List Byte := p.reqBytes.drop 1

/-- The service step of node `n` (R288). A valid request has the size its opcode asks for (R54). -/
def State.serviceStep (s : State) (n : Nat) : Out :=
  match s.nodes[n]? with
  | none => .next s
  | some nd =>
    if nd.serviceEnabled then
      match decode nd.ppe.body with
      | .ok (i, _) => exec i { s with cur := n }
      | .error _ => .fault .invariant
    else .next s

/-- A cooperative step of node `n`'s PPE (R283 to R288). -/
def State.coopStep (s : State) (n : Nat) : PpeStep → Out
  | .clear => (s.clearStep n).out
  | .reboot => (s.rebootStep n).out
  | .validate => (s.validateStep n).out
  | .service => s.serviceStep n
  | .notifyBegin => (s.notifyBegin n).out
  | .notifyEnd => (s.notifyEnd n).out

/-- One agent's atomic step (R10, R17). -/
def State.perform (s : State) : Action → Out
  | .host e => (s.hostEvent e).out
  | .coop n c => s.coopStep n c
  | .hub n h => (s.hubStep n h).out
  | .collab n c => .next (s.modNode n fun nd => nd.collabStep c)
  | .powerOn n => .next (s.resetNode n .powerOn)

/-- The action of this step performed, or nothing where no agent acts. -/
def State.act (s : State) : Out :=
  match s.nextAction with
  | some a => s.advance.perform a
  | none => .next s.advance

/-- A node whose buffer holds a validated request for its own address, as the host's writes and the validate step leave
it (R264, R269, R284): where the service step fetches (log 20). -/
def Node.withRequest (nd : Node) (frame : List Byte) : Node :=
  { nd with ppe := { nd.ppe with
      req := putBytes nd.ppe.req 0 frame, reqLen := frame.length, reqSt := .valid
      repLen := 0, repPos := 0, repFinal := false, drained := false
      cycAddr := some nd.cfg.ownAddr } }

/-- The request frame of the opcode table's bits `w` (R110): as many body bytes as the opcode asks for, checksummed. -/
def tableFrame (nbits w : Nat) : List Byte :=
  frameOf ((tableBytes nbits w).take (requestSize ((tableBytes nbits w).headD 0) - 1))

end Sys2Proof.Machine
end

