-- ==== Sys2Proof/Machine/Step.lean ====
section
/-! DEFINITION. One step of the machine: a state that breaks an invariant of R54 is `fault(invariant)`, otherwise one
agent acts (R10). And where the next step's instruction is placed. -/

namespace Sys2Proof.Machine

/-- One step (R10, R54). -/
def step (s : State) : Host.Outcome State Fault Refusal :=
  if s.r54 then s.act else .fault .invariant

/-- `s` with the request of table bits `w` validated in node 0's buffer and node 0's service step next on the agenda, so
that the next step serves exactly it (log 20). -/
def State.withFetchWord (s : State) (nbits w : Nat) : State :=
  { s with
    nodes := s.nodes.modify 0 fun nd => nd.withRequest (tableFrame nbits w)
    agenda := .coop 0 .service :: s.agenda }

end Sys2Proof.Machine
end

