-- ==== Sys2Proof/Safety.lean ====
section
/-! DEFINITION. What claims use: the constraints on the OPEN parameters (R12, R13), the tree (R11), the invariants of
every reachable state (R54, R278, R261's "n/a" cells, the HFE against its segment), and what no step changes. -/

namespace Sys2Proof.Machine

/-- The constraints R12, R13 and R81 put on a node's parameters. -/
def Params.wf (p : Params) : Bool :=
  decide (p.regMagic ≠ 0) && decide (p.regCtrl ≠ 0) && decide (p.regUnlock ≠ 0) &&
  decide (p.regMagic ≠ p.regCtrl) && decide (p.regMagic ≠ p.regUnlock) && decide (p.regCtrl ≠ p.regUnlock) &&
  decide (p.unlockKey ≠ 0) && decide (p.changedChildBit ≠ 1) &&
  decide (1 ≤ p.regionShift) && decide (p.regionShift ≤ 11) && decide (p.regionTab.length = 2 ^ (12 - p.regionShift)) &&
  [Region.prog, .ram, .config, .ident].all (fun r => p.regionTab.contains r) && decide (1 ≤ p.progPageBlocks)

/-- The node's memories and its set of pending blocks in canonical form (R50, R80, R87); only program blocks outside the
protected range and outside the executing half are pending (R85, R86). -/
def Node.memOk (nd : Node) : Bool :=
  nd.mem.wf && nd.progBuf.wf && decide (nd.progPending.Pairwise (· < ·)) &&
  nd.progPending.all fun b =>
    decide (b < 4096) && nd.par.region b == .prog && !nd.par.isProtected b && nd.par.halfOf b != nd.execHalf

/-- Whether the byte at an address may never be written (R82, R86): identity, the protected range, the executing half. -/
def Node.unwritable (nd : Node) (a : Nat) : Prop :=
  nd.par.region (a / blkSize) = .ident ∨
  nd.par.region (a / blkSize) = .prog ∧
    (nd.par.isProtected (a / blkSize) = true ∨ nd.par.halfOf (a / blkSize) = nd.execHalf)

/-- Block `b` is a program block of the page of block `blk` (R87; log 16). -/
def Params.samePage (p : Params) (blk b : Nat) : Prop :=
  b < 4096 ∧ p.region b = .prog ∧ b / p.progPageBlocks = blk / p.progPageBlocks

/-- The actions that can reset a node (R400): power-on, the reboot step, the end of a resurrection. -/
def Action.isReset : Option Action → Bool
  | some (.powerOn _) => true
  | some (.coop _ .reboot) => true
  | some (.hub _ .endResurrection) => true
  | _ => false

/-- The control state against the cycle: a drained node is `Idle` or, by R285, `Notifying` (R278; log 24); a node takes part in a transaction only in a
cycle, receives only in a write, reads only after a read address, stalls only without a byte to send (R262, R269, R271,
R279), and notifies only outside transactions (R285). -/
def Node.ppeOk (nd : Node) : Bool :=
  nd.ppe.r54 &&
  decide (nd.ppe.drained = true → nd.ppe.st = .idle ∨ nd.ppe.st = .notifying) &&
  decide (nd.ppe.st ∈ [PpeState.receivingAcknowledge, .receiving, .sending, .sendingStalled, .sendingWaitAcknowledge,
    .sendingCheckAcknowledge] → nd.ppe.cycAddr ≠ none) &&
  decide (nd.ppe.st = .receiving → nd.ppe.dir = false) &&
  decide (nd.ppe.st = .receivingAcknowledge → nd.ppe.dir = true → nd.ppe.readSeen = true) &&
  decide (nd.ppe.st ∈ [PpeState.sending, .sendingStalled, .sendingWaitAcknowledge, .sendingCheckAcknowledge] →
    nd.ppe.readSeen = true) &&
  decide (nd.ppe.st = .sendingStalled → nd.ppe.repFinal = false ∧ nd.ppe.repPos = nd.ppe.repLen) &&
  decide (nd.ppe.st = .notifying → nd.ppe.busBusy = false) &&
  decide (nd.ppe.repFinal = true → 1 ≤ nd.ppe.repLen) &&
  decide (nd.childCycle = false → nd.ppe.repLen ≠ 0 → nd.ppe.repFinal = true)

/-- The HFE against its node's PPE and its secondary segment (R323, R329, R331, R334): it forwards only inside a child
cycle, with its segment open in the matching direction, and the segment is idle whenever it does not forward. -/
def Node.hfeOk (nd : Node) : Bool :=
  decide (nd.hubCapable = false → nd.hfe.st = .idle ∧ nd.hfe.fwdStarted = false ∧ nd.hfe.resurrectReq = false) &&
  decide (nd.hfe.fwdStarted = true → nd.childCycle = true) &&
  decide (nd.childCycle = true → nd.hfe.fwdStarted = false → nd.ppe.repLen = 0 ∧ nd.ppe.repFinal = false) &&
  match nd.hfe.st with
  | .requestForwarding =>
    decide (nd.sec = .writeData) && nd.hfe.fwdStarted && nd.childCycle && decide (nd.ppe.repLen = 0) && !nd.ppe.repFinal &&
    decide (nd.hfe.fwdPos ≤ nd.ppe.reqLen)
  | .replyForwarding =>
    decide (nd.sec = .readData) && nd.hfe.fwdStarted && nd.childCycle && !nd.ppe.repFinal &&
    decide (nd.ppe.repLen = nd.hfe.rdPos) && decide (nd.hfe.rdPos < nd.hfe.rdNeed) && decide (nd.hfe.rdNeed ≤ maxRep)
  | _ => decide (nd.sec = .idle) && decide (nd.hfe.fwdStarted = true → nd.ppe.repFinal = true)

/-- A target's control state against how far its segment's controller is: the cells of R261 that are not "n/a". A
target that was reset or that did not match is `Idle` at any time. -/
def segOk : BusPhase → Ppe → Bool
  | .idle, p => p.st ∈ [PpeState.idle, .notifying, .sending, .sendingStalled]
  | .started, p => p.busBusy && p.st ∈ [PpeState.idle, .startDetected]
  | .clocked, p => p.busBusy && p.st ∈ [PpeState.idle, .addressing]
  | .addrAck rw, p => p.busBusy && (p.st == .idle || (p.st == .receivingAcknowledge && p.dir == rw))
  | .writeData, p => p.busBusy && p.st ∈ [PpeState.idle, .receiving]
  | .writeAck, p => p.busBusy && (p.st == .idle || (p.st == .receivingAcknowledge && !p.dir))
  | .readData, p => p.busBusy && p.st ∈ [PpeState.idle, .sending, .sendingStalled]
  | .readMack, p => p.busBusy && p.st ∈ [PpeState.idle, .sendingWaitAcknowledge]
  | .readAck, p => p.busBusy && p.st ∈ [PpeState.idle, .sendingCheckAcknowledge]

/-- Node `nd` is the one being served and has no reply yet (R180, R288), in a state that keeps R54. -/
def State.serving (s : State) (nd : Node) : Prop :=
  s.nodes[s.cur]? = some nd ∧ nd.ppe.r54 = true ∧ nd.ppe.repFinal = false ∧ nd.ppe.repLen = 0

/-- PPE `q` is PPE `p` after a full reply was published (R290, R292): the reply is those bytes, final; the request is
answered and keeps its bytes; a stalled read has its first byte, and otherwise the control state is unchanged. -/
def Published (p q : Ppe) (bytes : List Byte) : Prop :=
  q.repBytes = bytes ∧ q.repLen = bytes.length ∧ q.repFinal = true ∧ q.reqSt = .answered ∧
  q.req = p.req ∧ q.reqLen = p.reqLen ∧ q.cycAddr = p.cycAddr ∧ q.dir = p.dir ∧ q.readSeen = p.readSeen ∧
  q.drained = p.drained ∧ q.busBusy = p.busBusy ∧ q.lastMack = p.lastMack ∧
  (if p.st = .sendingStalled then q.st = .sending ∧ q.shift = bytes.headD 0 ∧ q.repPos = 1
   else q.st = p.st ∧ q.shift = p.shift ∧ q.repPos = p.repPos)

/-- State `t` is state `s` with node `i` replaced by `nd` and at most the counter of free values advanced: every other
node, the primary segment, the host's record and the schedule are unchanged. -/
def State.onlyNode (s t : State) (i : Nat) (nd : Node) : Prop :=
  t.nodes = s.nodes.set i nd ∧ t.primary = s.primary ∧ t.hostLog = s.hostLog ∧ t.agenda = s.agenda ∧ t.tick = s.tick ∧
  t.cur = s.cur

/-- What no step changes in a node: its place, parameters, collaborator kind, identity and memory key (R12, R36). -/
structure Fixed where
  seg     : SegId
  par     : Params
  collab  : Collab
  ident   : Ident
  nodeKey : Nat
  deriving DecidableEq, Repr

/-- What no step changes in a node. -/
def Node.fixed (nd : Node) : Fixed where
  seg := nd.seg
  par := nd.par
  collab := nd.collab
  ident := nd.ident
  nodeKey := nd.nodeKey

/-- Two nodes agree on everything but registers, memory, PPE, HFE and the latches a register access can set. -/
def Node.sameRest (nd nd' : Node) : Prop :=
  nd'.seg = nd.seg ∧ nd'.par = nd.par ∧ nd'.collab = nd.collab ∧ nd'.ident = nd.ident ∧ nd'.nodeKey = nd.nodeKey ∧
  nd'.execHalf = nd.execHalf ∧ nd'.cfg = nd.cfg ∧ nd'.sec = nd.sec

/-- A register access runs no free collaborator: the register is the protocol core's, or the collaborator is plain
storage (R31, R32; log 11). -/
def Node.quiet (nd : Node) (reg : BitVec 6) : Prop := nd.par.coreOwned reg = true ∨ nd.collab = .storage

/-- What a register access leaves of a node's memory, of the `CHILD` bit and of the notification latch (R32, R38, R93): a
free collaborator may change working storage, its own bits of `REG_CHANGED` and so the latch, and nothing else of them. -/
def Node.sideEffects (nd nd' : Node) (reg : BitVec 6) : Prop :=
  nd'.progPending = nd.progPending ∧ nd'.progBuf = nd.progBuf ∧
  (∀ a, nd.par.region (a / 16) ≠ .ram ∨ nd.quiet reg → nd'.readByte a = nd.readByte a) ∧
  (nd.notifyPending = true → nd'.notifyPending = true) ∧
  (∀ k, nd.regs[0].getLsbD k = false → nd'.regs[0].getLsbD k = true → nd'.notifyPending = true) ∧
  (nd.quiet reg → nd'.notifyPending = nd.notifyPending)

/-- Node `nd'` is node `nd` after a reset of any kind (R53, R400, R401, R403, R404, R405), but for `execHalf`, which the kind
decides, and for what R53 leaves open. -/
def Node.wasReset (nd nd' : Node) : Prop :=
  nd'.ppe.st = .idle ∧ nd'.ppe.reqLen = 0 ∧ nd'.ppe.repLen = 0 ∧ nd'.ppe.repPos = 0 ∧ nd'.ppe.reqSt = .accumulating ∧
  nd'.ppe.repFinal = false ∧ nd'.ppe.drained = false ∧ nd'.ppe.readSeen = false ∧ nd'.ppe.dir = false ∧
  nd'.ppe.cycAddr = none ∧ nd'.notifyPending = false ∧ nd'.rebootReq = .none ∧
  nd'.hfe.st = .idle ∧ nd'.hfe.fwdStarted = false ∧ nd'.hfe.resurrectReq = false ∧ nd'.hfe.notifySeen = false ∧
  nd'.sec = .idle ∧ nd'.reg 0 = 0 ∧ nd'.reg nd.par.regCtrl = 0 ∧ nd'.reg nd.par.regUnlock = 0 ∧ nd'.progPending = [] ∧
  (∀ c, Config.cfgDecode nd.configBytes = some c → nd'.cfg = c) ∧
  (Config.cfgDecode nd.configBytes = none → nd'.cfg.ownAddr = nd.par.defaultAddr ∧ nd'.cfg.hubMax = nd.par.defaultAddr) ∧
  (∀ a, nd.par.region (a / 16) ≠ .ram → a / 16 ∉ nd.progPending → nd'.readByte a = nd.readByte a) ∧
  nd'.fixed = nd.fixed

/-- What the reset of node `i` leaves of the rest of the network (R402): its secondary segment is idle; every target of an
open secondary transaction but a stalled one has received `STOP`; every other node, the primary segment and the host's
record are unchanged. -/
def State.restAfterReset (s t : State) (i : Nat) : Prop :=
  t.phase (.sub i) = .idle ∧ t.primary = s.primary ∧ t.hostLog = s.hostLog ∧ t.nodes.length = s.nodes.length ∧
  ∀ (j : Nat) (x : Node), j ≠ i → s.nodes[j]? = some x → t.nodes[j]? = some
    (if x.seg = .sub i ∧ s.phase (.sub i) ≠ .idle ∧ x.ppe.st ≠ .sendingStalled then
      { x with ppe := { x.ppe with busBusy := false, st := .idle } }
    else x)

/-- The network is a tree (R11, R220): a node on a secondary segment comes after its hub in the list, and the hub has
`HUB_CAPABLE`. R220 asks for a nonempty subnet too; where a reset leaves a hub's subnet empty (R405), the model keeps its
segment and the nodes on it. DESIGN CHOICE (log 34). -/
def State.tree (s : State) : Bool :=
  (List.range s.nodes.length).all fun i =>
    match (s.nodes[i]?).map Node.seg with
    | some (.sub h) => decide (h < i) && (s.nodes[h]?.any Node.hubCapable)
    | _ => true

/-- The invariant of every reachable state of a network that is a tree. -/
def State.coherent (s : State) : Bool :=
  s.tree && s.nodes.all fun nd => nd.memOk && nd.ppeOk && nd.hfeOk && segOk (s.phase nd.seg) nd.ppe

end Sys2Proof.Machine
end

