-- ==== Sys2Proof/Certificates/Slice0/Obligations.lean ====
section
/-! DEFINITION. The statements for the provers: what the rules of spec/ say the codec, the requests, the PPE, the bus,
the HFE and the resets do, and the invariants of every step. Each docstring names its rules. -/

section
open Sys2Proof Sys2Proof.Machine

/-! ### Codec (40_codec.md) -/

/-- R155, R156: the sizes of a request and of an `ok` reply are fixed by the opcode alone, for all 256 opcodes; a reply
with another code has one byte whatever the opcode. -/
def Obligations.SizesByOpcode : Prop :=
  (∀ op : Byte,
    (op.getLsbD 7 = false → op.getLsbD 6 = false → requestSize op = 2 ∧ replySize op = 2) ∧
    (op.getLsbD 7 = false → op.getLsbD 6 = true → requestSize op = 3 ∧ replySize op = 1) ∧
    (op.getLsbD 7 = true → op.getLsbD 4 = false → requestSize op = 3 ∧ replySize op = 18) ∧
    (op.getLsbD 7 = true → op.getLsbD 4 = true → requestSize op = 19 ∧ replySize op = 1)) ∧
  requestSize 0xFF = 19 ∧ requestSize 0x50 = 3 ∧ replySize 0x81 = 18 ∧
  ∀ (c : Code) (op : Byte), c ≠ .ok → checkReply (statusOnly (codeNibble c)) op 1 = c

/-- R152: the reference values of the 8-bit checksum. -/
def Obligations.Checksum8ReferenceValues : Prop :=
  checksum8 [0x01] = 0xA2 ∧ checksum8 [0x80] = 0x93 ∧ checksum8 [0xFF] = 0x47 ∧ checksum8 [0x50, 0x5A] = 0x85 ∧
  checksum8 [0x81, 0x23] = 0x32 ∧ checksum8 (List.replicate 18 0xFF) = 0x8B ∧
  ∀ k, k ≤ 18 → checksum8 (List.replicate k 0xFF) ≠ 0xFF

/-- R154: the reference values of the 4-bit checksum, and the only length at which an all-high reply meets it. -/
def Obligations.Checksum4ReferenceValues : Prop :=
  checksum4 [0x01] = 0x6 ∧ checksum4 [0x00, 0x02] = 0x4 ∧ checksum4 [0x0F] = 0x7 ∧ checksum4 [0x0F, 0xFF] = 0xC ∧
  checksum4 (0x0F :: List.replicate 17 0xFF) = 0xD ∧
  ∀ n, n < 18 → (checksum4 (0x0F :: List.replicate n 0xFF) = 0xF ↔ n + 1 = 13)

/-- R151, corner case: a sequence followed by its own checksum has checksum 0. -/
def Obligations.Checksum8OfOwnChecksumIsZero : Prop :=
  ∀ s : List Byte, checksum8 (s ++ [checksum8 s]) = 0

/-- R163(a): a packaged request checks, with or without bytes after it. -/
def Obligations.PackagedRequestChecks : Prop :=
  ∀ (op : Byte) (payload extra : List Byte) (k : Nat), payload.length + 2 = requestSize op → requestSize op ≤ k →
    checkRequest (frameOf (op :: payload) ++ extra) k = .ok

/-- R162: an all-high buffer is never taken for a request, and always read as no reply. -/
def Obligations.StuckBusNeverAccepted : Prop :=
  (∀ k, k < 19 → checkRequest (List.replicate k 0xFF) k = .incomplete) ∧
  (∀ k, 19 ≤ k → checkRequest (List.replicate k 0xFF) k = .reqCheckErr) ∧
  (∀ (op : Byte) (k : Nat), 1 ≤ k → checkReply (List.replicate k 0xFF) op k = .noReply)

/-- R163(b): a packaged `ok` reply of the right length, and every status-only reply, check as the code they carry. -/
def Obligations.PackagedReplyChecks : Prop :=
  (∀ (op : Byte) (payload bytes extra : List Byte) (k : Nat), payload.length + 1 = replySize op →
    packageReply (codeByte .ok :: payload) = some bytes → bytes.length ≤ k → checkReply (bytes ++ extra) op k = .ok) ∧
  (∀ (c : Code) (op : Byte) (extra : List Byte) (k : Nat), c ≠ .ok → 1 ≤ k →
    checkReply (statusOnly (codeNibble c) ++ extra) op k = c)

/-- R160: the status-only reply of all 16 code values is the packaged one-byte reply. -/
def Obligations.StatusOnlyIsPackagedCode : Prop :=
  (∀ c : BitVec 4, packageReply [c.setWidth 8] = some (statusOnly c) ∧
    statusOnly c = [checksum4 [c.setWidth 8] ++ c]) ∧
  statusOnly (codeNibble .reqCheckErr) = [0x03] ∧ statusOnly (codeNibble .noDevice) = [0xC7]

/-- R163(c), R116, for every block and not only the sample: changing one data byte of a memory-read reply is detected. -/
def Obligations.OneDataByteChangeDetected : Prop :=
  ∀ (op v : Byte) (data : List Byte) (i : Nat), op.getLsbD 7 = true → op.getLsbD 4 = false → data.length = 16 → i < 16 →
    v ≠ data.getD i 0 →
    checkReply (statusByte 0 (data ++ [checksum8 data]) :: (data.set i v ++ [checksum8 data])) op 18 = .repCheckErr

/-! ### Addresses and encodings (10_state.md, 30_encoding.md) -/

/-- R33, R34: which addresses are a hub's children, and which a node answers. -/
def Obligations.HubMembershipLaw : Prop :=
  ∀ (nd : Node) (a : BitVec 7),
    (nd.isChild a = true ↔ nd.hubCapable = true ∧ nd.cfg.ownAddr.toNat < a.toNat ∧ a.toNat ≤ nd.cfg.hubMax.toNat) ∧
    (nd.cfg.hubMax.toNat ≤ nd.cfg.ownAddr.toNat → nd.isChild a = false) ∧
    (nd.matches a = true ↔ a = nd.cfg.ownAddr ∨ nd.isChild a = true) ∧
    (nd.ppe.st = .addressing → ∀ rw,
      (nd.edge (.addr a rw)).ppe.st = if nd.matches a = true then .receivingAcknowledge else .idle)

/-- R122: the address byte carries the address and the direction. -/
def Obligations.AddressByteRoundTrip : Prop :=
  (∀ (a : BitVec 7) (rw : Bool), addressOf (addressByte a rw) = a ∧ directionOf (addressByte a rw) = rw ∧
    (addressByte a rw).toNat = 2 * a.toNat + rw.toNat) ∧
  addressByte 5 false = 0x0A ∧ addressByte 5 true = 0x0B

/-- R111, R112, R119, R124: decoding the words of a well-formed instruction gives it back, whatever follows them. -/
def Obligations.DecodeOfEncode : Prop :=
  ∀ (i : Instr) (rest : List Byte), i.wellFormed = true → decode (encode i ++ rest) = .ok (i, rest)

/-- R118, R124: whatever decodes is a well-formed instruction, and encoding it gives the bytes back: no bit is dropped. -/
def Obligations.EncodeOfDecode : Prop :=
  ∀ (bs rest : List Byte) (i : Instr), decode bs = .ok (i, rest) → i.wellFormed = true ∧ encode i ++ rest = bs

/-- R118, R123: every opcode decodes once its payload is there; otherwise the missing bytes are named. -/
def Obligations.EveryOpcodeDecodes : Prop :=
  decode [] = .error .noOpcode ∧
  ∀ (op : Byte) (payload : List Byte),
    (requestSize op ≤ payload.length + 2 → ∃ i rest, decode (op :: payload) = .ok (i, rest)) ∧
    (payload.length + 2 < requestSize op → decode (op :: payload) = .error (.shortPayload op))

/-- R124 and the requests of 95 section 2.5: a few words decode to the instructions they stand for. -/
def Obligations.KnownWordsDecode : Prop :=
  decode [0x3F] = .ok (.regRead 0x3F, []) ∧
  decode [0x50, 0x5A] = .ok (.regWrite 0x10 0x5A, []) ∧
  decode [0x81, 0x23] = .ok (.memRead 0x123, []) ∧
  decode (0x9A :: 0x00 :: List.replicate 16 0x10) = .ok (.memWrite 0xA00 (List.replicate 16 0x10), []) ∧
  decode [0xA0, 0x00] = .ok (.rsvA0 0 0, []) ∧
  decode (0xF5 :: 0x01 :: List.replicate 16 0xFF) = .ok (.rsvF0 5 1 (List.replicate 16 0xFF), [])

/-- R54, R112: a validated request in a buffer decodes to one well-formed instruction, with no byte left over. -/
def Obligations.ValidRequestDecodesWhole : Prop :=
  ∀ p : Ppe, p.r54 = true → p.reqSt = .valid → ∃ i, decode p.body = .ok (i, []) ∧ i.wellFormed = true

/-! ### Requests (41_requests.md, 20_memory.md) -/

/-- R180, R181, R288: when the next action is the service step of a node whose request is valid and unanswered, the step
is `exec` of the instruction its buffer decodes to, on the state with that action taken and that node current. -/
def Obligations.StepServesDecodedRequest : Prop :=
  ∀ (s : State) (n : Nat) (nd : Node) (i : Instr) (rest : List Byte),
    s.r54 = true → s.nextAction = some (.coop n .service) → s.nodes[n]? = some nd → nd.serviceEnabled = true →
    decode nd.ppe.body = .ok (i, rest) → step s = exec i { s.advance with cur := n }

/-- R182, R187: a register read completes, and its reply is the register's value; `REG_MAGIC` reads MAGIC_VALUE, a read of
`REG_CHANGED` clears the `CHILD` bit and no other. A free collaborator's value is any value, and so is what the read leaves in
its own registers and in its own bits of `REG_CHANGED` (R93; log 11). -/
def Obligations.RegReadResult : Prop :=
  ∀ (reg : BitVec 6) (s : State) (nd : Node), s.serving nd →
    ∃ t nd' v, exec (.regRead reg) s = .next t ∧ s.onlyNode t s.cur nd' ∧
      Published nd.ppe nd'.ppe [statusByte 0 [v], v] ∧
      (reg = nd.par.regMagic → v = nd.par.magicValue) ∧
      (reg ≠ nd.par.regMagic → nd.quiet reg → v = nd.reg reg) ∧
      (∀ r, (nd.par.coreOwned r = true ∧ r ≠ 0) ∨ nd.quiet reg →
        nd'.reg r = if reg ≠ nd.par.regMagic ∧ reg = 0 ∧ r = 0 then nd.reg 0 &&& ~~~nd.par.childMask else nd.reg r) ∧
      (reg ≠ 0 → nd'.reg 0 &&& nd.par.childMask = nd.reg 0 &&& nd.par.childMask)

/-- Frame of the register read (R182, R187, R32, R38, R93): configuration, latches, HFE and every byte outside working storage
are unchanged; core registers but `REG_CHANGED` are unchanged, and of `REG_CHANGED` the `CHILD` bit unless it is read. Where
no free collaborator runs, working storage, every register but `REG_CHANGED`, it too unless it is read, and `notifyPending`
are unchanged; where one runs, a bit of `REG_CHANGED` that rises sets `notifyPending`. -/
def Obligations.RegReadFrame : Prop :=
  ∀ (reg : BitVec 6) (s t : State) (nd : Node), s.nodes[s.cur]? = some nd → exec (.regRead reg) s = .next t →
    ∃ nd', s.onlyNode t s.cur nd' ∧ nd.sameRest nd' ∧ nd'.rebootReq = nd.rebootReq ∧ nd'.hfe = nd.hfe ∧
      nd.sideEffects nd' reg ∧
      (∀ r, r ≠ 0 → nd.par.coreOwned r = true ∨ nd.quiet reg → nd'.reg r = nd.reg r) ∧
      (reg ≠ 0 → nd'.reg 0 &&& nd.par.childMask = nd.reg 0 &&& nd.par.childMask ∧ (nd.quiet reg → nd'.reg 0 = nd.reg 0))

/-- R183, R188: a register write completes with `[0x50]`; the register holds the value, but `REG_CHANGED` and `REG_MAGIC`
discard it; `REG_CTRL` requests a reboot, a switch or a resurrection. Under the parameter constraints of R13. What the write
leaves in a free collaborator's registers and in its own bits of `REG_CHANGED` is any value (R32; log 11). -/
def Obligations.RegWriteResult : Prop :=
  ∀ (reg : BitVec 6) (value : Byte) (s : State) (nd : Node), s.serving nd → nd.par.wf = true →
    ∃ t nd', exec (.regWrite reg value) s = .next t ∧ s.onlyNode t s.cur nd' ∧ Published nd.ppe nd'.ppe [0x50] ∧
      (∀ r, (nd.par.coreOwned r = true ∧ r ≠ 0) ∨ nd.quiet reg →
        nd'.reg r = if r = reg ∧ reg ≠ 0 ∧ reg ≠ nd.par.regMagic then value else nd.reg r) ∧
      nd'.reg 0 &&& nd.par.childMask = nd.reg 0 &&& nd.par.childMask ∧
      nd'.rebootReq = (if reg = nd.par.regCtrl ∧ value = nd.par.ctrlSwitch then .switch
        else if reg = nd.par.regCtrl ∧ value = nd.par.ctrlReboot then .keep else nd.rebootReq) ∧
      (nd'.hfe.resurrectReq = true ↔ nd.hfe.resurrectReq = true ∨
        reg = nd.par.regCtrl ∧ value = nd.par.ctrlResurrect ∧ nd.hubCapable = true)

/-- Frame of the register write (R183, R188, R32, R38, R93): as for the read, but the written register may change, and a write
of `REG_CTRL` may set a request; the `CHILD` bit is unchanged. -/
def Obligations.RegWriteFrame : Prop :=
  ∀ (reg : BitVec 6) (value : Byte) (s t : State) (nd : Node), s.nodes[s.cur]? = some nd →
    exec (.regWrite reg value) s = .next t →
    ∃ nd', s.onlyNode t s.cur nd' ∧ nd.sameRest nd' ∧ nd.sideEffects nd' reg ∧
      nd'.hfe = { nd.hfe with resurrectReq := nd'.hfe.resurrectReq } ∧
      (reg ≠ nd.par.regCtrl → nd'.rebootReq = nd.rebootReq ∧ nd'.hfe = nd.hfe) ∧
      (∀ r, r ≠ reg → (nd.par.coreOwned r = true ∧ r ≠ 0) ∨ nd.quiet reg → nd'.reg r = nd.reg r) ∧
      nd'.reg 0 &&& nd.par.childMask = nd.reg 0 &&& nd.par.childMask ∧
      (reg = 0 ∨ reg = nd.par.regMagic → nd'.regs = nd.regs)

/-- R184, R84: a memory read completes; an unmapped block is answered `illegal`, any other with its 16 bytes and their
check byte (any bytes for a pending program block); nothing but the reply changes in the node. -/
def Obligations.MemReadResult : Prop :=
  ∀ (blk : BitVec 12) (s : State) (nd : Node), s.serving nd →
    ∃ t nd', exec (.memRead blk) s = .next t ∧ s.onlyNode t s.cur nd' ∧ nd' = { nd with ppe := nd'.ppe } ∧
      (nd.par.region blk.toNat = .unmapped → Published nd.ppe nd'.ppe [0xA5]) ∧
      (nd.par.region blk.toNat ≠ .unmapped → ∃ data, data.length = 16 ∧
        Published nd.ppe nd'.ppe (statusByte 0 (data ++ [checksum8 data]) :: (data ++ [checksum8 data])) ∧
        (¬ (nd.par.region blk.toNat = .prog ∧ blk.toNat ∈ nd.progPending) →
          ∀ i, i < 16 → data.getD i 0 = nd.readByte (16 * blk.toNat + i)))

/-- R185, R85, R86: a memory write to an unmapped block is answered `illegal`; one to the identity region, to locked
program storage, to a protected block or to the executing half `forbidden`; nothing but the reply changes. -/
def Obligations.MemWriteForbidden : Prop :=
  ∀ (blk : BitVec 12) (data : List Byte) (s : State) (nd : Node), s.serving nd →
    (nd.par.region blk.toNat = .unmapped →
      ∃ t nd', exec (.memWrite blk data) s = .next t ∧ s.onlyNode t s.cur nd' ∧ nd' = { nd with ppe := nd'.ppe } ∧
        Published nd.ppe nd'.ppe [0xA5]) ∧
    (nd.par.region blk.toNat = .ident ∨ nd.par.region blk.toNat = .prog ∧
        (nd.reg nd.par.regUnlock ≠ nd.par.unlockKey ∨ nd.par.isProtected blk.toNat = true ∨
          nd.par.halfOf blk.toNat = nd.execHalf) →
      ∃ t nd', exec (.memWrite blk data) s = .next t ∧ s.onlyNode t s.cur nd' ∧ nd' = { nd with ppe := nd'.ppe } ∧
        Published nd.ppe nd'.ppe [0xF6])

/-- R185, R85, R83, R88, R89: a memory write to working storage or to the configuration region completes with `[0x50]`;
the block's 16 bytes read as written, every other byte as before; the running configuration and the rest are unchanged. -/
def Obligations.MemWriteStores : Prop :=
  ∀ (blk : BitVec 12) (data : List Byte) (s : State) (nd : Node), s.serving nd → data.length = 16 →
    nd.par.region blk.toNat = .ram ∨ nd.par.region blk.toNat = .config →
    ∃ t nd', exec (.memWrite blk data) s = .next t ∧ s.onlyNode t s.cur nd' ∧ Published nd.ppe nd'.ppe [0x50] ∧
      nd' = { nd with ppe := nd'.ppe, mem := nd'.mem } ∧
      (∀ i, i < 16 → nd'.readByte (16 * blk.toNat + i) = data.getD i 0) ∧
      (∀ a, a < 16 * blk.toNat ∨ 16 * blk.toNat + 16 ≤ a → nd'.readByte a = nd.readByte a)

/-- R87, R85, R86: a permitted write of a program block completes with `[0x50]`. While a block of its page is missing,
the block is pending, its bytes are buffered, the bytes buffered for other blocks are kept, and no byte of memory changes;
once every block of the page is there, each takes its bytes, none is pending any more, and every other byte is as before, a
buffered one of another page among them. That a page is its program blocks is the model's reading (log 16). -/
def Obligations.ProgramPageBatching : Prop :=
  ∀ (blk : BitVec 12) (data : List Byte) (s : State) (nd : Node), s.serving nd → data.length = 16 → nd.par.wf = true →
    nd.par.region blk.toNat = .prog → nd.reg nd.par.regUnlock = nd.par.unlockKey →
    nd.par.isProtected blk.toNat = false → nd.par.halfOf blk.toNat ≠ nd.execHalf →
    ∃ t nd', exec (.memWrite blk data) s = .next t ∧ s.onlyNode t s.cur nd' ∧ Published nd.ppe nd'.ppe [0x50] ∧
      nd' = { nd with ppe := nd'.ppe, mem := nd'.mem, progPending := nd'.progPending, progBuf := nd'.progBuf } ∧
      ((∃ b, nd.par.samePage blk.toNat b ∧ b ≠ blk.toNat ∧ b ∉ nd.progPending) →
        (∀ a, nd'.readByte a = nd.readByte a) ∧
        (∀ b, b ∈ nd'.progPending ↔ b = blk.toNat ∨ b ∈ nd.progPending) ∧
        (∀ i, i < 16 → nd'.progBuf.read? (16 * blk.toNat + i) = some (data.getD i 0)) ∧
        (∀ a, a / 16 ≠ blk.toNat → nd'.progBuf.read? a = nd.progBuf.read? a)) ∧
      ((∀ b, nd.par.samePage blk.toNat b → b = blk.toNat ∨ b ∈ nd.progPending) →
        (∀ b, nd.par.samePage blk.toNat b → b ∉ nd'.progPending) ∧
        (∀ b, ¬ nd.par.samePage blk.toNat b → (b ∈ nd'.progPending ↔ b ∈ nd.progPending)) ∧
        (∀ i, i < 16 → nd'.readByte (16 * blk.toNat + i) = data.getD i 0) ∧
        (∀ b i v, nd.par.samePage blk.toNat b → b ≠ blk.toNat → i < 16 → nd.progBuf.read? (16 * b + i) = some v →
          nd'.readByte (16 * b + i) = v) ∧
        (∀ a, ¬ nd.par.samePage blk.toNat (a / 16) →
          nd'.readByte a = nd.readByte a ∧ nd'.progBuf.read? a = nd.progBuf.read? a))

/-- R186: every reserved request is answered `[0xA5]`, and nothing but the reply changes. -/
def Obligations.ReservedAnswersIllegal : Prop :=
  ∀ (low : BitVec 4) (lo : Byte) (data : List Byte) (s : State) (nd : Node), s.serving nd →
    ∀ i ∈ [Instr.rsvA0 low lo, .rsvB0 low lo data, .rsvC0 low lo, .rsvD0 low lo data, .rsvE0 low lo, .rsvF0 low lo data],
      ∃ t nd', exec i s = .next t ∧ s.onlyNode t s.cur nd' ∧ nd' = { nd with ppe := nd'.ppe } ∧
        Published nd.ppe nd'.ppe [0xA5]

/-- R290, R159: `commit` publishes the packaged reply, answers the request and resumes a stalled read; a second commit and
a length outside 1..18 are its faults. -/
def Obligations.CommitPublishes : Prop :=
  ∀ (nd : Node) (rep : List Byte),
    (nd.ppe.repFinal = true ∨ nd.ppe.repLen ≠ 0 → nd.commit rep = .error .commitTwice) ∧
    (nd.ppe.repFinal = false → nd.ppe.repLen = 0 → rep.length = 0 ∨ 18 < rep.length →
      nd.commit rep = .error .packageLength) ∧
    (nd.ppe.repFinal = false → nd.ppe.repLen = 0 → 1 ≤ rep.length → rep.length ≤ 18 →
      ∃ (bytes : List Byte) (mid : Node), packageReply rep = some bytes ∧ bytes.length = rep.length ∧ nd.commit rep = .ok mid.resume ∧
        mid = { nd with ppe := { nd.ppe with
          rep := mid.ppe.rep, repLen := bytes.length, repFinal := true, reqSt := .answered } } ∧
        mid.ppe.repBytes = bytes)

/-! ### The peripheral protocol engine (43_peripheral_engine.md) -/

/-- R264, R273: a written byte is appended while the request is incomplete, which is complete once it has the size of its
opcode, and is discarded afterwards; the node acknowledges in both cases. -/
def Obligations.WrittenByteAccumulates : Prop :=
  ∀ (nd : Node) (b : Byte), nd.ppe.r54 = true → nd.ppe.st = .receiving →
    (nd.edge (.wbyte b)).ppe.st = .receivingAcknowledge ∧
    (nd.ppe.reqSt ≠ .accumulating → nd.edge (.wbyte b) = { nd with ppe := { nd.ppe with st := .receivingAcknowledge } }) ∧
    (nd.ppe.reqSt = .accumulating →
      (nd.edge (.wbyte b)).ppe.reqBytes = nd.ppe.reqBytes ++ [b] ∧
      (nd.edge (.wbyte b)).ppe.reqLen = nd.ppe.reqLen + 1 ∧ nd.ppe.reqLen + 1 ≤ 19 ∧
      ((nd.edge (.wbyte b)).ppe.reqSt = .unchecked ↔
        1 ≤ nd.ppe.reqLen ∧ nd.ppe.reqLen + 1 = requestSize ((nd.ppe.reqBytes ++ [b]).getD 1 0)) ∧
      (nd.edge (.wbyte b)).ppe.repBytes = nd.ppe.repBytes ∧ (nd.edge (.wbyte b)).ppe.cycAddr = nd.ppe.cycAddr)

/-- R265: the next output byte is the next reply byte, the filler after a final reply, the default error reply for an
incomplete request of the node's own cycle, or there is none and the node stalls. -/
def Obligations.NextOutputByte : Prop :=
  ∀ nd : Node,
    (nd.ppe.repPos < nd.ppe.repLen → nd.ppe.repLen ≤ 18 →
      nd.loadNext = { nd with ppe := { nd.ppe with
        shift := nd.ppe.repBytes.getD nd.ppe.repPos 0, repPos := nd.ppe.repPos + 1, st := .sending } }) ∧
    (nd.ppe.repLen ≤ nd.ppe.repPos → nd.ppe.repFinal = true →
      nd.loadNext = { nd with ppe := { nd.ppe with shift := 0xFF, st := .sending } }) ∧
    (nd.ppe.repLen = 0 → nd.ppe.repFinal = false → nd.ppe.reqSt = .accumulating → nd.childCycle = false →
      nd.loadNext = { nd with ppe := { nd.ppe with
        rep := nd.loadNext.ppe.rep, repLen := 1, repFinal := true, reqSt := .answered
        shift := 0x61, repPos := 1, st := .sending } } ∧
      nd.loadNext.ppe.repBytes = [0x61]) ∧
    (nd.ppe.repLen ≤ nd.ppe.repPos → nd.ppe.repFinal = false →
      (nd.ppe.repLen ≠ 0 ∨ nd.ppe.reqSt ≠ .accumulating ∨ nd.childCycle = true) →
      nd.loadNext = { nd with ppe := { nd.ppe with st := .sendingStalled } })

/-- R269, R270, R271, R272: the address phase at a node in `Addressing`. -/
def Obligations.AddressPhase : Prop :=
  ∀ (nd : Node) (a : BitVec 7) (rw : Bool), nd.ppe.st = .addressing →
    (nd.matches a = false → nd.edge (.addr a rw) = { nd with ppe := { nd.ppe with st := .idle } }) ∧
    (nd.matches a = true →
      (nd.edge (.addr a rw)).ppe.st = .receivingAcknowledge ∧ (nd.edge (.addr a rw)).ppe.dir = rw ∧
      (nd.edge (.addr a rw)).ppe.cycAddr = (if nd.ppe.cycAddr = none then some a else nd.ppe.cycAddr) ∧
      (rw = true → (nd.edge (.addr a rw)).ppe.repPos = 0 ∧ (nd.edge (.addr a rw)).ppe.readSeen = true) ∧
      (rw = false → (nd.edge (.addr a rw)).ppe.repPos = nd.ppe.repPos ∧
        (nd.edge (.addr a rw)).ppe.readSeen = nd.ppe.readSeen) ∧
      (nd.edge (.addr a rw)).edge .ackEnd =
        (if rw then (nd.edge (.addr a rw)).loadNext
         else { (nd.edge (.addr a rw)) with ppe := { (nd.edge (.addr a rw)).ppe with st := .receiving } }))

/-- R266, R281, R263: a start, also one that abandons a notification pulse, keeps an undrained cycle and clears a drained
one; `notifyPending` is unchanged. -/
def Obligations.StartKeepsUndrainedCycle : Prop :=
  ∀ nd : Node, nd.ppe.st ∈ [PpeState.idle, .startDetected, .addressing, .receiving, .sending, .notifying] →
    (nd.ppe.drained = false →
      nd.edge .start = { nd with ppe := { nd.ppe with busBusy := true, st := .startDetected } }) ∧
    (nd.ppe.drained = true →
      (nd.edge .start).ppe.st = .startDetected ∧ (nd.edge .start).ppe.busBusy = true ∧
      (nd.edge .start).ppe.reqLen = 0 ∧ (nd.edge .start).ppe.reqSt = .accumulating ∧ (nd.edge .start).ppe.repLen = 0 ∧
      (nd.edge .start).ppe.repPos = 0 ∧ (nd.edge .start).ppe.repFinal = false ∧ (nd.edge .start).ppe.drained = false ∧
      (nd.edge .start).ppe.readSeen = false ∧ (nd.edge .start).ppe.cycAddr = none ∧
      (nd.edge .start).hfe = { nd.hfe with fwdStarted := false }) ∧
    (nd.edge .start).notifyPending = nd.notifyPending

/-- R274 to R277: a read byte and the controller's acknowledge. The reply is drained exactly when it is final, every byte
was loaded and the controller wants no more. -/
def Obligations.ReadAcknowledgeDrains : Prop :=
  ∀ (nd : Node) (k : Bool), nd.ppe.st = .sending →
    ((nd.edge .rbyte).edge (.mack k)).ppe.st = .sendingCheckAcknowledge ∧
    ((nd.edge .rbyte).edge (.mack k)).ppe.lastMack = k ∧
    (k = true → ((nd.edge .rbyte).edge (.mack k)).edge .ackEnd = ((nd.edge .rbyte).edge (.mack k)).loadNext) ∧
    (k = false →
      (((nd.edge .rbyte).edge (.mack k)).edge .ackEnd).ppe.st = .idle ∧
      ((((nd.edge .rbyte).edge (.mack k)).edge .ackEnd).ppe.drained = true ↔
        nd.ppe.drained = true ∨ nd.ppe.repFinal = true ∧ nd.ppe.repLen ≤ nd.ppe.repPos) ∧
      (((nd.edge .rbyte).edge (.mack k)).edge .ackEnd).ppe.repBytes = nd.ppe.repBytes)

/-- R267, R280: a stop ends the transaction and nothing else, in every state that can receive it; in `Idle` every event
but a start and a stop leaves the node as it is. -/
def Obligations.StopAndIgnoredEvents : Prop :=
  ∀ nd : Node,
    (nd.ppe.st ∈ [PpeState.idle, .startDetected, .addressing, .receiving, .sending] →
      nd.edge .stop = { nd with ppe := { nd.ppe with busBusy := false, st := .idle } }) ∧
    (nd.ppe.st = .idle → ∀ e, e ≠ .start → e ≠ .stop → nd.edge e = nd)

/-- R283, R263: the clear step of a drained node empties both buffers together and ends the cycle. -/
def Obligations.ClearStepEndsCycle : Prop :=
  ∀ (s : State) (i : Nat) (nd : Node), s.r54 = true → s.nextAction = some (.coop i .clear) → s.nodes[i]? = some nd →
    nd.ppe.drained = true →
    ∃ t nd', step s = .next t ∧ s.advance.onlyNode t i nd' ∧
      nd' = { nd with
        hfe := { nd.hfe with fwdStarted := false }
        ppe := { nd.ppe with
          reqLen := 0, reqSt := .accumulating, repLen := 0, repPos := 0, repFinal := false
          drained := false, readSeen := false, cycAddr := none } }

/-- R284, R158: the validate step makes a request with a right check byte valid, and answers any other `[0x03]` at once;
it does nothing to a request that is not complete and unchecked, or that is a child's: that such a step is a used-up no-op
is the model's choice (log 3, DEDUCED). -/
def Obligations.ValidateStepChecks : Prop :=
  ∀ (s : State) (i : Nat) (nd : Node), s.r54 = true → s.nextAction = some (.coop i .validate) → s.nodes[i]? = some nd →
    (nd.ppe.reqSt = .unchecked → nd.childCycle = false → nd.ppe.repLen = 0 →
      ∃ t nd', step s = .next t ∧ s.advance.onlyNode t i nd' ∧ nd' = { nd with ppe := nd'.ppe } ∧
        (nd.ppe.reqBytes.headD 0 = checksum8 (nd.ppe.reqBytes.drop 1) → nd'.ppe = { nd.ppe with reqSt := .valid }) ∧
        (nd.ppe.reqBytes.headD 0 ≠ checksum8 (nd.ppe.reqBytes.drop 1) → Published nd.ppe nd'.ppe [0x03])) ∧
    (nd.ppe.reqSt ≠ .unchecked ∨ nd.childCycle = true → step s = .next s.advance)

/-- R291, R292: `commitPartial` appends the bytes unpackaged and resumes a stalled read; past 18 bytes or after a final
reply it overflows. -/
def Obligations.CommitPartialAppends : Prop :=
  ∀ (nd : Node) (bytes : List Byte) (isFinal : Bool),
    (nd.ppe.repFinal = true ∨ 18 < nd.ppe.repLen + bytes.length → nd.commitPartial bytes isFinal = .error .commitOverflow) ∧
    (nd.ppe.repFinal = false → nd.ppe.repLen + bytes.length ≤ 18 →
      ∃ mid : Node, nd.commitPartial bytes isFinal = .ok mid.resume ∧
        mid = { nd with ppe := { nd.ppe with
          rep := mid.ppe.rep, repLen := nd.ppe.repLen + bytes.length, repFinal := isFinal
          reqSt := if isFinal then .answered else nd.ppe.reqSt } } ∧
        mid.ppe.repBytes = nd.ppe.repBytes ++ bytes ∧
        mid.resume = if nd.ppe.st = .sendingStalled then mid.loadNext else mid)

/-- R293, R102, R294: no step changes an answered, undrained reply, nor the request it answers, but a reset of the node. -/
def Obligations.AnsweredReplyIsStable : Prop :=
  ∀ (s t : State) (i : Nat) (nd : Node), s.nodes[i]? = some nd → nd.ppe.repFinal = true → nd.ppe.drained = false →
    Action.isReset s.nextAction = false → step s = .next t →
    ∃ nd', t.nodes[i]? = some nd' ∧ nd'.ppe.repBytes = nd.ppe.repBytes ∧ nd'.ppe.repFinal = true ∧
      nd'.ppe.reqSt = .answered ∧ nd'.ppe.reqBytes = nd.ppe.reqBytes

/-- R38: whatever step raises a bit of `REG_CHANGED` leaves `notifyPending` set. -/
def Obligations.RaisedChangedBitNotifies : Prop :=
  ∀ (s t : State) (i k : Nat) (nd nd' : Node), step s = .next t → s.nodes[i]? = some nd → t.nodes[i]? = some nd' →
    nd.regs[0].getLsbD k = false → nd'.regs[0].getLsbD k = true → nd'.notifyPending = true

/-! ### The bus (42_bus.md) -/

/-- R226, R279: while the primary segment is held, the host's event does not occur; that the action is then used up is the
model's choice (log 3, DEDUCED). R222, R227: on a primary segment that is not held, an event the grammar allows occurs:
every primary target takes its edge handler in the same step, the segment moves on, the combined response goes to the host
(its record is the model's, log 22), and nothing else changes. -/
def Obligations.HeldSegmentBlocksHost : Prop :=
  (∀ (s : State) (e : BusEvent) (nd : Node), s.r54 = true → s.nextAction = some (.host e) → nd ∈ s.nodes →
    nd.seg = .primary → nd.ppe.st = .sendingStalled → step s = .next s.advance) ∧
  (∀ (s : State) (e : BusEvent) (p : BusPhase), s.coherent = true → s.nextAction = some (.host e) →
    s.held .primary = false → s.primary.next e = some p →
    step s = .next { s.advance with
      nodes := s.nodes.map fun nd => if nd.seg = .primary then nd.edge e else nd
      primary := p
      hostLog := (s.response .primary e).toList ++ s.hostLog })

/-- R228, R229: an event the grammar does not allow at this point is `refuse(busGrammar)`, for the controller of every
segment, and for the host's step. -/
def Obligations.EventOutsideGrammarRefused : Prop :=
  (∀ (s : State) (k : SegId) (e : BusEvent), (s.phase k).next e = none → s.emit k e = .error (.refused .busGrammar)) ∧
  ∀ (s : State) (e : BusEvent), s.r54 = true → s.nextAction = some (.host e) → s.held .primary = false →
    s.primary.next e = none → step s = .refused .busGrammar

/-- R223, R224, R225: acknowledges are the OR over the targets, a read byte the AND of the bytes driven, 0xFF undriven.
R222: the event of any segment's controller is one joint transition: each target takes its edge handler, the segment moves
on, nothing else changes, and the controller receives that response. -/
def Obligations.CombinedResponses : Prop :=
  (∀ (s : State) (k : SegId) (a : BitVec 7) (rw : Bool) (b : Byte),
    (∃ ack, s.response k (.addr a rw) = some (.addrAck ack) ∧
      (ack = true ↔ ∃ nd ∈ s.nodes, nd.seg = k ∧ nd.ppe.st = .addressing ∧ nd.matches a = true)) ∧
    (∃ ack, s.response k (.wbyte b) = some (.dataAck ack) ∧
      (ack = true ↔ ∃ nd ∈ s.nodes, nd.seg = k ∧ nd.ppe.st = .receiving)) ∧
    (∃ v : Byte, s.response k .rbyte = some (.byte v) ∧
      ∀ j, j < 8 → (v.getLsbD j = true ↔
        ∀ nd ∈ s.nodes, nd.seg = k → nd.ppe.st = .sending → nd.ppe.shift.getLsbD j = true))) ∧
  (∀ (s : State) (k : SegId) (e : BusEvent) (p : BusPhase), (s.phase k).next e = some p →
    (∀ nd ∈ s.nodes, nd.seg = k → edgeApplies nd.ppe.st e = true) → (∀ h, k = .sub h → h < s.nodes.length) →
    ∃ t, s.emit k e = .ok (t, s.response k e) ∧ t.phase k = p ∧ t.hostLog = s.hostLog ∧ t.agenda = s.agenda ∧
      t.tick = s.tick ∧ t.draws = s.draws ∧ t.cur = s.cur ∧ (k ≠ .primary → t.primary = s.primary) ∧
      t.nodes.length = s.nodes.length ∧
      ∀ (j : Nat) (nd : Node), s.nodes[j]? = some nd → ∃ nd' : Node, t.nodes[j]? = some nd' ∧
        nd' = { (if nd.seg = k then nd.edge e else nd) with sec := nd'.sec } ∧ (k ≠ .sub j → nd'.sec = nd.sec))

/-- R286, R234, R326, R285: a notification pulse ends with the segment's controller, and nobody else, having seen it (the
hub's `notifySeen`, or the host's record, log 22), and the latch cleared; the notify-begin step makes a pending node
`Notifying`. That the end waits for an idle segment that is not held is the model's reading (log 23), that a
drained node begins too and stays drained its reading of R285 beside R278 (log 24), and that a step that is not enabled is
used up its choice (log 3); all three are DEDUCED. -/
def Obligations.NotifyReachesHub : Prop :=
  (∀ (s : State) (i h : Nat) (nd hb : Node), s.r54 = true → s.nextAction = some (.coop i .notifyEnd) →
    s.nodes[i]? = some nd → nd.seg = .sub h → h ≠ i → s.nodes[h]? = some hb → nd.ppe.st = .notifying →
    hb.sec = .idle → s.held (.sub h) = false →
    step s = .next { s.advance with
      nodes := (s.nodes.set i { nd with notifyPending := false, ppe := { nd.ppe with st := .idle } }).set h
        { hb with hfe := { hb.hfe with notifySeen := true } } }) ∧
  (∀ (s : State) (i : Nat) (nd : Node), s.r54 = true → s.nextAction = some (.coop i .notifyEnd) →
    s.nodes[i]? = some nd → nd.seg = .primary → nd.ppe.st = .notifying → s.primary = .idle → s.held .primary = false →
    step s = .next { s.advance with
      nodes := s.nodes.set i { nd with notifyPending := false, ppe := { nd.ppe with st := .idle } }
      hostLog := .notify :: s.hostLog }) ∧
  (∀ (s : State) (i : Nat) (nd : Node), s.r54 = true → s.nextAction = some (.coop i .notifyBegin) →
    s.nodes[i]? = some nd →
    (nd.notifyPending = true → nd.ppe.st = .idle → nd.ppe.busBusy = false → s.held nd.seg = false →
      step s = .next { s.advance with nodes := s.nodes.set i { nd with ppe := { nd.ppe with st := .notifying } } }) ∧
    (nd.notifyPending = false ∨ nd.ppe.st ≠ .idle ∨ nd.ppe.busBusy = true ∨ s.held nd.seg = true →
      step s = .next s.advance))

/-! ### The hub forwarding engine (44_hub_forwarding.md) -/

/-- R324, R322, R323: an open step on a locked secondary segment answers `[0xE8]` and starts no transaction. R343: during a
resurrection the no-bus step answers a waiting child cycle the same. -/
def Obligations.LockedSegmentAnswersNoBus : Prop :=
  (∀ (s : State) (h : Nat) (envLocked : Bool) (nd : Node), s.r54 = true →
    s.nextAction = some (.hub h (.openTx envLocked)) → s.nodes[h]? = some nd → nd.openEnabled = true →
    nd.ppe.repFinal = false → nd.ppe.repLen = 0 → s.secLocked h envLocked = true →
    ∃ t nd', step s = .next t ∧ s.advance.onlyNode t h nd' ∧ Published nd.ppe nd'.ppe [0xE8] ∧
      nd' = { nd with ppe := nd'.ppe, hfe := { nd.hfe with fwdStarted := true } }) ∧
  (∀ (s : State) (h : Nat) (nd : Node), s.r54 = true → s.nextAction = some (.hub h .noBus) → s.nodes[h]? = some nd →
    nd.hfe.st = .resurrection → nd.childCycle = true → nd.hfe.fwdStarted = false →
    1 ≤ nd.ppe.reqLen ∨ nd.ppe.readSeen = true → nd.ppe.repFinal = false → nd.ppe.repLen = 0 →
    ∃ t nd', step s = .next t ∧ s.advance.onlyNode t h nd' ∧ Published nd.ppe nd'.ppe [0xE8] ∧
      nd' = { nd with ppe := nd'.ppe, hfe := { nd.hfe with fwdStarted := true } })

/-- R325, R323: when no child acknowledges its address, the hub closes the transaction and answers `[0xC7]`. -/
def Obligations.AbsentChildAnswersNoDevice : Prop :=
  ∀ (s : State) (h : Nat) (nd : Node) (c : BitVec 7), s.coherent = true →
    s.nextAction = some (.hub h (.openTx false)) → s.nodes[h]? = some nd → nd.openEnabled = true →
    nd.ppe.cycAddr = some c → s.secLocked h false = false →
    (∀ m ∈ s.nodes, m.seg = .sub h → m.matches c = false) →
    ∃ t nd', step s = .next t ∧ t.nodes[h]? = some nd' ∧ Published nd.ppe nd'.ppe [0xC7] ∧
      nd' = { nd with ppe := nd'.ppe, hfe := { nd.hfe with fwdStarted := true } }

/-- R323: when a child acknowledges, the open step opens a write transaction to it and starts forwarding. -/
def Obligations.OpenStepStartsForwarding : Prop :=
  ∀ (s : State) (h : Nat) (nd m : Node) (c : BitVec 7), s.coherent = true →
    s.nextAction = some (.hub h (.openTx false)) → s.nodes[h]? = some nd → nd.openEnabled = true →
    nd.ppe.cycAddr = some c → s.secLocked h false = false → m ∈ s.nodes → m.seg = .sub h → m.matches c = true →
    ∃ t nd', step s = .next t ∧ t.nodes[h]? = some nd' ∧
      nd' = { nd with hfe := { nd.hfe with fwdStarted := true, fwdPos := 0, st := .requestForwarding }, sec := .writeData } ∧
      ∀ (j : Nat) (x : Node), s.nodes[j]? = some x → x.seg = .sub h →
        ∃ y : Node, t.nodes[j]? = some y ∧ y.ppe.st = (if x.matches c = true then .receiving else .idle)

/-- R329, R330, R321: the forward step writes the next request byte to the children, unchanged; the hub's own buffers
stay as they are, or hold `[0xC7]` when no child takes the byte. That the step waits while the segment is held is the
model's reading (log 25, DEDUCED). -/
def Obligations.ForwardStepPassesByte : Prop :=
  ∀ (s : State) (h : Nat) (nd : Node), s.coherent = true → s.nextAction = some (.hub h .forward) → s.nodes[h]? = some nd →
    nd.hfe.st = .requestForwarding → nd.hfe.fwdPos < nd.ppe.reqLen → s.held (.sub h) = false →
    ∃ t nd', step s = .next t ∧ t.nodes[h]? = some nd' ∧
      ((∃ m ∈ s.nodes, m.seg = .sub h ∧ m.ppe.st = .receiving) →
        nd' = { nd with hfe := { nd.hfe with fwdPos := nd.hfe.fwdPos + 1 } } ∧
        ∀ (j : Nat) (x : Node), s.nodes[j]? = some x → x.seg = .sub h →
          t.nodes[j]? = some ((x.edge (.wbyte (nd.ppe.reqBytes.getD nd.hfe.fwdPos 0))).edge .ackEnd)) ∧
      ((∀ m ∈ s.nodes, m.seg = .sub h → m.ppe.st ≠ .receiving) →
        Published nd.ppe nd'.ppe [0xC7] ∧ nd'.hfe.st = .idle ∧ nd'.sec = .idle)

/-- R331, R332: with every request byte forwarded and the host reading, the turn-around step opens a read of as many bytes
as the opcode's `ok` reply has (one byte without an opcode), or answers `[0xC7]` when no child acknowledges. That the step
waits while the segment is held is the model's reading (log 25, DEDUCED). -/
def Obligations.TurnAroundOpensReply : Prop :=
  ∀ (s : State) (h : Nat) (nd : Node) (c : BitVec 7), s.coherent = true → s.nextAction = some (.hub h .turnAround) →
    s.nodes[h]? = some nd → nd.hfe.st = .requestForwarding → nd.hfe.fwdPos = nd.ppe.reqLen → nd.ppe.readSeen = true →
    nd.ppe.cycAddr = some c → s.held (.sub h) = false →
    ∃ t nd', step s = .next t ∧ t.nodes[h]? = some nd' ∧
      ((∃ m ∈ s.nodes, m.seg = .sub h ∧ m.matches c = true) →
        nd' = { nd with sec := .readData, hfe := { nd.hfe with
          rdNeed := if 2 ≤ nd.hfe.fwdPos then replySize (nd.ppe.reqBytes.getD 1 0) else 1
          rdPos := 0, st := .replyForwarding } }) ∧
      ((∀ m ∈ s.nodes, m.seg = .sub h → m.matches c = false) →
        Published nd.ppe nd'.ppe [0xC7] ∧ nd'.hfe.st = .idle ∧ nd'.sec = .idle)

/-- R334, R335, R342: the copy step appends the byte read from the segment to the hub's reply, unchanged, and acknowledges
it, with ACK for every byte but the last and with NACK for the last; the last byte makes the reply final, closes the
transaction with STOP and ends the forwarding. A stalled read of the hub is resumed; nothing else of the hub or of another
segment changes. That the step waits while the segment is held is the model's reading (log 25, DEDUCED). -/
def Obligations.CopyStepPassesByte : Prop :=
  ∀ (s : State) (h : Nat) (nd : Node) (b : Byte) (last : Bool), s.coherent = true → s.nextAction = some (.hub h .copy) →
    s.nodes[h]? = some nd → nd.hfe.st = .replyForwarding → s.held (.sub h) = false →
    s.response (.sub h) .rbyte = some (.byte b) → last = decide (nd.hfe.rdPos + 1 = nd.hfe.rdNeed) →
    ∃ (t : State) (nd' mid : Node), step s = .next t ∧ t.nodes[h]? = some nd' ∧ nd' = mid.resume ∧
      mid = { nd with
        ppe := { nd.ppe with
          rep := mid.ppe.rep, repLen := nd.ppe.repLen + 1, repFinal := last
          reqSt := if last then .answered else nd.ppe.reqSt }
        hfe := { nd.hfe with rdPos := nd.hfe.rdPos + 1, st := if last then .idle else .replyForwarding }
        sec := if last then .idle else .readData } ∧
      mid.ppe.repBytes = nd.ppe.repBytes ++ [b] ∧ t.nodes.length = s.nodes.length ∧
      ∀ (j : Nat) (x : Node), j ≠ h → s.nodes[j]? = some x → t.nodes[j]? = some
        (if x.seg = .sub h then
          if last then (((x.edge .rbyte).edge (.mack false)).edge .ackEnd).edge .stop
          else ((x.edge .rbyte).edge (.mack true)).edge .ackEnd
        else x)

/-- R328, R38: the `Notified` state sets the hub's `CHILD` bit, and `notifyPending` if the bit was 0. R327, R326: the
resurrection step of an `Idle` hub holds its segment, and its notified step makes it `Notified`. R339: a pending resurrection
keeps the notified and open steps from being taken, a seen notification the open step; that a step so kept from being taken
leaves the network as it is, is the model's choice (log 3, DEDUCED). -/
def Obligations.NotifiedStateRaisesChild : Prop :=
  (∀ (s : State) (h : Nat) (nd : Node), s.r54 = true → s.nextAction = some (.hub h .flag) → s.nodes[h]? = some nd →
    nd.hubCapable = true → nd.hfe.st = .notified →
    ∃ t nd', step s = .next t ∧ s.advance.onlyNode t h nd' ∧ nd'.ppe = nd.ppe ∧
      nd'.hfe = { nd.hfe with notifySeen := false, st := .idle } ∧
      (∀ j, j < 8 → nd'.regs[0].getLsbD j = (nd.regs[0].getLsbD j || j == nd.par.changedChildBit.toNat)) ∧
      (nd'.notifyPending = true ↔
        nd.notifyPending = true ∨ nd.regs[0].getLsbD nd.par.changedChildBit.toNat = false) ∧
      ∀ r, r ≠ 0 → nd'.reg r = nd.reg r) ∧
  (∀ (s : State) (h : Nat) (nd : Node), s.r54 = true → s.nodes[h]? = some nd → nd.hubCapable = true → nd.hfe.st = .idle →
    (s.nextAction = some (.hub h .resurrect) → nd.hfe.resurrectReq = true →
      ∃ t, step s = .next t ∧ t.held (.sub h) = true ∧
        s.advance.onlyNode t h { nd with hfe := { nd.hfe with resurrectReq := false, st := .resurrection } }) ∧
    (s.nextAction = some (.hub h .notified) → nd.hfe.notifySeen = true → nd.hfe.resurrectReq = false →
      ∃ t, step s = .next t ∧ s.advance.onlyNode t h { nd with hfe := { nd.hfe with st := .notified } }) ∧
    (s.nextAction = some (.hub h .notified) → nd.hfe.resurrectReq = true →
      ∀ t, step s = .next t → t.nodes = s.nodes ∧ t.primary = s.primary) ∧
    (∀ env, s.nextAction = some (.hub h (.openTx env)) → nd.hfe.resurrectReq = true ∨ nd.hfe.notifySeen = true →
      ∀ t, step s = .next t → t.nodes = s.nodes ∧ t.primary = s.primary))

/-- R337, R338, R400, R53: the end of a resurrection leaves the hub idle and every child reset into the maintenance half, with
its configuration loaded anew (R404); the children of a child whose segment was open receive STOP (R402), and no other node
changes. That a child's own idle segment brings its targets nothing, that a reset finds the bus free by the controller's
place in the grammar, and that a child which is itself a hub in `Resurrection` leaves it without a reset of its own targets,
are the model's readings (log 26, 32, 35; DEDUCED). -/
def Obligations.ResurrectionRecoversChildren : Prop :=
  ∀ (s : State) (h : Nat) (nd : Node), s.coherent = true → s.nextAction = some (.hub h .endResurrection) →
    s.nodes[h]? = some nd → nd.hfe.st = .resurrection →
    s.held (.sub h) = true ∧
    ∃ t, step s = .next t ∧ t.nodes[h]? = some { nd with hfe := { nd.hfe with st := .idle } } ∧
      t.nodes.length = s.nodes.length ∧ t.primary = s.primary ∧ t.hostLog = s.hostLog ∧
      (∀ (j : Nat) (x : Node), s.nodes[j]? = some x → x.seg = .sub h →
        ∃ y : Node, t.nodes[j]? = some y ∧ x.wasReset y ∧ y.execHalf = .maintenance ∧ y.ppe.busBusy = false) ∧
      ∀ (j : Nat) (x : Node), j ≠ h → s.nodes[j]? = some x → x.seg ≠ .sub h →
        ((∃ k c, x.seg = .sub k ∧ s.nodes[k]? = some c ∧ c.seg = .sub h ∧ c.sec ≠ .idle) ∧ x.ppe.st ≠ .sendingStalled →
          t.nodes[j]? = some { x with ppe := { x.ppe with busBusy := false, st := .idle } }) ∧
        ((∀ k c, x.seg = .sub k → s.nodes[k]? = some c → c.seg = .sub h → c.sec = .idle) ∨ x.ppe.st = .sendingStalled →
          t.nodes[j]? = some x)

/-! ### Reset (70_reset_and_hazards.md, 10_state.md) -/

/-- R53, R400, R401, R403, R404: what a power-on reset leaves: every value R53 gives, BOOT_HALF, the configuration loaded
from the configuration region, and the bytes of non-volatile blocks that were not pending; that `busBusy` follows the
controller's place in the grammar is the model's reading (log 32, DEDUCED). R402: an open secondary transaction is abandoned,
and every target on it but a stalled one receives STOP; that an idle segment's targets receive nothing is the model's
reading (log 26, DEDUCED), and so is that a hub reset in `Resurrection` resets no child (log 35, DEDUCED). No other node
changes. -/
def Obligations.PowerOnResetValues : Prop :=
  ∀ (s : State) (i : Nat) (nd : Node), s.r54 = true → s.nextAction = some (.powerOn i) → s.nodes[i]? = some nd →
    ∃ t nd', step s = .next t ∧ t.nodes[i]? = some nd' ∧ nd.wasReset nd' ∧
      (nd'.ppe.busBusy = true ↔ s.phase nd.seg ≠ .idle) ∧ nd'.execHalf = nd.par.bootHalf ∧ s.restAfterReset t i

/-- R189, R283, R400, R414: the reboot step resets a node that asked for it once its cycle is cleared: it leaves what a
power-on reset leaves, the configuration loaded anew (R404) among it, but for the executing half, which is the other one for
a switch and the same for a keep. The readings of log 26, 32 and 35 (DEDUCED) hold here too. Before that the step does
nothing: that such a step is a used-up no-op is the model's choice (log 3, DEDUCED). -/
def Obligations.RebootStepSwitchesHalf : Prop :=
  ∀ (s : State) (i : Nat) (nd : Node), s.r54 = true → s.nextAction = some (.coop i .reboot) → s.nodes[i]? = some nd →
    (nd.rebootReq ≠ .none → nd.ppe.cycAddr = none → nd.ppe.st = .idle →
      ∃ t nd', step s = .next t ∧ t.nodes[i]? = some nd' ∧ nd.wasReset nd' ∧
        (nd'.ppe.busBusy = true ↔ s.phase nd.seg ≠ .idle) ∧
        (nd.rebootReq = .keep → nd'.execHalf = nd.execHalf) ∧
        (nd.rebootReq = .switch → nd'.execHalf ≠ nd.execHalf) ∧ s.restAfterReset t i) ∧
    (nd.rebootReq = .none ∨ nd.ppe.cycAddr ≠ none ∨ nd.ppe.st ≠ .idle → step s = .next s.advance)

/-- R53, R400: the machine right after reset keeps every invariant, its parameters keep R13, and each node's PPE, HFE, latches
and core registers have every value that R53 states. What R53 leaves open is not claimed, and the network itself and its
running configurations are the model's choice (log 4, 6, 7). -/
def Obligations.ResetStateIsCoherent : Prop :=
  State.reset.coherent = true ∧ State.reset.primary = .idle ∧
  ∀ nd ∈ State.reset.nodes, nd.par.wf = true ∧ nd.ppe.st = .idle ∧ nd.ppe.reqLen = 0 ∧ nd.ppe.reqSt = .accumulating ∧
    nd.ppe.repLen = 0 ∧ nd.ppe.repPos = 0 ∧ nd.ppe.repFinal = false ∧ nd.ppe.drained = false ∧ nd.ppe.readSeen = false ∧
    nd.ppe.dir = false ∧ nd.ppe.cycAddr = none ∧ nd.ppe.busBusy = false ∧ nd.notifyPending = false ∧
    nd.rebootReq = .none ∧ nd.hfe.st = .idle ∧ nd.hfe.fwdStarted = false ∧ nd.hfe.resurrectReq = false ∧
    nd.hfe.notifySeen = false ∧ nd.sec = .idle ∧ nd.regs[0] = 0 ∧ nd.reg nd.par.regCtrl = 0 ∧
    nd.reg nd.par.regUnlock = 0 ∧ nd.execHalf = nd.par.bootHalf ∧ nd.progPending = []

/-! ### Invariants and whole-machine rules -/

/-- R50, R80, R85, R87: every step keeps the memories of every node in canonical form, with only writable program blocks
pending. The canonical form is the model's (log 9). -/
def Obligations.StepKeepsMemoryCanonical : Prop :=
  ∀ s t : State, (∀ nd ∈ s.nodes, nd.memOk = true) → step s = .next t → ∀ nd ∈ t.nodes, nd.memOk = true

/-- R54, R261, R285: in a network that is a tree, every step keeps the invariants of the PPEs, of the HFEs and of the targets
against their segments. That a drained node is `Notifying` as well as `Idle`, by R285 and beside the derived last sentence of
R278, is the model's reading (log 24, DEDUCED). -/
def Obligations.StepKeepsCoherence : Prop :=
  ∀ s t : State, s.coherent = true → step s = .next t → t.coherent = true

/-- R18, R290, R291, R159, R261: from a coherent state no step breaks a contract: no fault is ever raised. -/
def Obligations.CoherentStepNeverFaults : Prop :=
  ∀ (s : State) (f : Fault), s.coherent = true → step s ≠ .fault f

/-- R228, R229: from a coherent state only a host event outside the grammar is refused; no hub ever leaves it. -/
def Obligations.OnlyHostEventsRefused : Prop :=
  ∀ (s : State) (r : Refusal), s.coherent = true → step s = .refused r →
    r = .busGrammar ∧ ∃ e, s.nextAction = some (.host e) ∧ s.primary.next e = none

/-- R36, R12, R11: no step changes any node's place, parameters, identity or kind of collaborator, or adds a node. -/
def Obligations.StepKeepsFixedParts : Prop :=
  ∀ s t : State, step s = .next t → t.nodes.map Node.fixed = s.nodes.map Node.fixed

/-- R35, R88, R49: the running configuration and the executing half change only at a reset. -/
def Obligations.ConfigurationChangesOnlyAtReset : Prop :=
  ∀ s t : State, step s = .next t → Action.isReset s.nextAction = false →
    t.nodes.map Node.cfg = s.nodes.map Node.cfg ∧ t.nodes.map Node.execHalf = s.nodes.map Node.execHalf

/-- R86, R82, R100: no step, a reset included, changes a byte of the identity region, of the protected range or of the
half that was executing. -/
def Obligations.ExecutingCodeNeverChanges : Prop :=
  ∀ (s t : State) (i a : Nat) (nd nd' : Node), s.nodes[i]? = some nd → nd.memOk = true → step s = .next t →
    t.nodes[i]? = some nd' → nd.unwritable a → nd'.readByte a = nd.readByte a

end
end

