-- ==== Sys2Proof/Laws/State.lean ====
section
/-! SUPPORT. What each named update leaves of a node and of the state: one lemma per field and update, true by rfl, so
that no later proof unfolds a record update. -/

namespace Sys2Proof.Machine

/-! ### State updates -/

@[simp] theorem setNode_nodes (s : State) (i : Nat) (nd : Node) : (s.setNode i nd).nodes = s.nodes.set i nd := rfl
@[simp] theorem setNode_primary (s : State) (i : Nat) (nd : Node) : (s.setNode i nd).primary = s.primary := rfl
@[simp] theorem setNode_hostLog (s : State) (i : Nat) (nd : Node) : (s.setNode i nd).hostLog = s.hostLog := rfl
@[simp] theorem setNode_agenda (s : State) (i : Nat) (nd : Node) : (s.setNode i nd).agenda = s.agenda := rfl
@[simp] theorem setNode_tick (s : State) (i : Nat) (nd : Node) : (s.setNode i nd).tick = s.tick := rfl
@[simp] theorem setNode_draws (s : State) (i : Nat) (nd : Node) : (s.setNode i nd).draws = s.draws := rfl
@[simp] theorem setNode_cur (s : State) (i : Nat) (nd : Node) : (s.setNode i nd).cur = s.cur := rfl

@[simp] theorem modNode_nodes (s : State) (i : Nat) (f : Node → Node) : (s.modNode i f).nodes = s.nodes.modify i f := rfl
@[simp] theorem modNode_primary (s : State) (i : Nat) (f : Node → Node) : (s.modNode i f).primary = s.primary := rfl
@[simp] theorem modNode_hostLog (s : State) (i : Nat) (f : Node → Node) : (s.modNode i f).hostLog = s.hostLog := rfl
@[simp] theorem modNode_agenda (s : State) (i : Nat) (f : Node → Node) : (s.modNode i f).agenda = s.agenda := rfl
@[simp] theorem modNode_tick (s : State) (i : Nat) (f : Node → Node) : (s.modNode i f).tick = s.tick := rfl
@[simp] theorem modNode_draws (s : State) (i : Nat) (f : Node → Node) : (s.modNode i f).draws = s.draws := rfl
@[simp] theorem modNode_cur (s : State) (i : Nat) (f : Node → Node) : (s.modNode i f).cur = s.cur := rfl

@[simp] theorem draw_nodes (s : State) : s.draw.nodes = s.nodes := rfl
@[simp] theorem draw_primary (s : State) : s.draw.primary = s.primary := rfl
@[simp] theorem draw_hostLog (s : State) : s.draw.hostLog = s.hostLog := rfl
@[simp] theorem draw_agenda (s : State) : s.draw.agenda = s.agenda := rfl
@[simp] theorem draw_tick (s : State) : s.draw.tick = s.tick := rfl
@[simp] theorem draw_draws (s : State) : s.draw.draws = s.draws + 1 := rfl
@[simp] theorem draw_cur (s : State) : s.draw.cur = s.cur := rfl

@[simp] theorem advance_nodes (s : State) : s.advance.nodes = s.nodes := rfl
@[simp] theorem advance_primary (s : State) : s.advance.primary = s.primary := rfl
@[simp] theorem advance_hostLog (s : State) : s.advance.hostLog = s.hostLog := rfl
@[simp] theorem advance_agenda (s : State) : s.advance.agenda = s.agenda.tail := rfl
@[simp] theorem advance_tick (s : State) : s.advance.tick = s.tick + 1 := rfl
@[simp] theorem advance_draws (s : State) : s.advance.draws = s.draws := rfl
@[simp] theorem advance_cur (s : State) : s.advance.cur = s.cur := rfl

@[simp] theorem edgeAll_primary (s : State) (k : SegId) (e : BusEvent) : (s.edgeAll k e).primary = s.primary := rfl
@[simp] theorem edgeAll_hostLog (s : State) (k : SegId) (e : BusEvent) : (s.edgeAll k e).hostLog = s.hostLog := rfl
@[simp] theorem edgeAll_agenda (s : State) (k : SegId) (e : BusEvent) : (s.edgeAll k e).agenda = s.agenda := rfl
@[simp] theorem edgeAll_tick (s : State) (k : SegId) (e : BusEvent) : (s.edgeAll k e).tick = s.tick := rfl
@[simp] theorem edgeAll_draws (s : State) (k : SegId) (e : BusEvent) : (s.edgeAll k e).draws = s.draws := rfl
@[simp] theorem edgeAll_cur (s : State) (k : SegId) (e : BusEvent) : (s.edgeAll k e).cur = s.cur := rfl

/-! ### Node updates -/

@[simp] theorem setReg_ppe (nd : Node) (r : BitVec 6) (v : Byte) : (nd.setReg r v).ppe = nd.ppe := rfl
@[simp] theorem setReg_hfe (nd : Node) (r : BitVec 6) (v : Byte) : (nd.setReg r v).hfe = nd.hfe := rfl
@[simp] theorem setReg_par (nd : Node) (r : BitVec 6) (v : Byte) : (nd.setReg r v).par = nd.par := rfl
@[simp] theorem setReg_ident (nd : Node) (r : BitVec 6) (v : Byte) : (nd.setReg r v).ident = nd.ident := rfl
@[simp] theorem setReg_seg (nd : Node) (r : BitVec 6) (v : Byte) : (nd.setReg r v).seg = nd.seg := rfl
@[simp] theorem setReg_cfg (nd : Node) (r : BitVec 6) (v : Byte) : (nd.setReg r v).cfg = nd.cfg := rfl
@[simp] theorem setReg_mem (nd : Node) (r : BitVec 6) (v : Byte) : (nd.setReg r v).mem = nd.mem := rfl
@[simp] theorem setReg_progPending (nd : Node) (r : BitVec 6) (v : Byte) : (nd.setReg r v).progPending = nd.progPending := rfl
@[simp] theorem setReg_progBuf (nd : Node) (r : BitVec 6) (v : Byte) : (nd.setReg r v).progBuf = nd.progBuf := rfl
@[simp] theorem setReg_sec (nd : Node) (r : BitVec 6) (v : Byte) : (nd.setReg r v).sec = nd.sec := rfl

@[simp] theorem setChanged_ppe (nd : Node) (v : Byte) : (nd.setChanged v).ppe = nd.ppe := rfl
@[simp] theorem setChanged_hfe (nd : Node) (v : Byte) : (nd.setChanged v).hfe = nd.hfe := rfl
@[simp] theorem setChanged_par (nd : Node) (v : Byte) : (nd.setChanged v).par = nd.par := rfl
@[simp] theorem setChanged_ident (nd : Node) (v : Byte) : (nd.setChanged v).ident = nd.ident := rfl
@[simp] theorem setChanged_seg (nd : Node) (v : Byte) : (nd.setChanged v).seg = nd.seg := rfl
@[simp] theorem setChanged_cfg (nd : Node) (v : Byte) : (nd.setChanged v).cfg = nd.cfg := rfl
@[simp] theorem setChanged_mem (nd : Node) (v : Byte) : (nd.setChanged v).mem = nd.mem := rfl
@[simp] theorem setChanged_sec (nd : Node) (v : Byte) : (nd.setChanged v).sec = nd.sec := rfl
@[simp] theorem setChanged_collab (nd : Node) (v : Byte) : (nd.setChanged v).collab = nd.collab := rfl
@[simp] theorem setChanged_nodeKey (nd : Node) (v : Byte) : (nd.setChanged v).nodeKey = nd.nodeKey := rfl
@[simp] theorem setChanged_execHalf (nd : Node) (v : Byte) : (nd.setChanged v).execHalf = nd.execHalf := rfl
@[simp] theorem setChanged_rebootReq (nd : Node) (v : Byte) : (nd.setChanged v).rebootReq = nd.rebootReq := rfl
@[simp] theorem setChanged_memEpoch (nd : Node) (v : Byte) : (nd.setChanged v).memEpoch = nd.memEpoch := rfl
@[simp] theorem setChanged_progPending (nd : Node) (v : Byte) : (nd.setChanged v).progPending = nd.progPending := rfl
@[simp] theorem setChanged_progBuf (nd : Node) (v : Byte) : (nd.setChanged v).progBuf = nd.progBuf := rfl
@[simp] theorem setChanged_regs (nd : Node) (v : Byte) : (nd.setChanged v).regs = nd.regs.set 0 v := rfl

@[simp] theorem collabSetChanged_ppe (nd : Node) (v : Byte) : (nd.collabSetChanged v).ppe = nd.ppe := setChanged_ppe _ _
@[simp] theorem collabSetChanged_hfe (nd : Node) (v : Byte) : (nd.collabSetChanged v).hfe = nd.hfe := setChanged_hfe _ _
@[simp] theorem collabSetChanged_par (nd : Node) (v : Byte) : (nd.collabSetChanged v).par = nd.par := setChanged_par _ _
@[simp] theorem collabSetChanged_ident (nd : Node) (v : Byte) : (nd.collabSetChanged v).ident = nd.ident := setChanged_ident _ _
@[simp] theorem collabSetChanged_seg (nd : Node) (v : Byte) : (nd.collabSetChanged v).seg = nd.seg := setChanged_seg _ _
@[simp] theorem collabSetChanged_collab (nd : Node) (v : Byte) : (nd.collabSetChanged v).collab = nd.collab := setChanged_collab _ _
@[simp] theorem collabSetChanged_nodeKey (nd : Node) (v : Byte) : (nd.collabSetChanged v).nodeKey = nd.nodeKey := setChanged_nodeKey _ _
@[simp] theorem collabSetChanged_cfg (nd : Node) (v : Byte) : (nd.collabSetChanged v).cfg = nd.cfg := setChanged_cfg _ _
@[simp] theorem collabSetChanged_execHalf (nd : Node) (v : Byte) : (nd.collabSetChanged v).execHalf = nd.execHalf := setChanged_execHalf _ _
@[simp] theorem collabSetChanged_rebootReq (nd : Node) (v : Byte) : (nd.collabSetChanged v).rebootReq = nd.rebootReq := setChanged_rebootReq _ _
@[simp] theorem collabSetChanged_mem (nd : Node) (v : Byte) : (nd.collabSetChanged v).mem = nd.mem := setChanged_mem _ _
@[simp] theorem collabSetChanged_memEpoch (nd : Node) (v : Byte) : (nd.collabSetChanged v).memEpoch = nd.memEpoch := setChanged_memEpoch _ _
@[simp] theorem collabSetChanged_progPending (nd : Node) (v : Byte) : (nd.collabSetChanged v).progPending = nd.progPending := setChanged_progPending _ _
@[simp] theorem collabSetChanged_progBuf (nd : Node) (v : Byte) : (nd.collabSetChanged v).progBuf = nd.progBuf := setChanged_progBuf _ _
@[simp] theorem collabSetChanged_sec (nd : Node) (v : Byte) : (nd.collabSetChanged v).sec = nd.sec := setChanged_sec _ _

@[simp] theorem redrawApp_ppe (nd : Node) (d : Nat) : (nd.redrawApp d).ppe = nd.ppe := setChanged_ppe _ _
@[simp] theorem redrawApp_hfe (nd : Node) (d : Nat) : (nd.redrawApp d).hfe = nd.hfe := setChanged_hfe _ _
@[simp] theorem redrawApp_par (nd : Node) (d : Nat) : (nd.redrawApp d).par = nd.par := setChanged_par _ _
@[simp] theorem redrawApp_ident (nd : Node) (d : Nat) : (nd.redrawApp d).ident = nd.ident := setChanged_ident _ _
@[simp] theorem redrawApp_seg (nd : Node) (d : Nat) : (nd.redrawApp d).seg = nd.seg := setChanged_seg _ _
@[simp] theorem redrawApp_collab (nd : Node) (d : Nat) : (nd.redrawApp d).collab = nd.collab := setChanged_collab _ _
@[simp] theorem redrawApp_nodeKey (nd : Node) (d : Nat) : (nd.redrawApp d).nodeKey = nd.nodeKey := setChanged_nodeKey _ _
@[simp] theorem redrawApp_cfg (nd : Node) (d : Nat) : (nd.redrawApp d).cfg = nd.cfg := setChanged_cfg _ _
@[simp] theorem redrawApp_execHalf (nd : Node) (d : Nat) : (nd.redrawApp d).execHalf = nd.execHalf := setChanged_execHalf _ _
@[simp] theorem redrawApp_rebootReq (nd : Node) (d : Nat) : (nd.redrawApp d).rebootReq = nd.rebootReq := setChanged_rebootReq _ _
@[simp] theorem redrawApp_progPending (nd : Node) (d : Nat) : (nd.redrawApp d).progPending = nd.progPending := setChanged_progPending _ _
@[simp] theorem redrawApp_progBuf (nd : Node) (d : Nat) : (nd.redrawApp d).progBuf = nd.progBuf := setChanged_progBuf _ _
@[simp] theorem redrawApp_sec (nd : Node) (d : Nat) : (nd.redrawApp d).sec = nd.sec := setChanged_sec _ _
@[simp] theorem redrawApp_mem (nd : Node) (d : Nat) : (nd.redrawApp d).mem = nd.memWithoutRam := setChanged_mem _ _
@[simp] theorem redrawApp_memEpoch (nd : Node) (d : Nat) : (nd.redrawApp d).memEpoch = nd.memEpoch + 1 := setChanged_memEpoch _ _

@[simp] theorem withHfe_hfe (nd : Node) (f : Hfe → Hfe) : (nd.withHfe f).hfe = f nd.hfe := rfl
@[simp] theorem withHfe_ppe (nd : Node) (f : Hfe → Hfe) : (nd.withHfe f).ppe = nd.ppe := rfl
@[simp] theorem withHfe_par (nd : Node) (f : Hfe → Hfe) : (nd.withHfe f).par = nd.par := rfl
@[simp] theorem withHfe_ident (nd : Node) (f : Hfe → Hfe) : (nd.withHfe f).ident = nd.ident := rfl
@[simp] theorem withHfe_seg (nd : Node) (f : Hfe → Hfe) : (nd.withHfe f).seg = nd.seg := rfl
@[simp] theorem withHfe_cfg (nd : Node) (f : Hfe → Hfe) : (nd.withHfe f).cfg = nd.cfg := rfl
@[simp] theorem withHfe_mem (nd : Node) (f : Hfe → Hfe) : (nd.withHfe f).mem = nd.mem := rfl
@[simp] theorem withHfe_regs (nd : Node) (f : Hfe → Hfe) : (nd.withHfe f).regs = nd.regs := rfl
@[simp] theorem withHfe_sec (nd : Node) (f : Hfe → Hfe) : (nd.withHfe f).sec = nd.sec := rfl

@[simp] theorem clearBuffers_st (nd : Node) : nd.clearBuffers.ppe.st = nd.ppe.st := rfl
@[simp] theorem clearBuffers_reqLen (nd : Node) : nd.clearBuffers.ppe.reqLen = 0 := rfl
@[simp] theorem clearBuffers_reqSt (nd : Node) : nd.clearBuffers.ppe.reqSt = .accumulating := rfl
@[simp] theorem clearBuffers_repLen (nd : Node) : nd.clearBuffers.ppe.repLen = 0 := rfl
@[simp] theorem clearBuffers_repPos (nd : Node) : nd.clearBuffers.ppe.repPos = 0 := rfl
@[simp] theorem clearBuffers_repFinal (nd : Node) : nd.clearBuffers.ppe.repFinal = false := rfl
@[simp] theorem clearBuffers_drained (nd : Node) : nd.clearBuffers.ppe.drained = false := rfl
@[simp] theorem clearBuffers_readSeen (nd : Node) : nd.clearBuffers.ppe.readSeen = false := rfl
@[simp] theorem clearBuffers_cycAddr (nd : Node) : nd.clearBuffers.ppe.cycAddr = none := rfl
@[simp] theorem clearBuffers_busBusy (nd : Node) : nd.clearBuffers.ppe.busBusy = nd.ppe.busBusy := rfl
@[simp] theorem clearBuffers_fwdStarted (nd : Node) : nd.clearBuffers.hfe.fwdStarted = false := rfl
@[simp] theorem clearBuffers_seg (nd : Node) : nd.clearBuffers.seg = nd.seg := rfl
@[simp] theorem clearBuffers_par (nd : Node) : nd.clearBuffers.par = nd.par := rfl
@[simp] theorem clearBuffers_ident (nd : Node) : nd.clearBuffers.ident = nd.ident := rfl
@[simp] theorem clearBuffers_cfg (nd : Node) : nd.clearBuffers.cfg = nd.cfg := rfl
@[simp] theorem clearBuffers_sec (nd : Node) : nd.clearBuffers.sec = nd.sec := rfl

@[simp] theorem onStop_st (nd : Node) : nd.onStop.ppe.st = .idle := rfl
@[simp] theorem onStop_busBusy (nd : Node) : nd.onStop.ppe.busBusy = false := rfl
@[simp] theorem onStop_seg (nd : Node) : nd.onStop.seg = nd.seg := rfl
@[simp] theorem onStop_hfe (nd : Node) : nd.onStop.hfe = nd.hfe := rfl
@[simp] theorem onStop_par (nd : Node) : nd.onStop.par = nd.par := rfl
@[simp] theorem onStop_sec (nd : Node) : nd.onStop.sec = nd.sec := rfl

@[simp] theorem res_out_ok (s : State) : Res.out (.ok s) = .next s := rfl
@[simp] theorem res_out_fault (r : Fault) : Res.out (.error (.fault r)) = .fault r := rfl
@[simp] theorem res_out_refused (r : Refusal) : Res.out (.error (.refused r)) = .refused r := rfl

end Sys2Proof.Machine
end

