-- ==== Sys2Proof/Laws/Bus.lean ====
section
/-! SUPPORT. The joint transition of a bus event and one step of the machine, said once: when they answer and what the
answer is. -/

namespace Sys2Proof.Machine

@[simp] theorem setPhase_hostLog (s : State) (k : SegId) (p : BusPhase) : (s.setPhase k p).hostLog = s.hostLog := by
  cases k <;> rfl
@[simp] theorem setPhase_agenda (s : State) (k : SegId) (p : BusPhase) : (s.setPhase k p).agenda = s.agenda := by
  cases k <;> rfl
@[simp] theorem setPhase_tick (s : State) (k : SegId) (p : BusPhase) : (s.setPhase k p).tick = s.tick := by
  cases k <;> rfl
@[simp] theorem setPhase_draws (s : State) (k : SegId) (p : BusPhase) : (s.setPhase k p).draws = s.draws := by
  cases k <;> rfl
@[simp] theorem setPhase_cur (s : State) (k : SegId) (p : BusPhase) : (s.setPhase k p).cur = s.cur := by
  cases k <;> rfl

@[simp] theorem edgeAll_length (s : State) (k : SegId) (e : BusEvent) : (s.edgeAll k e).nodes.length = s.nodes.length := by
  simp [State.edgeAll]

@[simp] theorem setPhase_length (s : State) (k : SegId) (p : BusPhase) :
    (s.setPhase k p).nodes.length = s.nodes.length := by
  cases k <;> simp [State.setPhase]

/-- A controller's event answers exactly where the grammar allows it and every target's cell of R261 is not "n/a". -/
theorem emit_ok_iff {s t : State} {k : SegId} {e : BusEvent} {r : Option Obs} :
    s.emit k e = .ok (t, r) ↔
      ∃ p, (s.phase k).next e = some p ∧ ((s.targets k).all fun nd => edgeApplies nd.ppe.st e) = true ∧
        t = (s.edgeAll k e).setPhase k p ∧ r = s.response k e := by
  unfold State.emit
  split
  · rename_i h; simp [h]
  · rename_i p h
    split
    · rename_i ha; simp [h, ha, eq_comm]
    · rename_i ha; simp only [h, Option.some.injEq, reduceCtorEq, false_iff, not_exists, not_and]
      intro q _ hq; exact absurd hq ha

/-- An event outside the grammar is refused (R229), whatever the targets are. -/
theorem emit_refused {s : State} {k : SegId} {e : BusEvent} (h : (s.phase k).next e = none) :
    s.emit k e = .error (.refused .busGrammar) := by
  simp [State.emit, h]

theorem out_next_iff {r : Res State} {t : State} : Res.out r = .next t ↔ r = .ok t := by
  cases r with
  | ok s => simp [Res.out]
  | error x => cases x <;> simp [Res.out]

theorem out_fault_iff {r : Res State} {f : Fault} : Res.out r = .fault f ↔ r = .error (.fault f) := by
  cases r with
  | ok s => simp [Res.out]
  | error x => cases x <;> simp [Res.out]

theorem out_refused_iff {r : Res State} {f : Refusal} : Res.out r = .refused f ↔ r = .error (.refused f) := by
  cases r with
  | ok s => simp [Res.out]
  | error x => cases x <;> simp [Res.out]

/-- One step of the machine that answers: R54 holds, and either nobody acts or the action of this step answers. -/
theorem step_next_cases {s t : State} (h : step s = .next t) :
    s.r54 = true ∧ ((s.nextAction = none ∧ t = s.advance) ∨ ∃ a, s.nextAction = some a ∧ s.advance.perform a = .next t) := by
  unfold step at h
  split at h
  · rename_i hr
    refine ⟨hr, ?_⟩
    unfold State.act at h
    split at h
    · rename_i a ha; exact .inr ⟨a, ha, h⟩
    · rename_i ha
      have := Host.Outcome.next.inj h
      exact .inl ⟨ha, this.symm⟩
  · simp at h

/-- A step of a node that answers: its condition does not hold and nothing changed, or it ran. -/
theorem whenNode_ok_cases {s t : State} {i : Nat} {g : Node → Bool} {act : Node → Res State}
    (h : s.whenNode i g act = .ok t) : t = s ∨ ∃ nd, s.nodes[i]? = some nd ∧ g nd = true ∧ act nd = .ok t := by
  unfold State.whenNode at h
  split at h
  · exact .inl (Except.ok.inj h).symm
  · rename_i nd hn
    split at h
    · rename_i hg; exact .inr ⟨nd, hn, hg, h⟩
    · exact .inl (Except.ok.inj h).symm

end Sys2Proof.Machine
end

