-- ==== Sys2Proof/Laws/Codec.lean ====
section
/-! SUPPORT. The codec: bounds on the sizes, what packaging gives, and the checksum of a longer sequence. -/

namespace Sys2Proof.Machine

theorem requestSize_cases (op : Byte) : requestSize op = 2 ∨ requestSize op = 3 ∨ requestSize op = 19 := by
  unfold requestSize
  repeat' split
  all_goals simp

theorem replySize_cases (op : Byte) : replySize op = 1 ∨ replySize op = 2 ∨ replySize op = 18 := by
  unfold replySize
  repeat' split
  all_goals simp

theorem two_le_requestSize (op : Byte) : 2 ≤ requestSize op := by
  rcases requestSize_cases op with h | h | h <;> omega

theorem requestSize_le (op : Byte) : requestSize op ≤ maxReq := by
  rcases requestSize_cases op with h | h | h <;> simp [h]

theorem one_le_replySize (op : Byte) : 1 ≤ replySize op := by
  rcases replySize_cases op with h | h | h <;> omega

theorem replySize_le (op : Byte) : replySize op ≤ maxRep := by
  rcases replySize_cases op with h | h | h <;> simp [h]

theorem checksum8_append (s t : List Byte) : checksum8 (s ++ t) = t.foldl crc8Byte (checksum8 s) := by
  simp [checksum8]

/-- Packaging a reply of one byte gives the status-only reply of its low nibble (R160). -/
theorem packageReply_one (b : Byte) : packageReply [b] = some (statusOnly (b.extractLsb' 0 4)) := by
  simp [packageReply, statusOnly]

theorem packageReply_code (c : Code) : packageReply [codeByte c] = some (statusOnly (codeNibble c)) := by
  rw [packageReply_one]; cases c <;> rfl

/-- Packaging a register-read reply (R115). -/
theorem packageReply_value (v : Byte) : packageReply [codeByte .ok, v] = some [statusByte 0 [v], v] := by
  simp [packageReply, codeByte, codeNibble]

/-- Packaging a memory-read reply (R116): the inner check first, then the outer one. -/
theorem packageReply_block (data : List Byte) (x : Byte) (h : data.length = blkSize) :
    packageReply (codeByte .ok :: data ++ [x]) =
      some (statusByte 0 (data ++ [checksum8 data]) :: (data ++ [checksum8 data])) := by
  simp [packageReply, codeByte, codeNibble, h]

/-- What packaging does not do: it never changes the length, and it accepts only the lengths 1 to 18. -/
theorem packageReply_some {rep bytes : List Byte} (h : packageReply rep = some bytes) :
    bytes.length = rep.length ∧ 1 ≤ rep.length ∧ rep.length ≤ maxRep := by
  cases rep with
  | nil => simp [packageReply] at h
  | cons s payload =>
    simp only [packageReply] at h
    split at h
    · simp at h
    · rename_i hle
      obtain rfl := Option.some.inj h
      refine ⟨?_, by simp, by simpa using hle⟩
      split
      · rename_i heq
        simp at heq ⊢
        omega
      · simp

end Sys2Proof.Machine
end

