-- ==== Sys2Proof/Laws/Memory.lean ====
section
/-! SUPPORT. Memory: a read after a write, and every memory operation keeps the canonical form. -/

namespace Sys2Proof.Machine

@[simp] theorem read_write_same (m : Memory) (x : Nat) (b : Byte) : (m.write x b).read? x = some b := by
  induction m with
  | nil => simp [Memory.write, Memory.read?]
  | cons c m ih =>
    obtain ⟨a, v⟩ := c
    simp only [Memory.write]
    split
    · simp [Memory.read?]
    · split
      · simp [Memory.read?]
      · have : a ≠ x := fun h => by omega
        simp [Memory.read?, this, ih]

theorem read_write_other (m : Memory) {x y : Nat} (b : Byte) (h : y ≠ x) : (m.write x b).read? y = m.read? y := by
  induction m with
  | nil => simp [Memory.write, Memory.read?, Ne.symm h]
  | cons c m ih =>
    obtain ⟨a, v⟩ := c
    simp only [Memory.write]
    split
    · simp [Memory.read?, Ne.symm h]
    · split
      · subst_vars
        simp [Memory.read?, Ne.symm h]
      · simp [Memory.read?, ih]

theorem read_writeBytes_out (m : Memory) (x y : Nat) (bs : List Byte) (h : y < x ∨ x + bs.length ≤ y) :
    (m.writeBytes x bs).read? y = m.read? y := by
  induction bs generalizing m x with
  | nil => rfl
  | cons b bs ih =>
    simp only [List.length_cons] at h
    rw [Memory.writeBytes, ih _ _ (by omega), read_write_other _ _ (by omega)]

theorem read_writeBytes_in (m : Memory) (x y : Nat) (bs : List Byte) (h : x ≤ y) (h' : y < x + bs.length) :
    (m.writeBytes x bs).read? y = some (bs.getD (y - x) 0) := by
  induction bs generalizing m x with
  | nil => simp at h'; omega
  | cons b bs ih =>
    simp only [List.length_cons] at h'
    rw [Memory.writeBytes]
    rcases Nat.eq_or_lt_of_le h with rfl | hlt
    · rw [read_writeBytes_out _ _ _ _ (by omega)]; simp
    · rw [ih _ _ (by omega) (by omega)]
      have : y - x = (y - (x + 1)) + 1 := by omega
      simp [this]

theorem mem_write {m : Memory} {x : Nat} {b : Byte} {c : Host.Cell} (h : c ∈ m.write x b) : c = (x, b) ∨ c ∈ m := by
  induction m with
  | nil => simpa [Memory.write] using h
  | cons d m ih =>
    obtain ⟨a, v⟩ := d
    simp only [Memory.write] at h
    split at h
    · simpa using h
    · split at h
      · rcases List.mem_cons.1 h with h | h
        · exact .inl h
        · exact .inr (List.mem_cons_of_mem _ h)
      · rcases List.mem_cons.1 h with h | h
        · exact .inr (h ▸ List.mem_cons_self)
        · rcases ih h with h | h
          · exact .inl h
          · exact .inr (List.mem_cons_of_mem _ h)

theorem wf_iff (m : Memory) :
    m.wf = true ↔ m.Pairwise (fun c d => c.1 < d.1) ∧ ∀ c ∈ m, c.1 < 65536 := by
  simp [Memory.wf]

theorem write_wf {m : Memory} {x : Nat} (b : Byte) (hx : x < 65536) (h : m.wf = true) : (m.write x b).wf = true := by
  rw [wf_iff] at *
  refine ⟨?_, fun c hc => ?_⟩
  · obtain ⟨hp, -⟩ := h
    induction m with
    | nil => simp [Memory.write]
    | cons d m ih =>
      obtain ⟨a, v⟩ := d
      rw [List.pairwise_cons] at hp
      simp only [Memory.write]
      split
      · rename_i hlt
        refine List.pairwise_cons.2 ⟨fun c hc => ?_, List.pairwise_cons.2 hp⟩
        rcases List.mem_cons.1 hc with rfl | hc
        · exact hlt
        · exact Nat.lt_trans hlt (hp.1 c hc)
      · split
        · rename_i heq
          subst heq
          exact List.pairwise_cons.2 ⟨fun c hc => hp.1 c hc, hp.2⟩
        · refine List.pairwise_cons.2 ⟨fun c hc => ?_, ih hp.2⟩
          rcases mem_write hc with rfl | hc
          · show a < x; omega
          · exact hp.1 c hc
  · rcases mem_write hc with rfl | hc
    · exact hx
    · exact h.2 c hc

theorem writeBytes_wf {m : Memory} {x : Nat} (bs : List Byte) (hx : x + bs.length ≤ 65536) (h : m.wf = true) :
    (m.writeBytes x bs).wf = true := by
  induction bs generalizing m x with
  | nil => exact h
  | cons b bs ih =>
    simp only [List.length_cons] at hx
    exact ih (by omega) (write_wf b (by omega) h)

theorem filter_wf {m : Memory} (p : Host.Cell → Bool) (h : m.wf = true) : Memory.wf (m.filter p) = true := by
  rw [wf_iff] at *
  exact ⟨h.1.filter p, fun c hc => h.2 c (List.mem_of_mem_filter hc)⟩

/-- Dropping addresses leaves the others (R87, R93, R403). -/
theorem read_filter_kept {m : Memory} (p : Nat → Bool) {x : Nat} (h : p x = true) :
    Memory.read? (m.filter fun c => p c.1) x = m.read? x := by
  induction m with
  | nil => rfl
  | cons c m ih =>
    obtain ⟨a, v⟩ := c
    rw [List.filter_cons]
    split
    · simp only [Memory.read?, ih]
    · rename_i hc
      rw [ih]
      exact (if_neg fun he => hc (by simpa [he] using h)).symm

/-- A dropped address is unlisted (R93, R403). -/
theorem read_filter_dropped {m : Memory} (p : Nat → Bool) {x : Nat} (h : p x = false) :
    Memory.read? (m.filter fun c => p c.1) x = none := by
  induction m with
  | nil => rfl
  | cons c m ih =>
    obtain ⟨a, v⟩ := c
    rw [List.filter_cons]
    split
    · rename_i hc
      simp only [Memory.read?, ih]
      exact if_neg fun he => by simp [he, h] at hc
    · exact ih

/-- A free collaborator leaves every byte outside working storage (R32, R93). -/
theorem redrawApp_readByte {nd : Node} (d : Nat) {a : Nat} (h : nd.par.region (a / blkSize) ≠ .ram) :
    (nd.redrawApp d).readByte a = nd.readByte a := by
  have hm : (nd.redrawApp d).mem.read? a = nd.mem.read? a :=
    read_filter_kept (fun x => nd.par.region (x / blkSize) != .ram) (by simpa using h)
  simp only [Node.readByte, hm, redrawApp_par, if_neg h, redrawApp_nodeKey]

/-- Writing whole blocks one after another (R83, R87, R403). -/
theorem foldl_blocks_wf (f : Nat → List Byte) (hf : ∀ b, (f b).length = blkSize) (bs : List Nat) {m : Memory}
    (hb : ∀ b ∈ bs, b < 4096) (h : m.wf = true) :
    (bs.foldl (fun m b => m.writeBytes (blkBase b) (f b)) m).wf = true := by
  induction bs generalizing m with
  | nil => exact h
  | cons b bs ih =>
    have hlt := hb b (by simp)
    refine ih (fun x hx => hb x (by simp [hx])) (writeBytes_wf _ ?_ h)
    rw [hf b]; simp only [blkBase, blkSize]; omega

/-- The blocks of a page lie inside the space (R80, R87). -/
theorem pageBlocks_lt {p : Params} {blk b : Nat} (h : b ∈ p.pageBlocks blk) : b < 4096 := by
  simp only [Params.pageBlocks, List.mem_filter, List.mem_range'_1] at h
  omega

/-- Programming a page keeps both memories in canonical form (R87). -/
theorem programPage_wf {nd : Node} (blk draw : Nat) (hm : nd.mem.wf = true) (hb : nd.progBuf.wf = true) :
    (nd.programPage blk draw).mem.wf = true ∧ (nd.programPage blk draw).progBuf.wf = true := by
  unfold Node.programPage
  dsimp only
  split
  · exact ⟨foldl_blocks_wf _ (fun b => by simp [Node.bufBlock]) _ (fun b h => pageBlocks_lt h) hm, filter_wf _ hb⟩
  · exact ⟨hm, hb⟩

/-- A free collaborator's change keeps the memory in canonical form (R93). -/
theorem redrawApp_wf {nd : Node} (draw : Nat) (hm : nd.mem.wf = true) : (nd.redrawApp draw).mem.wf = true :=
  filter_wf _ hm

/-- A reset keeps the memory in canonical form (R403). -/
theorem resetMem_wf {nd : Node} (draw : Nat) (hm : nd.mem.wf = true) (hp : ∀ b ∈ nd.progPending, b < 4096) :
    (nd.resetMem draw).wf = true :=
  foldl_blocks_wf _ (fun b => by simp) _ hp (filter_wf _ hm)

/-- Every memory of the state after reset is canonical. -/
theorem reset_memory_wf : ∀ nd ∈ State.reset.nodes, nd.mem.wf = true ∧ nd.progBuf.wf = true := by decide

theorem mem_addBlock {xs : List Nat} {b y : Nat} : y ∈ addBlock xs b ↔ y = b ∨ y ∈ xs := by
  induction xs with
  | nil => simp [addBlock]
  | cons x xs ih =>
    simp only [addBlock]
    split
    · simp
    · split
      · subst_vars; simp
      · simp only [List.mem_cons, ih]
        constructor <;> rintro (h | h | h) <;> simp [h]

theorem addBlock_rising {xs : List Nat} (b : Nat) (h : xs.Pairwise (· < ·)) : (addBlock xs b).Pairwise (· < ·) := by
  induction xs with
  | nil => simp [addBlock]
  | cons x xs ih =>
    rw [List.pairwise_cons] at h
    simp only [addBlock]
    split
    · rename_i hlt
      refine List.pairwise_cons.2 ⟨fun y hy => ?_, List.pairwise_cons.2 h⟩
      rcases List.mem_cons.1 hy with rfl | hy
      · exact hlt
      · exact Nat.lt_trans hlt (h.1 y hy)
    · split
      · exact List.pairwise_cons.2 h
      · refine List.pairwise_cons.2 ⟨fun y hy => ?_, ih h.2⟩
        rcases mem_addBlock.1 hy with rfl | hy
        · omega
        · exact h.1 y hy

end Sys2Proof.Machine
end

