-- ==== Sys2Proof/Laws/PerInstr.lean ====
section
/-! SUPPORT. Statements for all instructions, one lemma per constructor. `SizeAgrees`: the words of a well-formed
instruction have, with the check byte, the size its opcode asks for (R112, R155). -/

namespace Sys2Proof.Laws.SizeAgrees

/-- The body of the instruction is nonempty, and body and check byte together are `RequestSize` of its opcode. -/
def Statement (i : Instr) : Prop :=
  i.wellFormed = true → ∃ op rest, encode i = op :: rest ∧ requestSize op = rest.length + 2

/-- The size of an opcode whose top bits are fixed does not depend on its index bits (R112). -/
theorem size_reg : ∀ reg : BitVec 6, requestSize (0b00#2 ++ reg) = 2 ∧ requestSize (0b01#2 ++ reg) = 3 := by decide

theorem size_readSized : ∀ low : BitVec 4, requestSize (0x8#4 ++ low) = 3 ∧ requestSize (0xA#4 ++ low) = 3 ∧
    requestSize (0xC#4 ++ low) = 3 ∧ requestSize (0xE#4 ++ low) = 3 := by decide

theorem size_writeSized : ∀ low : BitVec 4, requestSize (0x9#4 ++ low) = 19 ∧ requestSize (0xB#4 ++ low) = 19 ∧
    requestSize (0xD#4 ++ low) = 19 ∧ requestSize (0xF#4 ++ low) = 19 := by decide

theorem block_length {data : List Byte} (h : blockOk data = true) (lo : Byte) : (lo :: data).length + 2 = 19 := by
  simp [blockOk] at h; simp [h]

theorem regRead (reg : BitVec 6) : Statement (.regRead reg) := fun _ => ⟨_, _, rfl, (size_reg reg).1⟩

theorem regWrite (reg : BitVec 6) (value : Byte) : Statement (.regWrite reg value) := fun _ =>
  ⟨_, _, rfl, (size_reg reg).2⟩

theorem memRead (blk : BitVec 12) : Statement (.memRead blk) := fun _ => ⟨_, _, rfl, (size_readSized _).1⟩

theorem memWrite (blk : BitVec 12) (data : List Byte) : Statement (.memWrite blk data) := fun h =>
  ⟨_, _, rfl, (size_writeSized _).1.trans (block_length h _).symm⟩

theorem rsvA0 (low : BitVec 4) (lo : Byte) : Statement (.rsvA0 low lo) := fun _ => ⟨_, _, rfl, (size_readSized low).2.1⟩

theorem rsvB0 (low : BitVec 4) (lo : Byte) (data : List Byte) : Statement (.rsvB0 low lo data) := fun h =>
  ⟨_, _, rfl, (size_writeSized low).2.1.trans (block_length h lo).symm⟩

theorem rsvC0 (low : BitVec 4) (lo : Byte) : Statement (.rsvC0 low lo) := fun _ => ⟨_, _, rfl, (size_readSized low).2.2.1⟩

theorem rsvD0 (low : BitVec 4) (lo : Byte) (data : List Byte) : Statement (.rsvD0 low lo data) := fun h =>
  ⟨_, _, rfl, (size_writeSized low).2.2.1.trans (block_length h lo).symm⟩

theorem rsvE0 (low : BitVec 4) (lo : Byte) : Statement (.rsvE0 low lo) := fun _ => ⟨_, _, rfl, (size_readSized low).2.2.2⟩

theorem rsvF0 (low : BitVec 4) (lo : Byte) (data : List Byte) : Statement (.rsvF0 low lo data) := fun h =>
  ⟨_, _, rfl, (size_writeSized low).2.2.2.trans (block_length h lo).symm⟩

end Sys2Proof.Laws.SizeAgrees
end

