-- ==== Sys2Proof/Laws/Service.lean ====
section
/-! SUPPORT. The commit contract and the service, said once: when they answer, and everything they then do. -/

namespace Sys2Proof.Machine

theorem toList_putBytes {n : Nat} (v : Vector Byte n) (bs : List Byte) (h : bs.length ≤ n) :
    (putBytes v 0 bs).toList.take bs.length = bs := by
  apply List.ext_getElem
  · simp [h]
  · intro i h1 h2
    have hi : i < bs.length := h2
    simp [putBytes, hi]

theorem headD_take (l : List Byte) {n : Nat} (h : 0 < n) : (l.take n).headD 0 = l.getD 0 0 := by
  cases n with
  | zero => omega
  | succ n => cases l <;> rfl

/-- A full reply is published where there was none (R290, R292). -/
theorem commit_published {nd : Node} {rep bytes : List Byte} (hr : nd.ppe.r54 = true) (hF : nd.ppe.repFinal = false)
    (hL : nd.ppe.repLen = 0) (hp : packageReply rep = some bytes) :
    ∃ nd', nd.commit rep = .ok nd' ∧ Published nd.ppe nd'.ppe bytes ∧ nd' = { nd with ppe := nd'.ppe } := by
  obtain ⟨hlen, h1, h18⟩ := packageReply_some hp
  have hpos : nd.ppe.repPos = 0 := by simp [Ppe.r54, hL] at hr; omega
  have hb : bytes.length ≤ 18 := by simpa [hlen] using h18
  have htake := toList_putBytes nd.ppe.rep bytes hb
  have hne : 0 < bytes.length := by omega
  refine ⟨_, by simp only [Node.commit, hF, hL, hp]; rfl, ?_, ?_⟩
  · unfold Node.resume
    split
    · rename_i hst
      simp only at hst
      have hhd : (putBytes nd.ppe.rep 0 bytes).toList.getD 0 0 = bytes.headD 0 := by
        rw [← headD_take _ hne, htake]
      simp only [Node.loadNext, hpos, hne, if_true, Published, Ppe.repBytes, htake, hst, hhd]
      simp
    · rename_i hst
      simp only at hst
      simp [Published, Ppe.repBytes, htake, hst]
  · unfold Node.resume
    split
    · simp only [Node.loadNext]
      repeat' split
      all_goals rfl
    · rfl

/-- `commit` where a reply exists (R290). -/
theorem commit_twice {nd : Node} (rep : List Byte) (h : nd.ppe.repFinal = true ∨ nd.ppe.repLen ≠ 0) :
    nd.commit rep = .error .commitTwice := by
  simp only [Node.commit, if_pos h]

/-- The service of a request whose rule leaves the PPE alone and gives a reply of 1 to 18 bytes: it answers a next
state, in which only the served node changed, and that by the rule and the published reply. -/
theorem serve_published {s : State} {nd : Node} {f : Node → Nat → List Byte × Node} {bytes : List Byte}
    (hs : s.serving nd) (hppe : (f nd s.draws).2.ppe = nd.ppe) (hp : packageReply (f nd s.draws).1 = some bytes) :
    ∃ t nd', s.serve f = .next t ∧ s.onlyNode t s.cur nd' ∧ t.draws = s.draws + 1 ∧ Published nd.ppe nd'.ppe bytes ∧
      nd' = { (f nd s.draws).2 with ppe := nd'.ppe } := by
  obtain ⟨hn, hr, hF, hL⟩ := hs
  have hlt : s.cur < s.nodes.length := (List.getElem?_eq_some_iff.1 hn).1
  obtain ⟨nd', hc, hpub, hrest⟩ :=
    commit_published (nd := (f nd s.draws).2) (hppe ▸ hr) (hppe ▸ hF) (hppe ▸ hL) hp
  refine ⟨_, nd', by
    simp only [State.serve, hn, State.commitAt, draw_nodes, setNode_nodes, List.getElem?_set_self hlt, hc]
    rfl, ?_, ?_, hppe ▸ hpub, hrest⟩
  · simp [State.onlyNode, List.set_set]
  · simp

/-- The service where a reply exists (R290). -/
theorem serve_twice {s : State} {nd : Node} {f : Node → Nat → List Byte × Node} (hn : s.nodes[s.cur]? = some nd)
    (hppe : (f nd s.draws).2.ppe = nd.ppe) (h : nd.ppe.repFinal = true ∨ nd.ppe.repLen ≠ 0) :
    s.serve f = .fault .commitTwice := by
  have hlt : s.cur < s.nodes.length := (List.getElem?_eq_some_iff.1 hn).1
  simp only [State.serve, hn, State.commitAt, draw_nodes, setNode_nodes, List.getElem?_set_self hlt,
    commit_twice _ (hppe.symm ▸ h)]
  rfl

/-- A bit of `REG_CHANGED` that rises sets the notification latch (R38). -/
theorem setChanged_rise {nd : Node} {v : Byte} {k : Nat} (h0 : nd.regs[0].getLsbD k = false) (h1 : v.getLsbD k = true) :
    (nd.setChanged v).notifyPending = true := by
  have hk : k < 8 := BitVec.lt_of_getLsbD h1
  have hne : v &&& ~~~nd.regs[0] ≠ 0 := fun he => by
    have := congrArg (fun x : Byte => x.getLsbD k) he
    rw [BitVec.getLsbD_eq_getElem hk] at h0 h1
    simp [h0, h1, hk] at this
  simp only [Node.setChanged, Bool.or_eq_true, bne_iff_ne]
  exact .inr hne

/-- The notification latch once set stays set (R38). -/
theorem setChanged_keeps {nd : Node} (v : Byte) (h : nd.notifyPending = true) : (nd.setChanged v).notifyPending = true := by
  simp [Node.setChanged, h]

/-- `setChanged` of the collaborator keeps the `CHILD` bit (R37, R38). -/
theorem collabSetChanged_child (nd : Node) (v : Byte) :
    (nd.collabSetChanged v).regs[0] &&& nd.par.childMask = nd.regs[0] &&& nd.par.childMask := by
  have hr : (nd.collabSetChanged v).regs[0] = (v &&& ~~~nd.par.childMask) ||| (nd.regs[0] &&& nd.par.childMask) :=
    Vector.getElem_set_self (by decide)
  rw [hr]
  ext i hi
  simp only [BitVec.getElem_and, BitVec.getElem_or, BitVec.getElem_not]
  generalize nd.par.childMask[i] = m
  cases m <;> simp

/-- The registers a free collaborator leaves before its `setChanged`: `REG_CHANGED` is the protocol core's (R31). -/
theorem redrawApp_eq (nd : Node) (d : Nat) : ∃ mid : Node, nd.redrawApp d = mid.collabSetChanged (Config.freeByte d 0) ∧
    mid.par = nd.par ∧ (nd.notifyPending = true → mid.notifyPending = true) ∧
    ∀ r, nd.par.coreOwned r = true → mid.reg r = nd.reg r := by
  refine ⟨_, rfl, rfl, fun h => by simp [h], fun r h => ?_⟩
  simp [Node.reg, h]

/-- A free collaborator leaves the protocol core's registers (R31), `REG_CHANGED` apart. -/
theorem redrawApp_reg {nd : Node} {r : BitVec 6} (d : Nat) (h : nd.par.coreOwned r = true) (h0 : r ≠ 0) :
    (nd.redrawApp d).reg r = nd.reg r := by
  obtain ⟨mid, he, -, -, hreg⟩ := redrawApp_eq nd d
  have hne : (0 : Nat) ≠ r.toNat := fun h => h0 (BitVec.eq_of_toNat_eq h.symm)
  rw [he, ← hreg r h]
  exact Vector.getElem_set_ne (by decide) r.isLt hne

/-- A free collaborator leaves the `CHILD` bit (R37), never clears the notification latch, and sets it where a bit of
`REG_CHANGED` rises (R38). -/
theorem redrawApp_changed (nd : Node) (d : Nat) :
    (nd.redrawApp d).regs[0] &&& nd.par.childMask = nd.regs[0] &&& nd.par.childMask ∧
    (nd.notifyPending = true → (nd.redrawApp d).notifyPending = true) ∧
    ∀ k, nd.regs[0].getLsbD k = false → (nd.redrawApp d).regs[0].getLsbD k = true →
      (nd.redrawApp d).notifyPending = true := by
  obtain ⟨mid, he, hpar, hn, hreg⟩ := redrawApp_eq nd d
  have h0 : mid.regs[0] = nd.regs[0] := hreg 0 (by simp [Params.coreOwned])
  rw [he, ← hpar, ← h0]
  refine ⟨collabSetChanged_child _ _, fun h => setChanged_keeps _ (hn h), fun k hk h1 => setChanged_rise hk ?_⟩
  rwa [show (mid.collabSetChanged (Config.freeByte d 0)).regs[0] = _ from Vector.getElem_set_self (by decide)] at h1

@[simp] theorem appRegRead_ppe (nd : Node) (r : BitVec 6) (d : Nat) : (nd.appRegRead r d).2.ppe = nd.ppe := by
  unfold Node.appRegRead; split <;> simp

@[simp] theorem appRegWrite_ppe (nd : Node) (r : BitVec 6) (v : Byte) (d : Nat) : (nd.appRegWrite r v d).ppe = nd.ppe := by
  unfold Node.appRegWrite; split <;> simp

@[simp] theorem regValue_ppe (nd : Node) (r : BitVec 6) (d : Nat) : (nd.regValue r d).2.ppe = nd.ppe := by
  unfold Node.regValue; repeat' split
  all_goals simp

@[simp] theorem ctrlWrite_ppe (nd : Node) (v : Byte) : (nd.ctrlWrite v).ppe = nd.ppe := by
  unfold Node.ctrlWrite; simp only; repeat' split
  all_goals rfl

@[simp] theorem regStore_ppe (nd : Node) (r : BitVec 6) (v : Byte) (d : Nat) : (nd.regStore r v d).ppe = nd.ppe := by
  unfold Node.regStore; repeat' split
  all_goals simp

@[simp] theorem programPage_ppe (nd : Node) (b d : Nat) : (nd.programPage b d).ppe = nd.ppe := by
  unfold Node.programPage; simp only; split <;> rfl

@[simp] theorem memWriteBlock_ppe (nd : Node) (b : Nat) (data : List Byte) (d : Nat) :
    (nd.memWriteBlock b data d).2.ppe = nd.ppe := by
  unfold Node.memWriteBlock; repeat' split
  all_goals simp

end Sys2Proof.Machine
end

