-- ==== Sys2Proof/Tests/Slice0.lean ====
section
/-! SUPPORT. The model's own tests. Expected values come from spec/95_test_vectors.md (V-..., L3-...) and from the
encodings of spec/30_encoding.md; each theorem names its source. The `test_witness_` theorems show, for each statement of
Certificates/Slice0 that has hypotheses, a state and operands that meet them together. -/

namespace Sys2Proof.Machine

set_option Elab.async false

/-! ### Helpers -/

/-- Hub 5 with bound 20, and child 9, with plain-storage collaborators (95 section 0). -/
def tHub : Node := { Node.reset .primary 0 5 20 1 with collab := .storage }
def tChild : Node := { Node.reset (.sub 0) 1 9 9 0 with collab := .storage }

/-- A node alone on the primary segment with a validated request of that body, its service step next. -/
def tServed (nd : Node) (body : List Byte) : State :=
  { State.reset with nodes := [nd.withRequest (frameOf body)], agenda := [.coop 0 .service] }

/-- The hub and the child, with one action next. -/
def tNet (h c : Node) (a : Action) : State := { State.reset with nodes := [h, c], agenda := [a] }

def tNode (i : Nat) : Out → Option Node
  | .next s => s.nodes[i]?
  | _ => none

/-- The reply node 0 holds after a step. -/
def tReply (o : Out) : Option (List Byte) := (tNode 0 o).map fun nd => nd.ppe.repBytes

def tIsNext : Out → Bool
  | .next _ => true
  | _ => false

/-- A whole block of bytes v, v+1, ... -/
def tBlock (v : Byte) : List Byte := (List.range 16).map fun i => v + BitVec.ofNat 8 i

def tReg (nd : Node) (r : Nat) (v : Byte) : Node := { nd with regs := nd.regs.setIfInBounds r v }

def tSt (nd : Node) (st : PpeState) : Node := { nd with ppe := { nd.ppe with st := st } }

/-! ### WellFormed: one ill-formed term for each check -/

theorem test_wf_memWrite_short : (Instr.memWrite 0x800 (List.replicate 15 0)).wellFormed = false := by decide +kernel
theorem test_wf_memWrite_long : (Instr.memWrite 0x800 (List.replicate 17 0)).wellFormed = false := by decide +kernel
theorem test_wf_rsvB0 : (Instr.rsvB0 0 0 []).wellFormed = false := by decide +kernel
theorem test_wf_rsvD0 : (Instr.rsvD0 0 0 (List.replicate 15 0)).wellFormed = false := by decide +kernel
theorem test_wf_rsvF0 : (Instr.rsvF0 0 0 (List.replicate 17 0)).wellFormed = false := by decide +kernel
theorem test_wf_block : (Instr.memWrite 0x800 (List.replicate 16 0)).wellFormed = true := by decide +kernel

/-! ### Decoding words written out bit by bit from R111, R112 -/

/-- R111: 00 rrrrrr with r = 101010; a register read has no payload. -/
theorem test_decode_regRead : decode [0b00101010, 0x99] = .ok (.regRead 0b101010, [0x99]) := by decide +kernel
/-- R111: 01 rrrrrr with r = 010000, then the value (V-RQ-4). -/
theorem test_decode_regWrite : decode [0b01010000, 0x5A] = .ok (.regWrite 0b010000 0x5A, []) := by decide +kernel
/-- R119: 1 00 0 bbbb with b = 0001, then the low byte 0010_0011 (V-RQ-6, block 0x123). -/
theorem test_decode_memRead : decode [0b10000001, 0b00100011] = .ok (.memRead 0x123, []) := by decide +kernel
/-- R119: 1 00 1 bbbb with b = 0000, low byte 0xA0, 16 data bytes in order (V-RQ-9, block 0x0A0). -/
theorem test_decode_memWrite :
    decode (0b10010000 :: 0xA0 :: tBlock 0) = .ok (.memWrite 0x0A0 (tBlock 0), []) := by decide +kernel
/-- R118: 1 01 0 xxxx, read-sized (V-RQ-7). -/
theorem test_decode_rsvA0 : decode [0b10100110, 0x11] = .ok (.rsvA0 0b0110 0x11, []) := by decide +kernel
/-- R118: 1 01 1 xxxx, write-sized. -/
theorem test_decode_rsvB0 :
    decode (0b10111001 :: 0x22 :: tBlock 1) = .ok (.rsvB0 0b1001 0x22 (tBlock 1), []) := by decide +kernel
/-- R118: 1 10 0 xxxx, read-sized. -/
theorem test_decode_rsvC0 : decode [0b11000001, 0x33] = .ok (.rsvC0 0b0001 0x33, []) := by decide +kernel
/-- R118: 1 10 1 xxxx, write-sized. -/
theorem test_decode_rsvD0 :
    decode (0b11011000 :: 0x44 :: tBlock 2) = .ok (.rsvD0 0b1000 0x44 (tBlock 2), []) := by decide +kernel
/-- R118: 1 11 0 xxxx, read-sized. -/
theorem test_decode_rsvE0 : decode [0b11101111, 0x55] = .ok (.rsvE0 0b1111 0x55, []) := by decide +kernel
/-- R118: 1 11 1 xxxx, write-sized. -/
theorem test_decode_rsvF0 :
    decode (0b11110000 :: 0x66 :: tBlock 3) = .ok (.rsvF0 0b0000 0x66 (tBlock 3), []) := by decide +kernel
/-- R112: a register write without its value, a memory write one byte short, and no byte at all. -/
theorem test_decode_short :
    decode [0x50] = .error (.shortPayload 0x50) ∧
    decode (0x90 :: 0x00 :: List.replicate 15 0) = .error (.shortPayload 0x90) ∧
    decode [] = .error .noOpcode := by decide +kernel
/-- The opcode table's numbering: the second byte is bits 15..8, and what the table gives no bits is zero. -/
theorem test_decodeTableWord :
    decodeTableWord 16 0x2381 = some (.memRead 0x123) ∧ decodeTableWord 8 0x7F = some (.regWrite 0x3F 0) ∧
    decodeTableWord 8 0x98 = some (.memWrite 0x800 (List.replicate 16 0)) ∧
    decodeTableWord 8 0xB7 = some (.rsvB0 7 0 (List.replicate 16 0)) := by decide +kernel

/-! ### The codec -/

/-- V-C8-1, V-C8-2, V-C8-9 to V-C8-14. -/
theorem test_checksum8 :
    checksum8 [] = 0xBB ∧ checksum8 [0x00] = 0xEF ∧ checksum8 [0x00, 0x02] = 0x9B ∧ checksum8 [0x0F] = 0xB3 ∧
    checksum8 (tBlock 0) = 0xE5 ∧ checksum8 (tBlock 0x10) = 0x64 ∧ checksum8 (List.replicate 16 0) = 0xDA ∧
    checksum8 (List.replicate 16 0xFF) = 0x18 := by decide +kernel
/-- V-C4-1, V-C4-2, V-C4-4 to V-C4-8. -/
theorem test_checksum4 :
    checksum4 [] = 0x1 ∧ checksum4 [0x00] = 0x5 ∧ checksum4 [0x80] = 0xB ∧ checksum4 [0xFF] = 0x1 ∧
    checksum4 [0x3F] = 0x8 ∧ checksum4 [0x50, 0x5A] = 0x7 ∧ checksum4 [0x81, 0x23] = 0x1 := by decide +kernel
/-- V-SZ at the ends of each range. -/
theorem test_sizes :
    [0x00, 0x3F, 0x40, 0x7F, 0x80, 0x8F, 0x90, 0x9F, 0xA0, 0xCF, 0xEF, 0xB0, 0xDF, 0xF0].map requestSize =
      [2, 2, 3, 3, 3, 3, 19, 19, 3, 3, 3, 19, 19, 19] ∧
    [0x00, 0x3F, 0x40, 0x7F, 0x80, 0x8F, 0x90, 0x9F, 0xA0, 0xCF, 0xEF, 0xB0, 0xDF, 0xF0].map replySize =
      [2, 2, 1, 1, 18, 18, 1, 1, 18, 18, 18, 1, 1, 1] := by decide +kernel
/-- V-ST-0 to V-ST-15. -/
theorem test_statusOnly :
    (List.range 16).flatMap (fun c => statusOnly (BitVec.ofNat 4 c)) =
      [0x50, 0x61, 0x32, 0x03, 0x94, 0xA5, 0xF6, 0xC7, 0xE8, 0xD9, 0x8A, 0xBB, 0x2C, 0x1D, 0x4E, 0x7F] := by decide +kernel
/-- V-RQ-1, V-RQ-4, V-RQ-6 to V-RQ-9, V-RQ-13. -/
theorem test_packageRequest :
    frameOf [0x00] = [0xEF, 0x00] ∧ frameOf [0x50, 0x5A] = [0x85, 0x50, 0x5A] ∧
    frameOf [0x81, 0x23] = [0x32, 0x81, 0x23] ∧ frameOf [0xA0, 0x00] = [0xF7, 0xA0, 0x00] ∧
    frameOf [0x80, 0x00] = [0x02, 0x80, 0x00] ∧ (frameOf (0x90 :: 0xA0 :: tBlock 0)).headD 0 = 0xC8 ∧
    (frameOf (0x98 :: 0x00 :: tBlock 0x10)).headD 0 = 0xB8 := by decide +kernel
/-- V-CR-1 to V-CR-5, V-FF-2b at 20. -/
theorem test_checkRequest :
    checkRequest [0xEF, 0x00] 2 = .ok ∧ checkRequest [0xEE, 0x00] 2 = .reqCheckErr ∧
    checkRequest [0xEF] 1 = .incomplete ∧ checkRequest [0x85, 0x50] 2 = .incomplete ∧
    checkRequest [0x85, 0x50, 0x5A, 0x00] 4 = .ok ∧ checkRequest (List.replicate 20 0xFF) 20 = .reqCheckErr := by decide +kernel
/-- V-REP-1 to V-REP-7, V-REP-MEM-1 to V-REP-MEM-4, and the lengths 0 and 19. -/
theorem test_packageReply :
    packageReply [0x00, 0x00] = some [0x20, 0x00] ∧ packageReply [0xF0, 0x02] = some [0x40, 0x02] ∧
    packageReply [0x00, 0x01] = some [0x10, 0x01] ∧ packageReply [0x00, 0x5A] = some [0xD0, 0x5A] ∧
    packageReply [0x00, 0xFF] = some [0x60, 0xFF] ∧ packageReply [0x00, 0xB5] = some [0xC0, 0xB5] ∧
    packageReply [0x00, 0x42] = some [0x30, 0x42] ∧
    packageReply (0x00 :: tBlock 0 ++ [0x00]) = some (0xE0 :: tBlock 0 ++ [0xE5]) ∧
    packageReply (0x00 :: List.replicate 17 0x00) = some (0xB0 :: List.replicate 16 0x00 ++ [0xDA]) ∧
    packageReply (0x00 :: List.replicate 16 0xFF ++ [0x00]) = some (0x30 :: List.replicate 16 0xFF ++ [0x18]) ∧
    packageReply (0x00 :: tBlock 0x10 ++ [0x00]) = some (0x10 :: tBlock 0x10 ++ [0x64]) ∧
    packageReply [] = none ∧ packageReply (List.replicate 19 0) = none := by decide +kernel
/-- V-CP-1 to V-CP-11, V-FF-3 at one byte. -/
theorem test_checkReply :
    checkReply [0x40, 0x02] 0x00 2 = .ok ∧ checkReply [0x41, 0x02] 0x00 2 = .repCheckErr ∧
    checkReply [] 0x00 0 = .incomplete ∧ checkReply [0x50] 0x00 1 = .incomplete ∧
    checkReply [0x61] 0x00 1 = .incomplete ∧ checkReply [0x40, 0x02] 0x40 2 = .repCheckErr ∧
    checkReply [0x8A] 0x00 1 = .repCheckErr ∧ checkReply [0x03, 0xFF] 0x00 2 = .reqCheckErr ∧
    checkReply (0xA5 :: List.replicate 17 0xFF) 0x8B 18 = .illegal ∧
    checkReply (0xE0 :: tBlock 0 ++ [0xE4]) 0x80 18 = .repCheckErr ∧
    checkReply (statusByte 0 (tBlock 0 ++ [0xE4]) :: tBlock 0 ++ [0xE4]) 0x80 18 = .repCheckErr ∧
    checkReply (0xE0 :: tBlock 0 ++ [0xE5]) 0x80 18 = .ok ∧ checkReply [0xFF] 0x50 1 = .noReply := by decide +kernel
/-- R126 with V-E2E-1: the bus events of `SEND 5, [EF 00]` and of `FETCH 5, 2`. -/
theorem test_exchangeEvents :
    exchangeEvents 5 [0x00] =
      ([.start, .sclLow, .addr 5 false, .ackEnd, .wbyte 0xEF, .ackEnd, .wbyte 0x00, .ackEnd, .stop],
       [.start, .sclLow, .addr 5 true, .ackEnd, .rbyte, .mack true, .ackEnd, .rbyte, .mack false, .ackEnd, .stop]) := by
  decide +kernel
/-- V-HM. -/
theorem test_hubMembership :
    [0, 4, 5, 6, 9, 20, 21, 127].map tHub.isChild = [false, false, false, true, true, true, false, false] ∧
    { tHub with cfg := { tHub.cfg with hubMax := 3 } }.isChild 4 = false ∧
    { tHub with ident := { tHub.ident with caps := 0 } }.isChild 9 = false := by decide +kernel

/-! ### The requests (V-SV), each as one step -/

/-- V-SV-2: the summary is read, and its `CHILD` bit cleared. -/
theorem test_regRead_changed :
    tReply (step (tServed (tReg tHub 0 0x03) [0x00])) = some [0x70, 0x03] ∧
    (tNode 0 (step (tServed (tReg tHub 0 0x03) [0x00]))).map (·.reg 0) = some 0x02 := by decide +kernel
/-- V-SV-3: `REG_MAGIC`, whatever is stored under it. -/
theorem test_regRead_magic : tReply (step (tServed (tReg tHub 0x3F 0x11) [0x3F])) = some [0x30, 0x42] := by decide +kernel
/-- V-SV-4. -/
theorem test_regWrite_app :
    tReply (step (tServed tHub [0x50, 0x5A])) = some [0x50] ∧
    (tNode 0 (step (tServed tHub [0x50, 0x5A]))).map (·.reg 0x10) = some 0x5A := by decide +kernel
/-- V-SV-11, and R188 with `CTRL_SWITCH` (EX: 0x02 to 0x3E). -/
theorem test_regWrite_core :
    (tNode 0 (step (tServed (tReg tHub 0 0x02) [0x40, 0xFF]))).map (·.reg 0) = some 0x02 ∧
    (tNode 0 (step (tServed tHub [0x7E, 0x02]))).map (·.rebootReq) = some .switch := by decide +kernel
/-- V-SV-10: a block of working storage holding 10..1F. -/
theorem test_memRead_ram :
    tReply (step (tServed { tHub with mem := Memory.writeBytes [] 0x8000 (tBlock 0x10) } [0x88, 0x00])) =
      some (0x10 :: tBlock 0x10 ++ [0x64]) := by decide +kernel
/-- V-SV-6: an unmapped block. -/
theorem test_memRead_unmapped : tReply (step (tServed tHub [0x8B, 0x00])) = some [0xA5] := by decide +kernel
/-- V-SV-9: the first and the last byte of the block. -/
theorem test_memWrite_ram :
    tReply (step (tServed tHub (0x98 :: 0x00 :: tBlock 0x10))) = some [0x50] ∧
    (tNode 0 (step (tServed tHub (0x98 :: 0x00 :: tBlock 0x10)))).map (fun n => (n.readByte 0x8000, n.readByte 0x800F)) =
      some (0x10, 0x1F) := by decide +kernel
/-- V-SV-5, V-SV-7 and L3-6: locked program storage, identity, and the protected range while unlocked. -/
theorem test_memWrite_forbidden :
    tReply (step (tServed tHub (0x91 :: 0x00 :: tBlock 0))) = some [0xF6] ∧
    tReply (step (tServed tHub (0x9A :: 0x00 :: tBlock 0))) = some [0xF6] ∧
    tReply (step (tServed (tReg tHub 0x3D 0xA5) (0x90 :: 0x10 :: tBlock 0))) = some [0xF6] := by decide +kernel
/-- V-SV-8, and the other reserved kinds of R118. -/
theorem test_rsvA0 : tReply (step (tServed tHub [0xA0, 0x00])) = some [0xA5] := by decide +kernel
theorem test_rsvB0 : tReply (step (tServed tHub (0xB0 :: 0x00 :: tBlock 0))) = some [0xA5] := by decide +kernel
theorem test_rsvC0 : tReply (step (tServed tHub [0xC0, 0x00])) = some [0xA5] := by decide +kernel
theorem test_rsvD0 : tReply (step (tServed tHub (0xD0 :: 0x00 :: tBlock 0))) = some [0xA5] := by decide +kernel
theorem test_rsvE0 : tReply (step (tServed tHub [0xE0, 0x00])) = some [0xA5] := by decide +kernel
theorem test_rsvF0 : tReply (step (tServed tHub (0xF0 :: 0x00 :: tBlock 0))) = some [0xA5] := by decide +kernel
/-- L3-6: the last block of page 0x40 programs all four, and a single block does not. -/
theorem test_programPage :
    (tNode 0 (step (tServed { tReg tHub 0x3D 0xA5 with
        progPending := [0x100, 0x101, 0x102]
        progBuf := Memory.writeBytes [] 0x1000 (tBlock 0 ++ tBlock 0x10 ++ tBlock 0x20) } (0x91 :: 0x03 :: tBlock 0x30)))).map
      (fun n => (n.progPending, n.progBuf, n.readByte 0x1000, n.readByte 0x101F, n.readByte 0x103F)) =
      some ([], [], 0x00, 0x1F, 0x3F) ∧
    (tNode 0 (step (tServed (tReg tHub 0x3D 0xA5) (0x91 :: 0x01 :: tBlock 0)))).map (fun n => (n.progPending, n.mem)) =
      some ([0x101], []) := by decide +kernel
/-- Every row runs as the first instruction after reset: the step answers a next state. -/
theorem test_first_step :
    [0x00, 0x40, 0x80, 0x90, 0xA0, 0xB0, 0xC0, 0xD0, 0xE0, 0xF0].all
      (fun w => tIsNext (step (State.reset.withFetchWord 8 w))) = true := by decide +kernel

/-! ### The PPE, the bus, the hub and the resets, each as one step -/

/-- V-PPE-11: a corrupt request is answered `[0x03]` at the validate step. -/
theorem test_validate_bad :
    tReply (step { State.reset with
      nodes := [{ tHub with ppe := { (tHub.withRequest [0xEE, 0x00]).ppe with reqSt := .unchecked } }]
      agenda := [.coop 0 .validate] }) = some [0x03] := by decide +kernel
/-- V-PPE-8: reading an incomplete request loads 0x61. -/
theorem test_loadNext_incomplete :
    ({ tHub with ppe := { Ppe.reset with req := putBytes Ppe.reset.req 0 [0x85, 0x50], reqLen := 2, cycAddr := some 5 } }
      : Node).loadNext.ppe.shift = 0x61 := by decide +kernel
/-- R225: the bitwise AND of two senders, and 0xFF with none. -/
theorem test_readValue :
    let a := { tHub with ppe := { Ppe.reset with st := .sending, shift := 0xF3 } }
    let b := { tChild with seg := .primary, ppe := { Ppe.reset with st := .sending, shift := 0x3F } }
    { State.reset with nodes := [a, b] }.response .primary .rbyte = some (.byte 0x33) ∧
    State.reset.response .primary .rbyte = some (.byte 0xFF) := by decide +kernel
/-- R280, R223: an address nobody has gets NACK and leaves the node `Idle` (V-PPE-9). -/
theorem test_address_nack :
    let s := { State.reset with
      nodes := [{ tSt tHub .addressing with ppe := { (tSt tHub .addressing).ppe with busBusy := true } }]
      primary := .clocked, agenda := [.host (.addr 4 false)] }
    (match step s with
      | .next t => (t.hostLog, t.primary, (t.nodes[0]?).map fun n => (n.ppe.st, n.ppe.busBusy, n.ppe.cycAddr))
      | _ => ([], .idle, none)) = ([.addrAck false], .addrAck false, some (.idle, true, none)) := by decide +kernel
/-- R190: the resurrection command in a node without `HUB_CAPABLE` is stored and does nothing else. -/
theorem test_resurrect_not_hub :
    (tNode 0 (step (tServed { tChild with seg := .primary } [0x7E, 0x03]))).map (fun n => (n.reg 0x3E, n.hfe.resurrectReq)) =
      some (0x03, false) := by decide +kernel
/-- R189, EX: a switch from the operational half reboots into the maintenance half. -/
theorem test_reboot_switch :
    (tNode 0 (step { State.reset with nodes := [{ tHub with rebootReq := .switch }], agenda := [.coop 0 .reboot] })).map
      (·.execHalf) = some .maintenance := by decide +kernel

/-- R285: a drained node with the rule's four conditions begins its notification, and its cycle is as it was. -/
theorem test_notifyBegin_drained :
    let c := fun d => { tChild with notifyPending := true, ppe := { Ppe.reset with
      drained := d, repFinal := true, reqSt := .answered, repLen := 1, cycAddr := some 9 } }
    (tNode 1 (step (tNet tHub (c true) (.coop 1 .notifyBegin)))).map (fun n => (n.ppe.st, n.ppe.drained, n.ppe.cycAddr)) =
      some (.notifying, true, some 9) ∧
    (tNode 1 (step (tNet tHub (c false) (.coop 1 .notifyBegin)))).map (fun n => (n.ppe.st, n.ppe.cycAddr)) =
      some (.notifying, some 9) := by decide +kernel
/-- R263, R283: the clear step of a drained node that is `Notifying` empties its buffers and leaves the pulse alone. -/
theorem test_clear_notifying :
    let c := { tChild with notifyPending := true, ppe := { Ppe.reset with
      st := .notifying, drained := true, repFinal := true, reqSt := .answered, repLen := 1, cycAddr := some 9 } }
    (tNet tHub c (.coop 1 .clear)).coherent = true ∧
    (tNode 1 (step (tNet tHub c (.coop 1 .clear)))).map (fun n => (n.ppe.st, n.ppe.drained, n.ppe.cycAddr)) =
      some (.notifying, false, none) := by decide +kernel
/-- R402: the reset of a hub inside a secondary transaction stops a receiving child and leaves a stalled one. -/
theorem test_hub_reset_stops_children :
    let h := { tHub with sec := .readData }
    let c := fun st => { tChild with ppe := { Ppe.reset with st := st, busBusy := true, cycAddr := some 9, readSeen := true } }
    (tNode 1 (step (tNet h (c .sending) (.powerOn 0)))).map (fun n => (n.ppe.st, n.ppe.busBusy)) = some (.idle, false) ∧
    (tNode 1 (step (tNet h (c .sendingStalled) (.powerOn 0)))).map (fun n => (n.ppe.st, n.ppe.busBusy)) =
      some (.sendingStalled, true) := by decide +kernel

/-! ### Witnesses: for each statement with hypotheses, a state and operands that meet them together -/

/-- The node of `tServed`, and the state with it current. -/
theorem tServed_serving (nd : Node) (body : List Byte) (h : (nd.withRequest (frameOf body)).ppe.r54 = true) :
    (tServed nd body).serving (nd.withRequest (frameOf body)) := ⟨rfl, h, rfl, rfl⟩

/-- The hub in a child cycle with the complete request `EF 00`, and what varies in the witnesses below. -/
def tHubCyc (a : BitVec 7) (f : Hfe → Hfe) (sec : BusPhase) : Node :=
  { tHub with
    ppe := { Ppe.reset with
      req := putBytes Ppe.reset.req 0 [0xEF, 0x00], reqLen := 2, reqSt := .unchecked, cycAddr := some a, readSeen := true }
    hfe := f Hfe.reset
    sec := sec }

/-- The child in its own cycle, in a control state of its segment. -/
def tChildCyc (st : PpeState) (reqLen : Nat) : Node :=
  { tChild with ppe := { Ppe.reset with
      st := st, req := putBytes Ppe.reset.req 0 [0xEF, 0x00], reqLen := reqLen
      reqSt := if reqLen = 2 then .unchecked else .accumulating, cycAddr := some 9, busBusy := true } }

/-- The child sending the reply `40 02`, its byte `pos - 1` loaded. -/
def tChildSend (pos : Nat) (b : Byte) : Node :=
  { tChild with ppe := { Ppe.reset with
      st := .sending, req := putBytes Ppe.reset.req 0 [0xEF, 0x00], reqLen := 2, reqSt := .answered
      rep := putBytes Ppe.reset.rep 0 [0x40, 0x02], repLen := 2, repPos := pos, repFinal := true
      cycAddr := some 9, dir := true, readSeen := true, busBusy := true, shift := b } }

theorem test_witness_SizesByOpcode :
    (0x3F : Byte).getLsbD 7 = false ∧ (0x3F : Byte).getLsbD 6 = false ∧
    (0x40 : Byte).getLsbD 7 = false ∧ (0x40 : Byte).getLsbD 6 = true ∧
    (0xEF : Byte).getLsbD 7 = true ∧ (0xEF : Byte).getLsbD 4 = false ∧
    (0x90 : Byte).getLsbD 7 = true ∧ (0x90 : Byte).getLsbD 4 = true ∧ Code.noReply ≠ .ok := by decide
theorem test_witness_PackagedRequestChecks :
    ([] : List Byte).length + 2 = requestSize 0x3F ∧ requestSize 0x3F ≤ 2 ∧
    (List.replicate 17 (0xFF : Byte)).length + 2 = requestSize 0xFF ∧ requestSize 0xFF ≤ 20 := by decide
theorem test_witness_StuckBusNeverAccepted : (0 < 19 ∧ 18 < 19) ∧ (19 ≤ 19 ∧ 19 ≤ 20) ∧ 1 ≤ 1 := by decide
theorem test_witness_PackagedReplyChecks :
    (List.replicate 17 (0x00 : Byte)).length + 1 = replySize 0x80 ∧
    packageReply (codeByte .ok :: List.replicate 17 0x00) = some (0xB0 :: List.replicate 16 0x00 ++ [0xDA]) ∧
    (0xB0 :: List.replicate 16 (0x00 : Byte) ++ [0xDA]).length ≤ 18 ∧ Code.noReply ≠ .ok ∧ 1 ≤ 1 := by decide +kernel
theorem test_witness_OneDataByteChangeDetected :
    (0x80 : Byte).getLsbD 7 = true ∧ (0x80 : Byte).getLsbD 4 = false ∧ (tBlock 0).length = 16 ∧ 15 < 16 ∧
    (0x0E : Byte) ≠ (tBlock 0).getD 15 0 := by decide
theorem test_witness_HubMembershipLaw :
    { tHub with cfg := { tHub.cfg with hubMax := 5 } }.cfg.hubMax.toNat ≤ tHub.cfg.ownAddr.toNat ∧
    (tSt tHub .addressing).ppe.st = .addressing := by decide
theorem test_witness_DecodeOfEncode : (Instr.rsvF0 0xF 0xFF (tBlock 0)).wellFormed = true := by decide
theorem test_witness_EncodeOfDecode : decode [0xA0, 0x00, 0x77] = .ok (.rsvA0 0 0, [0x77]) := by decide
theorem test_witness_EveryOpcodeDecodes :
    requestSize 0x9F ≤ (List.replicate 17 (0 : Byte)).length + 2 ∧
    (List.replicate 16 (0 : Byte)).length + 2 < requestSize 0x9F := by decide
theorem test_witness_ValidRequestDecodesWhole :
    (tHub.withRequest (frameOf [0x50, 0x5A])).ppe.r54 = true ∧
    (tHub.withRequest (frameOf [0x50, 0x5A])).ppe.reqSt = .valid := by decide +kernel
theorem test_witness_StepServesDecodedRequest :
    (tServed tHub [0x50, 0x5A]).r54 = true ∧ (tServed tHub [0x50, 0x5A]).nextAction = some (.coop 0 .service) ∧
    (tServed tHub [0x50, 0x5A]).nodes[0]? = some (tHub.withRequest (frameOf [0x50, 0x5A])) ∧
    (tHub.withRequest (frameOf [0x50, 0x5A])).serviceEnabled = true ∧
    decode (tHub.withRequest (frameOf [0x50, 0x5A])).ppe.body = .ok (.regWrite 0x10 0x5A, []) := by decide +kernel
theorem test_witness_RegReadResult :
    (tServed tHub [0x00]).serving (tHub.withRequest (frameOf [0x00])) ∧ (0x3F : BitVec 6) = tHub.par.regMagic ∧
    (0x10 : BitVec 6) ≠ tHub.par.regMagic ∧ tHub.quiet 0x10 ∧ (Node.reset .primary 0 5 20 1).quiet 0 ∧
    tHub.par.coreOwned 0x3E = true :=
  ⟨tServed_serving tHub [0x00] (by decide +kernel), by decide, by decide, Or.inr rfl, Or.inl (by decide), by decide⟩
theorem test_witness_RegReadFrame :
    (tServed tHub [0x10]).nodes[(tServed tHub [0x10]).cur]? = some (tHub.withRequest (frameOf [0x10])) ∧
    tIsNext (exec (.regRead 0x10) (tServed tHub [0x10])) = true ∧ (0x10 : BitVec 6) ≠ 0 ∧
    tHub.par.region (0x7FFF / 16) ≠ .ram ∧ tHub.par.region (0x8000 / 16) = .ram := by decide +kernel
/-- R31, R93: a read of a free collaborator's register leaves a core register, and working storage free. -/
theorem test_regRead_free :
    (tNode 0 (step (tServed { tReg (Node.reset .primary 0 5 20 1) 0x3E 0x55 with mem := [(0x8000, 1), (0x9000, 2)] } [0x10]))).map
      (fun n => (n.reg 0x3E, n.mem, n.memEpoch)) = some (0x55, [(0x9000, 2)], 1) := by decide +kernel
theorem test_witness_RegWriteResult :
    (tServed tHub [0x7E, 0x02]).serving (tHub.withRequest (frameOf [0x7E, 0x02])) ∧ tHub.par.wf = true ∧
    (0x3E : BitVec 6) = tHub.par.regCtrl ∧ (0x02 : Byte) = tHub.par.ctrlSwitch ∧ tHub.par.coreOwned 0x3E = true :=
  ⟨tServed_serving tHub [0x7E, 0x02] (by decide +kernel), by decide⟩
/-- The other two commands of `REG_CTRL`, and the resurrection command in a hub. -/
theorem test_witness_RegWriteResult_commands :
    (0x01 : Byte) = tHub.par.ctrlReboot ∧ (0x01 : Byte) ≠ tHub.par.ctrlSwitch ∧ (0x03 : Byte) = tHub.par.ctrlResurrect ∧
    tHub.hubCapable = true ∧ tHub.hfe.resurrectReq = false ∧
    (tNode 0 (step (tServed tHub [0x7E, 0x01]))).map (·.rebootReq) = some .keep ∧
    (tNode 0 (step (tServed tHub [0x7E, 0x03]))).map (·.hfe.resurrectReq) = some true := by decide +kernel
theorem test_witness_RegWriteFrame :
    (tServed tHub [0x50, 0x5A]).nodes[(tServed tHub [0x50, 0x5A]).cur]? = some (tHub.withRequest (frameOf [0x50, 0x5A])) ∧
    tIsNext (exec (.regWrite 0x10 0x5A) (tServed tHub [0x50, 0x5A])) = true ∧ (0x10 : BitVec 6) ≠ tHub.par.regCtrl := by
  decide +kernel
theorem test_witness_MemReadResult :
    (tServed tHub [0x88, 0x00]).serving (tHub.withRequest (frameOf [0x88, 0x00])) ∧
    tHub.par.region (0xB00#12).toNat = .unmapped ∧ tHub.par.region (0xFFF#12).toNat = .unmapped ∧
    tHub.par.region (0xAFF#12).toNat ≠ .unmapped ∧ ¬ (0xAFF ∈ tHub.progPending) :=
  ⟨tServed_serving tHub [0x88, 0x00] (by decide +kernel), by decide +kernel⟩
theorem test_witness_MemWriteForbidden :
    (tServed tHub (0x91 :: 0x00 :: tBlock 0)).serving (tHub.withRequest (frameOf (0x91 :: 0x00 :: tBlock 0))) ∧
    tHub.par.region (0xB00#12).toNat = .unmapped ∧ tHub.par.region (0xAFF#12).toNat = .ident ∧
    tHub.par.region (0x03F#12).toNat = .prog ∧ tHub.par.isProtected (0x03F#12).toNat = true ∧
    tHub.par.halfOf (0x400#12).toNat = tHub.execHalf ∧ tHub.reg tHub.par.regUnlock ≠ tHub.par.unlockKey :=
  ⟨tServed_serving tHub (0x91 :: 0x00 :: tBlock 0) (by decide +kernel), by decide +kernel⟩
theorem test_witness_MemWriteStores :
    (tServed tHub (0x98 :: 0x00 :: tBlock 0)).serving (tHub.withRequest (frameOf (0x98 :: 0x00 :: tBlock 0))) ∧
    (tBlock 0).length = 16 ∧ tHub.par.region (0x8FF#12).toNat = .ram ∧ tHub.par.region (0x900#12).toNat = .config :=
  ⟨tServed_serving tHub (0x98 :: 0x00 :: tBlock 0) (by decide +kernel), by decide +kernel⟩
/-- A block of page 0x40 whose fellows are pending; one whose fellows are not is the same with nothing pending. -/
theorem test_witness_ProgramPageBatching :
    let nd : Node := { tReg tHub 0x3D 0xA5 with progPending := [0x100, 0x101, 0x102] }
    (tServed nd (0x91 :: 0x03 :: tBlock 0)).serving (nd.withRequest (frameOf (0x91 :: 0x03 :: tBlock 0))) ∧
    nd.par.wf = true ∧ nd.par.region (0x103#12).toNat = .prog ∧ nd.reg nd.par.regUnlock = nd.par.unlockKey ∧
    nd.par.isProtected (0x103#12).toNat = false ∧ nd.par.halfOf (0x103#12).toNat ≠ nd.execHalf ∧
    (nd.par.samePage 0x103 0x100 ∧ 0x100 ≠ 0x103 ∧ 0x100 ∉ tHub.progPending) ∧
    0x1004 / 16 ≠ (0x103#12).toNat ∧ ¬ nd.par.samePage 0x103 (0x1044 / 16) ∧
    (∀ b, nd.par.samePage 0x103 b → b = 0x103 ∨ b ∈ nd.progPending) := by
  intro nd
  refine ⟨tServed_serving nd (0x91 :: 0x03 :: tBlock 0) (by decide +kernel), by decide +kernel, by decide +kernel,
    by decide +kernel, by decide +kernel, by decide +kernel, ⟨⟨by decide, by decide +kernel, by decide⟩, by decide, by decide⟩, by decide,
    fun h => absurd h.2.2 (by decide), ?_⟩
  rintro b ⟨-, -, hb⟩
  have hb' : b / 4 = 0x103 / 4 := hb
  have : b = 0x100 ∨ b = 0x101 ∨ b = 0x102 ∨ b = 0x103 := by omega
  rcases this with rfl | rfl | rfl | rfl <;> decide
theorem test_witness_ReservedAnswersIllegal :
    (tServed tHub [0xC0, 0x00]).serving (tHub.withRequest (frameOf [0xC0, 0x00])) :=
  tServed_serving tHub [0xC0, 0x00] (by decide +kernel)
theorem test_witness_CommitPublishes :
    (tHub.ppe.repFinal = false ∧ tHub.ppe.repLen = 0) ∧ (tChildSend 1 0).ppe.repFinal = true ∧
    (List.replicate 19 (0 : Byte)).length > 18 ∧ (List.replicate 18 (0 : Byte)).length ≤ 18 := by decide
theorem test_witness_WrittenByteAccumulates :
    (tChildCyc .receiving 1).ppe.r54 = true ∧ (tChildCyc .receiving 1).ppe.st = .receiving ∧
    (tChildCyc .receiving 1).ppe.reqSt = .accumulating ∧ (tChildCyc .receiving 2).ppe.r54 = true ∧
    (tChildCyc .receiving 2).ppe.reqSt ≠ .accumulating := by decide +kernel
theorem test_witness_NextOutputByte :
    ((tChildSend 1 0).ppe.repPos < (tChildSend 1 0).ppe.repLen ∧ (tChildSend 1 0).ppe.repLen ≤ 18) ∧
    ((tChildSend 2 0).ppe.repLen ≤ (tChildSend 2 0).ppe.repPos ∧ (tChildSend 2 0).ppe.repFinal = true) ∧
    ((tChildCyc .receiving 1).ppe.repLen = 0 ∧ (tChildCyc .receiving 1).ppe.repFinal = false ∧
      (tChildCyc .receiving 1).ppe.reqSt = .accumulating ∧ (tChildCyc .receiving 1).childCycle = false) ∧
    ((tHubCyc 9 id .idle).ppe.repLen ≤ (tHubCyc 9 id .idle).ppe.repPos ∧ (tHubCyc 9 id .idle).ppe.repFinal = false ∧
      (tHubCyc 9 id .idle).childCycle = true) := by decide +kernel
theorem test_witness_AddressPhase :
    (tSt tHub .addressing).ppe.st = .addressing ∧ (tSt tHub .addressing).matches 21 = false ∧
    (tSt tHub .addressing).matches 20 = true := by decide
theorem test_witness_StartKeepsUndrainedCycle :
    (tSt tHub .notifying).ppe.st ∈ [PpeState.idle, .startDetected, .addressing, .receiving, .sending, .notifying] ∧
    (tSt tHub .notifying).ppe.drained = false ∧
    { (tChildSend 2 0).ppe with st := .idle, drained := true }.drained = true := by decide
theorem test_witness_StopAndIgnoredEvents :
    (tSt tHub .sending).ppe.st ∈ [PpeState.idle, .startDetected, .addressing, .receiving, .sending] ∧
    tHub.ppe.st = .idle ∧ BusEvent.notify ≠ .start ∧ BusEvent.notify ≠ .stop := by decide
theorem test_witness_ReadAcknowledgeDrains : (tChildSend 2 0x02).ppe.st = .sending := by decide
theorem test_witness_ClearStepEndsCycle :
    let nd : Node := { tChildSend 2 0 with ppe := { (tChildSend 2 0).ppe with st := .idle, drained := true } }
    (tNet tHub nd (.coop 1 .clear)).r54 = true ∧ (tNet tHub nd (.coop 1 .clear)).nextAction = some (.coop 1 .clear) ∧
    (tNet tHub nd (.coop 1 .clear)).nodes[1]? = some nd ∧ nd.ppe.drained = true := by decide +kernel
/-- A request with a right check byte, one (V-PPE-11) with a wrong one, and a child's. -/
theorem test_witness_ValidateStepChecks :
    let nd := tChildCyc .idle 2
    let bad : Node := { nd with ppe := { nd.ppe with req := putBytes nd.ppe.req 0 [0xEE] } }
    (tNet tHub nd (.coop 1 .validate)).r54 = true ∧
    (tNet tHub nd (.coop 1 .validate)).nextAction = some (.coop 1 .validate) ∧
    (tNet tHub nd (.coop 1 .validate)).nodes[1]? = some nd ∧ nd.ppe.reqSt = .unchecked ∧ nd.childCycle = false ∧
    nd.ppe.repLen = 0 ∧ nd.ppe.reqBytes.headD 0 = checksum8 (nd.ppe.reqBytes.drop 1) ∧
    (tNet tHub bad (.coop 1 .validate)).r54 = true ∧ bad.ppe.reqSt = .unchecked ∧
    bad.ppe.reqBytes.headD 0 ≠ checksum8 (bad.ppe.reqBytes.drop 1) ∧ (tHubCyc 9 id .idle).ppe.reqSt = .unchecked ∧
    (tHubCyc 9 id .idle).childCycle = true := by decide +kernel
theorem test_witness_CommitPartialAppends :
    tHub.ppe.repFinal = false ∧ tHub.ppe.repLen + (List.replicate 18 (0 : Byte)).length ≤ 18 ∧
    18 < tHub.ppe.repLen + (List.replicate 19 (0 : Byte)).length ∧ (tSt tHub .sendingStalled).ppe.st = .sendingStalled := by
  decide
theorem test_witness_AnsweredReplyIsStable :
    (tNet tHub (tChildSend 1 0) (.coop 1 .service)).nodes[1]? = some (tChildSend 1 0) ∧
    (tChildSend 1 0).ppe.repFinal = true ∧ (tChildSend 1 0).ppe.drained = false ∧
    Action.isReset (tNet tHub (tChildSend 1 0) (.coop 1 .service)).nextAction = false ∧
    tIsNext (step (tNet tHub (tChildSend 1 0) (.coop 1 .service))) = true := by decide +kernel
/-- The collaborator of the child raises `DIN`. -/
theorem test_witness_RaisedChangedBitNotifies :
    let s := tNet tHub tChild (.collab 1 (.setChanged 0x02))
    s.nodes[1]? = some tChild ∧ tChild.regs[0].getLsbD 1 = false ∧
    (tNode 1 (step s)).map (fun nd => nd.regs[0].getLsbD 1) = some true := by decide +kernel
theorem test_witness_HeldSegmentBlocksHost :
    let nd : Node := { tHubCyc 9 id .idle with ppe := { (tHubCyc 9 id .idle).ppe with st := .sendingStalled, busBusy := true } }
    (tNet nd tChild (.host .rbyte)).r54 = true ∧ (tNet nd tChild (.host .rbyte)).nextAction = some (.host .rbyte) ∧
    nd ∈ (tNet nd tChild (.host .rbyte)).nodes ∧ nd.seg = .primary ∧ nd.ppe.st = .sendingStalled := by decide +kernel
theorem test_witness_HeldSegmentBlocksHost_free :
    (tNet tHub tChild (.host .start)).coherent = true ∧ (tNet tHub tChild (.host .start)).nextAction = some (.host .start) ∧
    (tNet tHub tChild (.host .start)).held .primary = false ∧
    (tNet tHub tChild (.host .start)).primary.next .start = some .started := by decide +kernel
/-- A start on the secondary segment, and a written byte on the primary one. -/
theorem test_witness_CombinedResponses :
    let s := tNet tHub (tSt tChild .notifying) (.hub 0 .forward)
    let p := { tNet (tSt tHub .receiving) tChild (.host (.wbyte 7)) with primary := .writeData }
    (s.phase (.sub 0)).next .start = some .started ∧
    (∀ nd ∈ s.nodes, nd.seg = .sub 0 → edgeApplies nd.ppe.st .start = true) ∧ 0 < s.nodes.length ∧
    (p.phase .primary).next (.wbyte 7) = some .writeAck ∧
    (∀ nd ∈ p.nodes, nd.seg = .primary → edgeApplies nd.ppe.st (.wbyte 7) = true) := by decide +kernel
theorem test_witness_EventOutsideGrammarRefused :
    (State.reset.phase (.sub 0)).next .rbyte = none ∧ (tNet tHub tChild (.host .stop)).r54 = true ∧
    (tNet tHub tChild (.host .stop)).nextAction = some (.host .stop) ∧
    (tNet tHub tChild (.host .stop)).held .primary = false ∧ (tNet tHub tChild (.host .stop)).primary.next .stop = none := by
  decide +kernel
theorem test_witness_NotifyReachesHub :
    let c : Node := { tSt tChild .notifying with notifyPending := true }
    let s := tNet tHub c (.coop 1 .notifyEnd)
    s.r54 = true ∧ s.nextAction = some (.coop 1 .notifyEnd) ∧ s.nodes[1]? = some c ∧ c.seg = .sub 0 ∧
    s.nodes[0]? = some tHub ∧ c.ppe.st = .notifying ∧ tHub.sec = .idle ∧ s.held (.sub 0) = false := by decide +kernel
theorem test_witness_NotifyReachesHub_primary :
    let h : Node := { tSt tHub .notifying with notifyPending := true }
    let s := tNet h tChild (.coop 0 .notifyEnd)
    s.r54 = true ∧ s.nextAction = some (.coop 0 .notifyEnd) ∧ s.nodes[0]? = some h ∧ h.seg = .primary ∧
    h.ppe.st = .notifying ∧ s.primary = .idle ∧ s.held .primary = false := by decide +kernel
/-- A pending node, and a pending node that is drained. -/
theorem test_witness_NotifyReachesHub_begin :
    let c : Node := { tChild with notifyPending := true }
    let d : Node := { tChildSend 2 0 with
      notifyPending := true, ppe := { (tChildSend 2 0).ppe with st := .idle, drained := true, busBusy := false } }
    let s := tNet tHub c (.coop 1 .notifyBegin)
    s.r54 = true ∧ s.nextAction = some (.coop 1 .notifyBegin) ∧ s.nodes[1]? = some c ∧ c.notifyPending = true ∧
    c.ppe.st = .idle ∧ c.ppe.busBusy = false ∧ c.ppe.drained = false ∧ s.held c.seg = false ∧
    (tNet tHub d (.coop 1 .notifyBegin)).r54 = true ∧ (tNet tHub d (.coop 1 .notifyBegin)).nodes[1]? = some d ∧
    d.notifyPending = true ∧ d.ppe.st = .idle ∧ d.ppe.busBusy = false ∧ d.ppe.drained = true ∧
    (tNet tHub d (.coop 1 .notifyBegin)).held d.seg = false ∧ tHub.notifyPending = false := by decide +kernel
theorem test_witness_LockedSegmentAnswersNoBus :
    let s := tNet (tHubCyc 9 id .idle) (tSt tChild .notifying) (.hub 0 (.openTx false))
    s.r54 = true ∧ s.nextAction = some (.hub 0 (.openTx false)) ∧ s.nodes[0]? = some (tHubCyc 9 id .idle) ∧
    (tHubCyc 9 id .idle).openEnabled = true ∧ (tHubCyc 9 id .idle).ppe.repFinal = false ∧
    (tHubCyc 9 id .idle).ppe.repLen = 0 ∧ s.secLocked 0 false = true := by decide +kernel
theorem test_witness_LockedSegmentAnswersNoBus_resurrection :
    let h := tHubCyc 9 (fun f => { f with st := .resurrection }) .idle
    let s := tNet h tChild (.hub 0 .noBus)
    s.r54 = true ∧ s.nextAction = some (.hub 0 .noBus) ∧ s.nodes[0]? = some h ∧ h.hfe.st = .resurrection ∧
    h.childCycle = true ∧ h.hfe.fwdStarted = false ∧ 1 ≤ h.ppe.reqLen ∧ h.ppe.repFinal = false ∧ h.ppe.repLen = 0 := by
  decide +kernel
theorem test_witness_AbsentChildAnswersNoDevice :
    let s := tNet (tHubCyc 10 id .idle) tChild (.hub 0 (.openTx false))
    s.coherent = true ∧ s.nextAction = some (.hub 0 (.openTx false)) ∧ s.nodes[0]? = some (tHubCyc 10 id .idle) ∧
    (tHubCyc 10 id .idle).openEnabled = true ∧ (tHubCyc 10 id .idle).ppe.cycAddr = some 10 ∧
    s.secLocked 0 false = false ∧ ∀ m ∈ s.nodes, m.seg = .sub 0 → m.matches 10 = false := by decide +kernel
theorem test_witness_OpenStepStartsForwarding :
    let s := tNet (tHubCyc 9 id .idle) tChild (.hub 0 (.openTx false))
    s.coherent = true ∧ s.nextAction = some (.hub 0 (.openTx false)) ∧ s.nodes[0]? = some (tHubCyc 9 id .idle) ∧
    (tHubCyc 9 id .idle).openEnabled = true ∧ (tHubCyc 9 id .idle).ppe.cycAddr = some 9 ∧
    s.secLocked 0 false = false ∧ tChild ∈ s.nodes ∧ tChild.seg = .sub 0 ∧ tChild.matches 9 = true := by decide +kernel
/-- The first byte, with the child receiving; and the same with the child `Idle`. -/
theorem test_witness_ForwardStepPassesByte :
    let h := tHubCyc 9 (fun f => { f with st := .requestForwarding, fwdStarted := true, fwdPos := 1 }) .writeData
    let s := tNet h (tChildCyc .receiving 1) (.hub 0 .forward)
    s.coherent = true ∧ s.nextAction = some (.hub 0 .forward) ∧ s.nodes[0]? = some h ∧ h.hfe.st = .requestForwarding ∧
    h.hfe.fwdPos < h.ppe.reqLen ∧ s.held (.sub 0) = false ∧
    (∃ m ∈ s.nodes, m.seg = .sub 0 ∧ m.ppe.st = .receiving) ∧
    (tNet h (tChildCyc .idle 1) (.hub 0 .forward)).coherent = true ∧
    (∀ m ∈ (tNet h (tChildCyc .idle 1) (.hub 0 .forward)).nodes, m.seg = .sub 0 → m.ppe.st ≠ .receiving) := by
  decide +kernel
/-- The child's own address, and address 10, which no child has. -/
theorem test_witness_TurnAroundOpensReply :
    let h := fun a => tHubCyc a (fun f => { f with st := .requestForwarding, fwdStarted := true, fwdPos := 2 }) .writeData
    let s := tNet (h 9) (tChildCyc .receiving 2) (.hub 0 .turnAround)
    s.coherent = true ∧ s.nextAction = some (.hub 0 .turnAround) ∧ s.nodes[0]? = some (h 9) ∧
    (h 9).hfe.st = .requestForwarding ∧ (h 9).hfe.fwdPos = (h 9).ppe.reqLen ∧ (h 9).ppe.readSeen = true ∧
    (h 9).ppe.cycAddr = some 9 ∧ s.held (.sub 0) = false ∧ (∃ m ∈ s.nodes, m.seg = .sub 0 ∧ m.matches 9 = true) ∧
    (tNet (h 10) { tChild with ppe := { Ppe.reset with busBusy := true } } (.hub 0 .turnAround)).coherent = true ∧
    tChild.matches 10 = false := by decide +kernel
/-- The first of two reply bytes, and the last. -/
theorem test_witness_CopyStepPassesByte :
    let h := fun pos => tHubCyc 9 (fun f => { f with st := .replyForwarding, fwdStarted := true, fwdPos := 2, rdNeed := 2, rdPos := pos }) .readData
    let last : Node := { h 1 with ppe := { (h 1).ppe with rep := putBytes (h 1).ppe.rep 0 [0x40], repLen := 1 } }
    let s := tNet (h 0) (tChildSend 1 0x40) (.hub 0 .copy)
    let s' := tNet last (tChildSend 2 0x02) (.hub 0 .copy)
    s.coherent = true ∧ s.nextAction = some (.hub 0 .copy) ∧ s.nodes[0]? = some (h 0) ∧ (h 0).hfe.st = .replyForwarding ∧
    s.held (.sub 0) = false ∧ s.response (.sub 0) .rbyte = some (.byte 0x40) ∧ (h 0).hfe.rdPos + 1 ≠ (h 0).hfe.rdNeed ∧
    s'.coherent = true ∧ s'.response (.sub 0) .rbyte = some (.byte 0x02) ∧ last.hfe.rdPos + 1 = last.hfe.rdNeed ∧
    last.hfe.st = .replyForwarding ∧ s'.held (.sub 0) = false := by
  decide +kernel
/-- R335, L3-3: the child sees its reply drained after the last byte, and not after the first. -/
theorem test_copy_drains_child :
    let h := fun pos => tHubCyc 9 (fun f => { f with st := .replyForwarding, fwdStarted := true, fwdPos := 2, rdNeed := 2, rdPos := pos }) .readData
    let last : Node := { h 1 with ppe := { (h 1).ppe with rep := putBytes (h 1).ppe.rep 0 [0x40], repLen := 1 } }
    (tNode 1 (step (tNet (h 0) (tChildSend 1 0x40) (.hub 0 .copy)))).map (fun n => (n.ppe.st, n.ppe.shift, n.ppe.drained)) =
      some (.sending, 0x02, false) ∧
    (tNode 1 (step (tNet last (tChildSend 2 0x02) (.hub 0 .copy)))).map (fun n => (n.ppe.st, n.ppe.busBusy, n.ppe.drained)) =
      some (.idle, false, true) := by decide +kernel
theorem test_witness_NotifiedStateRaisesChild :
    let h : Node := { tHub with hfe := { Hfe.reset with st := .notified, notifySeen := true } }
    let s := tNet h tChild (.hub 0 .flag)
    s.r54 = true ∧ s.nextAction = some (.hub 0 .flag) ∧ s.nodes[0]? = some h ∧ h.hubCapable = true ∧
    h.hfe.st = .notified := by decide +kernel
/-- The resurrection step, the notified step, and each where the other is pending too, with a child cycle waiting. -/
theorem test_witness_NotifiedStateRaisesChild_idle :
    let h := fun r n => tHubCyc 9 (fun f => { f with resurrectReq := r, notifySeen := n }) .idle
    let s := fun r n a => tNet (h r n) tChild (.hub 0 a)
    (∀ r ∈ [true, false], ∀ n ∈ [true, false],
      (s r n .notified).r54 = true ∧ (h r n).hubCapable = true ∧ (h r n).hfe.st = .idle) ∧
    (s true true .resurrect).nextAction = some (.hub 0 .resurrect) ∧ (h true true).hfe.resurrectReq = true ∧
    (s false true .notified).nextAction = some (.hub 0 .notified) ∧ (h false true).hfe.notifySeen = true ∧
    (h false true).hfe.resurrectReq = false ∧ tIsNext (step (s true true .notified)) = true ∧
    tIsNext (step (s true false (.openTx false))) = true ∧ tIsNext (step (s false true (.openTx false))) = true ∧
    (h true false).childPending = true := by decide +kernel
theorem test_witness_ResurrectionRecoversChildren :
    let h : Node := { tHub with hfe := { Hfe.reset with st := .resurrection } }
    let s := tNet h tChild (.hub 0 .endResurrection)
    s.coherent = true ∧ s.nextAction = some (.hub 0 .endResurrection) ∧ s.nodes[0]? = some h ∧
    h.hfe.st = .resurrection ∧ s.nodes[1]? = some tChild ∧ tChild.seg = .sub 0 := by decide +kernel
/-- A child that is a hub with its own segment open to a receiving grandchild, and with the segment idle. -/
theorem test_witness_ResurrectionRecoversChildren_grandchild :
    let h : Node := { tHub with hfe := { Hfe.reset with st := .resurrection } }
    let c : Node := { tHubCyc 10 (fun f => { f with st := .requestForwarding, fwdStarted := true, fwdPos := 1 }) .writeData with
      seg := .sub 0, cfg := { tHub.cfg with ownAddr := 9 } }
    let g := fun st => { tChildCyc st 1 with seg := .sub 1 }
    let s := { tNet h c (.hub 0 .endResurrection) with nodes := [h, c, g .receiving] }
    s.coherent = true ∧ s.nextAction = some (.hub 0 .endResurrection) ∧ s.nodes[0]? = some h ∧ s.nodes[1]? = some c ∧
    c.seg = .sub 0 ∧ c.sec ≠ .idle ∧ s.nodes[2]? = some (g .receiving) ∧ (g .receiving).seg = .sub 1 ∧
    (g .receiving).ppe.st ≠ .sendingStalled ∧ tHub.sec = .idle ∧
    (tNode 2 (step s)).map (fun n => (n.ppe.st, n.ppe.busBusy)) = some (.idle, false) ∧
    (tNode 1 (step s)).map (·.execHalf) = some .maintenance := by decide +kernel
/-- A node in the middle of a transaction, with a pending program block. -/
theorem test_witness_PowerOnResetValues :
    let nd : Node := { tChildSend 1 0 with progPending := [0x100] }
    let s := tNet tHub nd (.powerOn 1)
    s.r54 = true ∧ s.nextAction = some (.powerOn 1) ∧ s.nodes[1]? = some nd ∧
    nd.par.region (0x9000 / 16) ≠ .ram ∧ 0x9000 / 16 ∉ nd.progPending := by decide +kernel
/-- A hub with an open secondary transaction: its target receiving, and the same with the target stalled. -/
theorem test_witness_PowerOnResetValues_hub :
    let h := tHubCyc 9 (fun f => { f with st := .requestForwarding, fwdStarted := true, fwdPos := 1 }) .writeData
    let s := tNet h (tChildCyc .receiving 1) (.powerOn 0)
    s.r54 = true ∧ s.nextAction = some (.powerOn 0) ∧ s.nodes[0]? = some h ∧ s.phase (.sub 0) ≠ .idle ∧
    s.nodes[1]? = some (tChildCyc .receiving 1) ∧ (tChildCyc .receiving 1).seg = .sub 0 ∧
    (tChildCyc .receiving 1).ppe.st ≠ .sendingStalled ∧ (tSt tChild .sendingStalled).ppe.st = .sendingStalled := by
  decide +kernel
theorem test_witness_RebootStepSwitchesHalf :
    let nd : Node := { tHub with rebootReq := .switch }
    (tNet nd tChild (.coop 0 .reboot)).r54 = true ∧
    (tNet nd tChild (.coop 0 .reboot)).nextAction = some (.coop 0 .reboot) ∧
    (tNet nd tChild (.coop 0 .reboot)).nodes[0]? = some nd ∧ nd.rebootReq ≠ .none ∧ nd.ppe.cycAddr = none ∧
    nd.ppe.st = .idle ∧ tHub.rebootReq = .none := by decide +kernel
theorem test_witness_RebootStepSwitchesHalf_keep :
    let nd : Node := { tHub with rebootReq := .keep }
    (tNet nd tChild (.coop 0 .reboot)).r54 = true ∧ (tNet nd tChild (.coop 0 .reboot)).nodes[0]? = some nd ∧
    nd.rebootReq = .keep ∧ nd.ppe.cycAddr = none ∧ nd.ppe.st = .idle := by decide +kernel
theorem test_witness_StepKeepsMemoryCanonical :
    let s := tServed tHub (0x98 :: 0x00 :: tBlock 0)
    (∀ nd ∈ s.nodes, nd.memOk = true) ∧ tIsNext (step s) = true := by decide +kernel
theorem test_witness_StepKeepsCoherence :
    let s := tNet (tHubCyc 9 id .idle) tChild (.hub 0 (.openTx false))
    s.coherent = true ∧ tIsNext (step s) = true := by decide +kernel
/-- Two states that no run reaches and the invariant rules out: receiving in a read, and a read address without `readSeen`. -/
theorem test_coherent_excludes :
    ({ tChildCyc .receiving 1 with ppe := { (tChildCyc .receiving 1).ppe with dir := true } } : Node).ppeOk = false ∧
    ({ tChildCyc .receivingAcknowledge 1 with ppe := { (tChildCyc .receivingAcknowledge 1).ppe with dir := true } }
      : Node).ppeOk = false ∧ (tChildCyc .receivingAcknowledge 1).ppeOk = true := by decide +kernel
theorem test_witness_CoherentStepNeverFaults :
    (tNet (tHubCyc 9 id .idle) (tSt tChild .notifying) (.coop 1 .notifyEnd)).coherent = true := by decide +kernel
theorem test_witness_OnlyHostEventsRefused :
    (tNet tHub tChild (.host .stop)).coherent = true ∧ step (tNet tHub tChild (.host .stop)) = .refused .busGrammar :=
  ⟨by decide +kernel, rfl⟩
theorem test_witness_StepKeepsFixedParts : tIsNext (step (tNet tHub tChild (.powerOn 1))) = true := by decide +kernel
theorem test_witness_ConfigurationChangesOnlyAtReset :
    let s := tServed tHub (0x99 :: 0x00 :: tBlock 0)
    tIsNext (step s) = true ∧ Action.isReset s.nextAction = false := by decide +kernel
theorem test_witness_ExecutingCodeNeverChanges :
    let nd := tHub.withRequest (frameOf (0x94 :: 0x00 :: tBlock 0))
    let s := tServed tHub (0x94 :: 0x00 :: tBlock 0)
    s.nodes[0]? = some nd ∧ nd.memOk = true ∧ tIsNext (step s) = true ∧ nd.unwritable 0x4000 ∧ nd.unwritable 0xA000 ∧
    nd.unwritable 0x3FF := by
  refine ⟨by decide +kernel, by decide +kernel, by decide +kernel, Or.inr ⟨by decide +kernel, Or.inr (by decide +kernel)⟩,
    Or.inl (by decide +kernel), Or.inr ⟨by decide +kernel, Or.inl (by decide +kernel)⟩⟩

end Sys2Proof.Machine
end

/-! SUPPORT. Why a coherent state never faults. A coherent state gives each step what its contracts ask for: the targets of a
segment follow its controller, and a node that a step commits to has no reply yet. The targets then keep following through the
several events of one hub step (`State.Controls`), so that every event is answered, and so is every step. -/

namespace Sys2Proof.Machine

/-! ### What a coherent state gives -/

theorem coherent_node {s : State} {nd : Node} (h : s.coherent = true) (hm : nd ∈ s.nodes) :
    nd.ppeOk = true ∧ nd.hfeOk = true ∧ segOk (s.phase nd.seg) nd.ppe = true := by
  simp only [State.coherent, Bool.and_eq_true, List.all_eq_true] at h
  obtain ⟨⟨⟨-, hp⟩, hh⟩, hs⟩ := h.2 nd hm
  exact ⟨hp, hh, hs⟩

/-- The network is a tree: no node is a target on its own secondary segment. -/
theorem coherent_not_own_target {s : State} {i : Nat} {nd : Node} (h : s.coherent = true) (hn : s.nodes[i]? = some nd) :
    nd.seg ≠ .sub i := by
  intro hseg
  simp only [State.coherent, State.tree, Bool.and_eq_true, List.all_eq_true, List.mem_range] at h
  have hi := h.1 i (List.getElem?_eq_some_iff.1 hn).1
  simp [hn, hseg] at hi

theorem ppeOk_r54 {nd : Node} (h : nd.ppeOk = true) : nd.ppe.r54 = true := by
  simp only [Node.ppeOk, Bool.and_eq_true] at h
  tauto

theorem coherent_r54 {s : State} (h : s.coherent = true) : s.r54 = true :=
  List.all_eq_true.2 fun _ hm => ppeOk_r54 (coherent_node h hm).1

theorem ppeOk_receiving {nd : Node} (h : nd.ppeOk = true) : nd.ppe.st = .receiving → nd.ppe.dir = false := by
  simp only [Node.ppeOk, Bool.and_eq_true, decide_eq_true_eq] at h
  tauto

theorem ppeOk_ownReply {nd : Node} (h : nd.ppeOk = true) (hc : nd.childCycle = false) (hF : nd.ppe.repFinal = false) :
    nd.ppe.repLen = 0 := by
  simp only [Node.ppeOk, Bool.and_eq_true, decide_eq_true_eq] at h
  by_contra hL
  simp [h.2 hc hL] at hF

theorem r54_answered_iff {p : Ppe} (h : p.r54 = true) : p.reqSt = .answered ↔ p.repFinal = true := by
  simp only [Ppe.r54, Bool.and_eq_true, decide_eq_true_eq] at h
  tauto

theorem r54_valid_size {p : Ppe} (h : p.r54 = true) (hv : p.reqSt = .valid) : p.reqLen = p.reqSize := by
  simp only [Ppe.r54, Bool.and_eq_true, decide_eq_true_eq] at h
  tauto

theorem hfeOk_unforwarded {nd : Node} (h : nd.hfeOk = true) (hc : nd.childCycle = true)
    (hf : nd.hfe.fwdStarted = false) : nd.ppe.repLen = 0 ∧ nd.ppe.repFinal = false := by
  simp only [Node.hfeOk, Bool.and_eq_true, decide_eq_true_eq] at h
  tauto

theorem hfeOk_idle {nd : Node} (h : nd.hfeOk = true) (hst : nd.hfe.st = .idle) : nd.sec = .idle := by
  simp only [Node.hfeOk, hst, Bool.and_eq_true, decide_eq_true_eq] at h
  tauto

theorem hfeOk_requestForwarding {nd : Node} (h : nd.hfeOk = true) (hst : nd.hfe.st = .requestForwarding) :
    nd.sec = .writeData ∧ nd.ppe.repLen = 0 ∧ nd.ppe.repFinal = false := by
  simp only [Node.hfeOk, hst, Bool.and_eq_true, decide_eq_true_eq, Bool.not_eq_true'] at h
  tauto

theorem hfeOk_replyForwarding {nd : Node} (h : nd.hfeOk = true) (hst : nd.hfe.st = .replyForwarding) :
    nd.sec = .readData ∧ nd.ppe.repFinal = false ∧ nd.ppe.repLen = nd.hfe.rdPos ∧ nd.hfe.rdPos < nd.hfe.rdNeed ∧
      nd.hfe.rdNeed ≤ maxRep := by
  simp only [Node.hfeOk, hst, Bool.and_eq_true, decide_eq_true_eq, Bool.not_eq_true'] at h
  tauto

/-! ### The edge handler keeps a target in step with its segment -/

/-- What a target keeps while a transaction runs: its control state fits how far the controller is, and it receives only
in a write (R261, R272). -/
def Ppe.follows (p : Ppe) (ph : BusPhase) : Prop := segOk ph p = true ∧ (p.st = .receiving → p.dir = false)

theorem loadNext_st (nd : Node) : nd.loadNext.ppe.st = .sending ∨ nd.loadNext.ppe.st = .sendingStalled := by
  simp only [Node.loadNext]
  repeat' split
  all_goals simp

theorem loadNext_eq (nd : Node) : nd.loadNext = { nd with ppe := nd.loadNext.ppe } := by
  simp only [Node.loadNext]
  repeat' split
  all_goals rfl

@[simp] theorem loadNext_busBusy (nd : Node) : nd.loadNext.ppe.busBusy = nd.ppe.busBusy := by
  simp only [Node.loadNext]
  repeat' split
  all_goals rfl

@[simp] theorem onStart_st (nd : Node) : nd.onStart.ppe.st = .startDetected := rfl
@[simp] theorem onStart_busBusy (nd : Node) : nd.onStart.ppe.busBusy = true := rfl
@[simp] theorem onStart_seg (nd : Node) : nd.onStart.seg = nd.seg := by
  simp only [Node.onStart]; split <;> rfl

@[simp] theorem accept_busBusy (p : Ppe) (b : Byte) : (p.accept b).busBusy = p.busBusy := by
  simp only [Ppe.accept]
  repeat' split
  all_goals rfl

@[simp] theorem accept_dir (p : Ppe) (b : Byte) : (p.accept b).dir = p.dir := by
  simp only [Ppe.accept]
  repeat' split
  all_goals rfl

@[simp] theorem edge_seg (nd : Node) (e : BusEvent) : (nd.edge e).seg = nd.seg := by
  have hload : nd.loadNext.seg = nd.seg := by rw [loadNext_eq]
  cases e <;> simp only [Node.edge, Node.onAddr, Node.onAddrAckEnd, Node.onReadAckEnd]
  all_goals repeat' split
  all_goals simp [hload]

/-- Outside the data phase of a read and an idle segment no target stalls. -/
theorem segOk_not_stalled {ph : BusPhase} {p : Ppe} (h : segOk ph p = true) (hi : ph ≠ .idle) (hr : ph ≠ .readData) :
    p.st ≠ .sendingStalled := by
  intro hst
  cases ph <;> simp_all [segOk]

/-- An event of the grammar finds no target in a cell of R261 that is "n/a", unless the target stalls. -/
theorem edgeApplies_of_segOk {ph q : BusPhase} {e : BusEvent} {p : Ppe} (h : segOk ph p = true) (hn : ph.next e = some q)
    (hs : p.st ≠ .sendingStalled) : edgeApplies p.st e = true := by
  unfold BusPhase.next at hn
  split at hn
  all_goals cases hst : p.st <;> simp_all [segOk, edgeApplies]

theorem loadNext_follows {nd : Node} (hb : nd.ppe.busBusy = true) : nd.loadNext.ppe.follows .readData := by
  rcases loadNext_st nd with h | h <;> simp [Ppe.follows, segOk, h, hb]

theorem onAddr_follows {nd : Node} (a : BitVec 7) (rw : Bool) (hb : nd.ppe.busBusy = true) :
    (nd.onAddr a rw).ppe.follows (.addrAck rw) := by
  unfold Node.onAddr
  split <;> simp [Ppe.follows, segOk, hb]

theorem onAddrAckEnd_follows_write {nd : Node} (hb : nd.ppe.busBusy = true) (hd : nd.ppe.dir = false) :
    nd.onAddrAckEnd.ppe.follows .writeData := by
  simp [Node.onAddrAckEnd, Ppe.follows, segOk, hb, hd]

theorem onAddrAckEnd_follows_read {nd : Node} (hb : nd.ppe.busBusy = true) (hd : nd.ppe.dir = true) :
    nd.onAddrAckEnd.ppe.follows .readData := by
  simpa only [Node.onAddrAckEnd, hd, if_true] using loadNext_follows hb

theorem onReadAckEnd_follows {nd : Node} (hb : nd.ppe.busBusy = true) : nd.onReadAckEnd.ppe.follows .readData := by
  unfold Node.onReadAckEnd
  split
  · exact loadNext_follows hb
  · simp [Ppe.follows, segOk, hb]

/-- A target that follows its segment and does not stall follows it through every event of the grammar: in each phase it is
outside the transaction, where only START moves it, or in the one state that takes part, whose handler is named below. -/
theorem edge_follows {ph q : BusPhase} {e : BusEvent} {nd : Node} (h : nd.ppe.follows ph) (hn : ph.next e = some q)
    (hs : nd.ppe.st ≠ .sendingStalled) : (nd.edge e).ppe.follows q := by
  obtain ⟨hseg, hdir⟩ := h
  unfold BusPhase.next at hn
  split at hn
  all_goals simp only [Option.some.injEq, reduceCtorEq] at hn
  all_goals subst hn
  all_goals
    cases hst : nd.ppe.st <;>
    simp_all [segOk, Ppe.follows, Node.edge, edgeApplies, Node.onStop]
  · simpa [segOk, Ppe.follows] using onAddr_follows _ _ hseg
  · simpa [segOk, Ppe.follows] using onAddrAckEnd_follows_write hseg.1 hseg.2
  · simpa [segOk, Ppe.follows] using onAddrAckEnd_follows_read hseg.1 hseg.2
  · simpa [segOk, Ppe.follows] using onAddrAckEnd_follows_write hseg.1 hseg.2
  · simpa [segOk, Ppe.follows] using onReadAckEnd_follows hseg

/-- A target outside the transaction stays outside until the next START. -/
theorem edge_idle {nd : Node} {e : BusEvent} (hst : nd.ppe.st = .idle) (he : e ≠ .start) :
    (nd.edge e).ppe.st = .idle := by
  cases e <;> simp_all [Node.edge, edgeApplies]

/-- An address that a target does not match leaves it outside the transaction (R269). -/
theorem edge_addr_unmatched {nd : Node} {a : BitVec 7} {rw : Bool} (h : segOk .clocked nd.ppe = true)
    (hm : (nd.ppe.st == .addressing && nd.matches a) = false) : (nd.edge (.addr a rw)).ppe.st = .idle := by
  have hst : nd.ppe.st = .idle ∨ nd.ppe.st = .addressing := by simp_all [segOk]
  rcases hst with hst | hst
  · exact edge_idle hst (by simp)
  · simp_all [Node.edge, edgeApplies, Node.onAddr]

/-- A NACK of the controller ends the part of a sending target at the acknowledge's end (R275, R277). -/
theorem edge_nack_ackEnd {nd : Node} (h : segOk .readMack nd.ppe = true) :
    ((nd.edge (.mack false)).edge .ackEnd).ppe.st = .idle := by
  have hst : nd.ppe.st = .idle ∨ nd.ppe.st = .sendingWaitAcknowledge := by simp_all [segOk]
  rcases hst with hst | hst
  · exact edge_idle (edge_idle hst (by simp)) (by simp)
  · simp [Node.edge, edgeApplies, Node.onReadAckEnd, hst]

/-! ### A controller's events on a segment that follows it -/

/-- No target of a segment stalls. -/
def State.flowing (s : State) (k : SegId) : Prop := ∀ nd ∈ s.targets k, nd.ppe.st ≠ .sendingStalled

theorem mem_targets {s : State} {k : SegId} {nd : Node} : nd ∈ s.targets k ↔ nd ∈ s.nodes ∧ nd.seg = k := by
  simp [State.targets]

theorem flowing_of_not_held {s : State} {k : SegId} (h : s.held k = false) : s.flowing k := by
  intro nd hm hst
  simp only [State.held, Bool.or_eq_false_iff, List.any_eq_false] at h
  exact h.1 nd hm (by simp [hst])

/-- An event of the grammar is answered where every target follows the controller and none stalls. -/
theorem emit_of_segOk {s : State} {k : SegId} {e : BusEvent} {q : BusPhase} (hn : (s.phase k).next e = some q)
    (hseg : ∀ nd ∈ s.targets k, segOk (s.phase k) nd.ppe = true) (hf : s.flowing k) :
    s.emit k e = .ok ((s.edgeAll k e).setPhase k q, s.response k e) :=
  emit_ok_iff.2 ⟨q, hn, List.all_eq_true.2 fun nd hm => edgeApplies_of_segOk (hseg nd hm) hn (hf nd hm), rfl, rfl⟩

/-- A hub whose secondary segment's controller is at `q`. -/
def Node.withSec (nd : Node) (q : BusPhase) : Node := { nd with sec := q }

@[simp] theorem withSec_seg (nd : Node) (q : BusPhase) : (nd.withSec q).seg = nd.seg := rfl
@[simp] theorem withSec_sec (nd : Node) (q : BusPhase) : (nd.withSec q).sec = q := rfl
@[simp] theorem withSec_ppe (nd : Node) (q : BusPhase) : (nd.withSec q).ppe = nd.ppe := rfl

/-- The data phase that an address byte opens (R228). -/
def dataPhase (rw : Bool) : BusPhase := if rw then .readData else .writeData

/-- Node `h` is `hub`, not a target on its own secondary segment, whose controller is at `ph` and whose targets follow. -/
structure State.Controls (s : State) (h : Nat) (hub : Node) (ph : BusPhase) : Prop where
  hub_at : s.nodes[h]? = some hub
  sec_eq : hub.sec = ph
  apart  : hub.seg ≠ .sub h
  follow : ∀ nd ∈ s.targets (.sub h), nd.ppe.follows ph

theorem coherent_controls {s : State} {h : Nat} {hub : Node} (hs : s.coherent = true) (hn : s.nodes[h]? = some hub) :
    s.Controls h hub hub.sec where
  hub_at := hn
  sec_eq := rfl
  apart := coherent_not_own_target hs hn
  follow nd hm := by
    obtain ⟨hmem, hseg⟩ := mem_targets.1 hm
    obtain ⟨hp, -, hfit⟩ := coherent_node hs hmem
    rw [hseg, State.phase, hn] at hfit
    exact ⟨hfit, ppeOk_receiving hp⟩

theorem modNode_eq_setNode {s : State} {i : Nat} {nd : Node} (f : Node → Node) (hn : s.nodes[i]? = some nd) :
    s.modNode i f = s.setNode i (f nd) := by
  simp [State.modNode, State.setNode, List.modify_eq_set_getElem?, hn]

/-- Replacing a node that is no target of a segment adds no target to it. -/
theorem mem_targets_setNode {s : State} {i : Nat} {k : SegId} {nd x : Node} (hne : nd.seg ≠ k)
    (hx : x ∈ (s.setNode i nd).targets k) : x ∈ s.targets k := by
  obtain ⟨hm, hseg⟩ := mem_targets.1 hx
  rcases List.mem_or_eq_of_mem_set hm with hm | rfl
  · exact mem_targets.2 ⟨hm, hseg⟩
  · exact absurd hseg hne

namespace State.Controls

variable {s : State} {h : Nat} {hub : Node} {ph q : BusPhase}

theorem flowing (hc : s.Controls h hub ph) (hi : ph ≠ .idle) (hr : ph ≠ .readData) : s.flowing (.sub h) :=
  fun nd hm => segOk_not_stalled (hc.follow nd hm).1 hi hr

/-- The hub may be replaced by one in the same place. -/
theorem setNode (hc : s.Controls h hub ph) {hub' : Node} (hseg : hub'.seg = hub.seg) (hsec : hub'.sec = hub.sec) :
    (s.setNode h hub').Controls h hub' ph where
  hub_at := List.getElem?_set_self (List.getElem?_eq_some_iff.1 hc.hub_at).1
  sec_eq := hsec.trans hc.sec_eq
  apart := hseg ▸ hc.apart
  follow nd hm := hc.follow nd (mem_targets_setNode (hseg ▸ hc.apart) hm)

/-- A hub's event of the grammar is answered: the targets' edge handlers run, the hub goes where the grammar says, and
it keeps everything else. -/
theorem emit (hc : s.Controls h hub ph) {e : BusEvent} (hn : ph.next e = some q) (hf : s.flowing (.sub h)) :
    ∃ t, s.emit (.sub h) e = .ok (t, s.response (.sub h) e) ∧ t.Controls h (hub.withSec q) q ∧
      ∀ x ∈ t.targets (.sub h), ∃ nd ∈ s.targets (.sub h), x = nd.edge e := by
  have hphase : s.phase (.sub h) = ph := by simp [State.phase, hc.hub_at, hc.sec_eq]
  have hhub : (s.edgeAll (.sub h) e).nodes[h]? = some hub := by simp [State.edgeAll, hc.hub_at, hc.apart]
  have hset : (s.edgeAll (.sub h) e).setPhase (.sub h) q = (s.edgeAll (.sub h) e).setNode h (hub.withSec q) :=
    modNode_eq_setNode _ hhub
  have hedge : ∀ x ∈ ((s.edgeAll (.sub h) e).setNode h (hub.withSec q)).targets (.sub h),
      ∃ nd ∈ s.targets (.sub h), x = nd.edge e := by
    intro x hx
    obtain ⟨hm, hseg⟩ := mem_targets.1 (mem_targets_setNode (show (hub.withSec q).seg ≠ _ from hc.apart) hx)
    obtain ⟨nd, hnd, rfl⟩ := List.mem_map.1 hm
    by_cases hk : nd.seg = .sub h
    · exact ⟨nd, mem_targets.2 ⟨hnd, hk⟩, if_pos hk⟩
    · simp [hk] at hseg
  refine ⟨_, emit_of_segOk (hphase ▸ hn) (hphase ▸ fun nd hm => (hc.follow nd hm).1) hf, hset ▸ ⟨?_, rfl, hc.apart, ?_⟩,
    hset ▸ hedge⟩
  · exact List.getElem?_set_self (List.getElem?_eq_some_iff.1 hhub).1
  · intro x hx
    obtain ⟨nd, hm, rfl⟩ := hedge x hx
    exact edge_follows (hc.follow nd hm) hn (hf nd hm)

/-- STOP is answered in the data phases (R228). -/
theorem stopTx (hc : s.Controls h hub ph) (hn : ph.next .stop = some .idle) (hf : s.flowing (.sub h)) :
    ∃ t, s.stopTx (.sub h) = .ok t ∧ t.Controls h (hub.withSec .idle) .idle := by
  obtain ⟨t, he, ht, -⟩ := hc.emit hn hf
  exact ⟨t, by simp [State.stopTx, he, Except.map], ht⟩

/-- A hub opens a transaction wherever the grammar allows START; where no target answers the address, none stalls. -/
theorem openTx (hc : s.Controls h hub ph) (hn : ph.next .start = some .started) (hf : s.flowing (.sub h))
    (a : BitVec 7) (rw : Bool) :
    ∃ t k, s.openTx (.sub h) a rw = .ok (t, k) ∧ t.Controls h (hub.withSec (dataPhase rw)) (dataPhase rw) ∧
      (k = false → t.flowing (.sub h)) := by
  obtain ⟨s₁, e₁, c₁, -⟩ := hc.emit hn hf
  obtain ⟨s₂, e₂, c₂, -⟩ := c₁.emit (e := .sclLow) rfl (c₁.flowing (by simp) (by simp))
  obtain ⟨s₃, e₃, c₃, t₃⟩ := c₂.emit (e := .addr a rw) rfl (c₂.flowing (by simp) (by simp))
  obtain ⟨s₄, e₄, c₄, t₄⟩ := c₃.emit (e := .ackEnd) (q := dataPhase rw) (by cases rw <;> rfl)
    (c₃.flowing (by simp) (by simp))
  refine ⟨s₄, (s₂.targets (.sub h)).any fun nd => nd.ppe.st == .addressing && nd.matches a,
    by simp [State.openTx, openEvents, State.emitAll, e₁, e₂, e₃, e₄, Except.map, State.response, ackOf], c₄, ?_⟩
  intro hk x hx hst
  obtain ⟨y, hy, rfl⟩ := t₄ x hx
  obtain ⟨nd, hm, rfl⟩ := t₃ y hy
  have hout := edge_addr_unmatched (rw := rw) (c₂.follow nd hm).1 (by simpa using List.any_eq_false.1 hk nd hm)
  simp [edge_idle hout] at hst

/-- A hub writes a byte in an open write. -/
theorem writeByte (hc : s.Controls h hub .writeData) (b : Byte) :
    ∃ t k, s.writeByte (.sub h) b = .ok (t, k) ∧ t.Controls h (hub.withSec .writeData) .writeData := by
  obtain ⟨s₁, e₁, c₁, -⟩ := hc.emit (e := .wbyte b) rfl (hc.flowing (by simp) (by simp))
  obtain ⟨s₂, e₂, c₂, -⟩ := c₁.emit (e := .ackEnd) rfl (c₁.flowing (by simp) (by simp))
  exact ⟨s₂, _, by simp only [State.writeByte, writeEvents, State.emitAll, e₁, e₂]; rfl, c₂⟩

/-- A hub reads a byte in an open read whose segment is not held; after the last one, with NACK, no target stalls. -/
theorem readByte (hc : s.Controls h hub .readData) (hf : s.flowing (.sub h)) (ack : Bool) :
    ∃ t b, s.readByte (.sub h) ack = .ok (t, b) ∧ t.Controls h (hub.withSec .readData) .readData ∧
      (ack = false → t.flowing (.sub h)) := by
  obtain ⟨s₁, e₁, c₁, -⟩ := hc.emit (e := .rbyte) rfl hf
  obtain ⟨s₂, e₂, c₂, t₂⟩ := c₁.emit (e := .mack ack) rfl (c₁.flowing (by simp) (by simp))
  obtain ⟨s₃, e₃, c₃, t₃⟩ := c₂.emit (e := .ackEnd) rfl (c₂.flowing (by simp) (by simp))
  refine ⟨s₃, _, by simp only [State.readByte, readEvents, State.emitAll, e₁, e₂, e₃]; rfl, c₃, ?_⟩
  rintro rfl x hx hst
  obtain ⟨y, hy, rfl⟩ := t₃ x hx
  obtain ⟨nd, hm, rfl⟩ := t₂ y hy
  simp [edge_nack_ackEnd (c₁.follow nd hm).1] at hst

end State.Controls

/-! ### Commits and services from a node that has no reply -/

theorem commitAt_code_answers {s : State} {i : Nat} {nd : Node} (hn : s.nodes[i]? = some nd) (hr : nd.ppe.r54 = true)
    (hF : nd.ppe.repFinal = false) (hL : nd.ppe.repLen = 0) (c : Code) : ∃ t, s.commitAt i [codeByte c] = .ok t := by
  obtain ⟨nd', hc, -, -⟩ := commit_published hr hF hL (packageReply_code c)
  exact ⟨s.setNode i nd', by simp [State.commitAt, hn, hc]⟩

theorem resume_eq (nd : Node) : nd.resume = { nd with ppe := nd.resume.ppe } := by
  unfold Node.resume
  split
  · exact loadNext_eq nd
  · rfl

/-- A reply that is not final takes more bytes up to `MAX_REP` (R291); only the PPE changes. -/
theorem commitPartial_answers {nd : Node} {bs : List Byte} {last : Bool} (hF : nd.ppe.repFinal = false)
    (hL : nd.ppe.repLen + bs.length ≤ maxRep) :
    ∃ nd', nd.commitPartial bs last = .ok nd' ∧ nd' = { nd with ppe := nd'.ppe } := by
  have hok : ¬ (nd.ppe.repFinal = true ∨ maxRep < nd.ppe.repLen + bs.length) := by
    simp only [hF, Bool.false_eq_true, false_or, not_lt]
    exact hL
  refine ⟨_, by rw [Node.commitPartial, if_neg hok], ?_⟩
  rw [resume_eq]

theorem packageReply_memReadReply (nd : Node) (blk d : Nat) : ∃ bytes, packageReply (nd.memReadReply blk d) = some bytes := by
  have hlen : (nd.blockData blk d).length = blkSize := by
    unfold Node.blockData
    split <;> simp [Node.readBlock]
  unfold Node.memReadReply
  split
  · exact ⟨_, packageReply_code _⟩
  · exact ⟨_, packageReply_block _ _ hlen⟩

theorem serve_answers {s : State} {nd : Node} {f : Node → Nat → List Byte × Node} {bytes : List Byte}
    (hs : s.serving nd) (hppe : (f nd s.draws).2.ppe = nd.ppe) (hp : packageReply (f nd s.draws).1 = some bytes) :
    ∃ t, s.serve f = .next t := by
  obtain ⟨t, -, ht, -⟩ := serve_published hs hppe hp
  exact ⟨t, ht⟩

/-- Every instruction is answered at a node that has no reply yet (R180, R290). -/
theorem exec_answers {s : State} {nd : Node} (hs : s.serving nd) (i : Instr) : ∃ t, exec i s = .next t := by
  have hreserved : ∃ t, serveReserved s = .next t := by
    unfold serveReserved
    exact serve_answers hs rfl (packageReply_code _)
  cases i with
  | regRead reg =>
    simp only [exec, execRegRead]
    exact serve_answers hs (regValue_ppe ..) (packageReply_value _)
  | regWrite reg value =>
    simp only [exec, execRegWrite]
    exact serve_answers hs (regStore_ppe ..) (packageReply_code _)
  | memRead blk =>
    obtain ⟨bytes, hp⟩ := packageReply_memReadReply nd blk.toNat s.draws
    simp only [exec, execMemRead]
    exact serve_answers hs rfl hp
  | memWrite blk data =>
    simp only [exec, execMemWrite]
    exact serve_answers hs (memWriteBlock_ppe ..) (packageReply_code _)
  | rsvA0 | rsvB0 | rsvC0 | rsvD0 | rsvE0 | rsvF0 => exact hreserved

/-- A request of the size its opcode asks for decodes (R118, R155). -/
theorem decode_body_of_size {p : Ppe} (h : p.reqLen = p.reqSize) : ∃ i rest, decode p.body = .ok (i, rest) := by
  have h2 : 2 ≤ p.reqLen := h ▸ two_le_requestSize _
  have hle : p.reqLen ≤ 19 := h ▸ requestSize_le _
  have hbody : p.body = p.req[1] :: (p.req.toList.take p.reqLen).drop 2 := by
    have hlen : 1 < (p.req.toList.take p.reqLen).length := by simp; omega
    rw [Ppe.body, Ppe.reqBytes, List.drop_eq_getElem_cons hlen]
    simp
  have hsize : ¬ ((p.req.toList.take p.reqLen).drop 2).length < requestSize p.req[1] - 2 := by
    have hlen : requestSize p.req[1] = p.reqLen := h.symm
    simp only [List.length_drop, List.length_take, Vector.length_toList]
    omega
  exact ⟨_, _, by rw [hbody, decode]; exact if_neg hsize⟩

/-! ### From a coherent state the cooperative steps are answered -/

theorem whenNode_answers {s : State} {i : Nat} {g : Node → Bool} {act : Node → Res State}
    (h : ∀ nd, s.nodes[i]? = some nd → g nd = true → ∃ t, act nd = .ok t) : ∃ t, s.whenNode i g act = .ok t := by
  unfold State.whenNode
  split
  · exact ⟨s, rfl⟩
  · rename_i nd hn
    split
    · rename_i hg; exact h nd hn hg
    · exact ⟨s, rfl⟩

section
variable {s : State} (hs : s.coherent = true)
include hs

/-- An unchecked request of the node's own has no reply yet (R54, R284). -/
theorem validateStep_answers (i : Nat) : ∃ t, s.validateStep i = .ok t := by
  refine whenNode_answers fun nd hn hg => ?_
  obtain ⟨hp, -, -⟩ := coherent_node hs (List.mem_of_getElem? hn)
  obtain ⟨hreq, hown⟩ : nd.ppe.reqSt = .unchecked ∧ nd.childCycle = false := by
    simpa [Node.validateEnabled] using hg
  have hF : nd.ppe.repFinal = false := by
    have := r54_answered_iff (ppeOk_r54 hp)
    simpa [hreq] using this
  split
  · exact ⟨_, rfl⟩
  · exact commitAt_code_answers hn (ppeOk_r54 hp) hF (ppeOk_ownReply hp hown hF) _

/-- A valid request decodes, and its node has no reply yet (R54, R288). -/
theorem serviceStep_answers (i : Nat) : ∃ t, s.serviceStep i = .next t := by
  unfold State.serviceStep
  split
  · exact ⟨s, rfl⟩
  · rename_i nd hn
    split
    · rename_i hg
      obtain ⟨⟨⟨hv, hF⟩, hL⟩, -⟩ : ((nd.ppe.reqSt = .valid ∧ nd.ppe.repFinal = false) ∧ nd.ppe.repLen = 0) ∧
          nd.childCycle = false := by
        simpa [Node.serviceEnabled] using hg
      have hr := ppeOk_r54 (coherent_node hs (List.mem_of_getElem? hn)).1
      obtain ⟨instr, rest, hd⟩ := decode_body_of_size (r54_valid_size hr hv)
      rw [hd]
      exact exec_answers (nd := nd) ⟨hn, hr, hF, hL⟩ instr
    · exact ⟨s, rfl⟩

theorem coopStep_answers (i : Nat) (c : PpeStep) : ∃ t, s.coopStep i c = .next t := by
  have hout : ∀ {r : Res State}, (∃ t, r = .ok t) → ∃ t, r.out = .next t := fun ⟨t, ht⟩ => ⟨t, ht ▸ rfl⟩
  cases c with
  | clear => exact hout (whenNode_answers fun _ _ _ => ⟨_, rfl⟩)
  | reboot => exact hout (whenNode_answers fun _ _ _ => ⟨_, rfl⟩)
  | validate => exact hout (validateStep_answers hs i)
  | service => exact serviceStep_answers hs i
  | notifyBegin => exact hout (whenNode_answers fun _ _ _ => ⟨_, rfl⟩)
  | notifyEnd => exact hout (whenNode_answers fun _ _ _ => ⟨_, rfl⟩)

end

/-! ### From a coherent state the steps of a hub are answered -/

/-- A hub without a reply may give up a child that does not answer (R325, R330, R332). -/
theorem State.Controls.noDevice {s : State} {h : Nat} {hub : Node} {ph : BusPhase} (hc : s.Controls h hub ph)
    (hn : ph.next .stop = some .idle) (hf : s.flowing (.sub h)) (hr : hub.ppe.r54 = true)
    (hF : hub.ppe.repFinal = false) (hL : hub.ppe.repLen = 0) : ∃ t, s.noDevice h = .ok t := by
  obtain ⟨u, hstop, cu⟩ := hc.stopTx hn hf
  obtain ⟨v, hv⟩ := commitAt_code_answers cu.hub_at hr hF hL .noDevice
  exact ⟨_, by simp only [State.noDevice, hstop, hv]; rfl⟩

/-- A child cycle that is not forwarded yet has no reply (R323, R343). -/
theorem childPending_noReply {nd : Node} (h : nd.hfeOk = true) (hp : nd.childPending = true) :
    nd.ppe.repLen = 0 ∧ nd.ppe.repFinal = false := by
  simp only [Node.childPending, Bool.and_eq_true, Bool.not_eq_true'] at hp
  obtain ⟨⟨⟨-, hcyc⟩, hfwd⟩, -⟩ := hp
  exact hfeOk_unforwarded h hcyc hfwd

/-- A segment that is not locked for the open step has no stalled target (R322). -/
theorem flowing_of_not_secLocked {s : State} {h : Nat} {envLocked : Bool} (hl : ¬ s.secLocked h envLocked = true) :
    s.flowing (.sub h) := by
  intro nd hm hst
  refine hl ?_
  simp only [State.secLocked, Bool.or_eq_true, List.any_eq_true]
  exact .inl (.inl ⟨nd, hm, .inr (by simp [hst])⟩)

section
variable {s : State} (hs : s.coherent = true)
include hs

theorem openStep_answers (h : Nat) (envLocked : Bool) : ∃ t, s.openStep h envLocked = .ok t := by
  refine whenNode_answers fun nd hn hg => ?_
  obtain ⟨hp, hh, -⟩ := coherent_node hs (List.mem_of_getElem? hn)
  obtain ⟨⟨⟨hst, hpend⟩, -⟩, -⟩ : ((nd.hfe.st = .idle ∧ nd.childPending = true) ∧ nd.resurrectEnabled = false) ∧
      nd.notifiedEnabled = false := by
    simpa [Node.openEnabled] using hg
  obtain ⟨hL, hF⟩ := childPending_noReply hh hpend
  have hc := coherent_controls hs hn
  rw [hfeOk_idle hh hst] at hc
  rw [modNode_eq_setNode _ hn]
  generalize hhub : (nd.withHfe fun f => { f with fwdStarted := true }) = hub
  have hppe : hub.ppe = nd.ppe := hhub ▸ rfl
  rw [← hppe] at hL hF
  have hr : hub.ppe.r54 = true := hppe ▸ ppeOk_r54 hp
  have hc' : (s.setNode h hub).Controls h hub .idle := hc.setNode (hhub ▸ rfl) (hhub ▸ rfl)
  simp only
  split
  · exact commitAt_code_answers hc'.hub_at hr hF hL _
  · rename_i hl
    have hf : (s.setNode h hub).flowing (.sub h) := fun x hx =>
      flowing_of_not_secLocked hl x (mem_targets_setNode hc'.apart hx)
    obtain ⟨t, k, htx, ct, -⟩ := hc'.openTx rfl hf (nd.ppe.cycAddr.getD 0) false
    rw [htx]
    cases k with
    | true => exact ⟨_, rfl⟩
    | false => exact ct.noDevice rfl (ct.flowing (by decide) (by decide)) hr hF hL

theorem forwardStep_answers (h : Nat) : ∃ t, s.forwardStep h = .ok t := by
  refine whenNode_answers fun nd hn hg => ?_
  obtain ⟨hp, hh, -⟩ := coherent_node hs (List.mem_of_getElem? hn)
  simp only [Bool.and_eq_true, beq_iff_eq] at hg
  obtain ⟨⟨⟨-, hst⟩, -⟩, -⟩ := hg
  obtain ⟨hsec, hL, hF⟩ := hfeOk_requestForwarding hh hst
  obtain ⟨t, k, hw, ct⟩ := (hsec ▸ coherent_controls hs hn).writeByte (nd.ppe.req.toList.getD nd.hfe.fwdPos 0)
  rw [hw]
  cases k with
  | true => exact ⟨_, rfl⟩
  | false => exact ct.noDevice rfl (ct.flowing (by decide) (by decide)) (ppeOk_r54 hp) hF hL

theorem turnAroundStep_answers (h : Nat) : ∃ t, s.turnAroundStep h = .ok t := by
  refine whenNode_answers fun nd hn hg => ?_
  obtain ⟨hp, hh, -⟩ := coherent_node hs (List.mem_of_getElem? hn)
  simp only [Bool.and_eq_true, beq_iff_eq, Bool.not_eq_true'] at hg
  obtain ⟨⟨⟨⟨⟨-, hst⟩, -⟩, -⟩, -⟩, hfree⟩ := hg
  obtain ⟨hsec, hL, hF⟩ := hfeOk_requestForwarding hh hst
  obtain ⟨t, k, htx, ct, hk⟩ := (hsec ▸ coherent_controls hs hn).openTx rfl (flowing_of_not_held hfree)
    (nd.ppe.cycAddr.getD 0) true
  rw [htx]
  cases k with
  | true => exact ⟨_, rfl⟩
  | false => exact ct.noDevice rfl (hk rfl) (ppeOk_r54 hp) hF hL

theorem copyStep_answers (h : Nat) : ∃ t, s.copyStep h = .ok t := by
  refine whenNode_answers fun nd hn hg => ?_
  obtain ⟨-, hh, -⟩ := coherent_node hs (List.mem_of_getElem? hn)
  simp only [Bool.and_eq_true, beq_iff_eq, Bool.not_eq_true'] at hg
  obtain ⟨⟨⟨-, hst⟩, -⟩, hfree⟩ := hg
  obtain ⟨hsec, hF, hpos, hlt, hneed⟩ := hfeOk_replyForwarding hh hst
  simp only
  generalize decide (nd.hfe.rdPos + 1 = nd.hfe.rdNeed) = last
  obtain ⟨t, b, hread, ct, hlast⟩ :=
    (hsec ▸ coherent_controls hs hn).readByte (flowing_of_not_held hfree) (!last)
  obtain ⟨hub', hcommit, heq⟩ := commitPartial_answers (bs := [b]) (last := last)
    (nd := (nd.withSec .readData).withHfe fun f => { f with rdPos := f.rdPos + 1 }) hF
    (by simp only [withHfe_ppe, withSec_ppe, List.length_singleton]; omega)
  simp only [hread, ct.hub_at, hcommit]
  split
  · rename_i hl
    have cu : (t.setNode h hub').Controls h hub' .readData := ct.setNode (heq ▸ rfl) (heq ▸ rfl)
    obtain ⟨v, hstop, -⟩ := cu.stopTx rfl fun x hx =>
      hlast (by simp [hl]) x (mem_targets_setNode cu.apart hx)
    rw [hstop]
    exact ⟨_, rfl⟩
  · exact ⟨_, rfl⟩

theorem noBusStep_answers (h : Nat) : ∃ t, s.noBusStep h = .ok t := by
  refine whenNode_answers fun nd hn hg => ?_
  obtain ⟨hp, hh, -⟩ := coherent_node hs (List.mem_of_getElem? hn)
  obtain ⟨-, hpend⟩ := Bool.and_eq_true_iff.1 hg
  obtain ⟨hL, hF⟩ := childPending_noReply hh hpend
  rw [modNode_eq_setNode _ hn]
  have hc := (coherent_controls hs hn).setNode (hub' := nd.withHfe fun f => { f with fwdStarted := true }) rfl rfl
  exact commitAt_code_answers hc.hub_at (ppeOk_r54 hp) hF hL _

theorem hubStep_answers (h : Nat) (c : HfeStep) : ∃ t, s.hubStep h c = .ok t := by
  cases c with
  | resurrect => exact whenNode_answers fun _ _ _ => ⟨_, rfl⟩
  | notified => exact whenNode_answers fun _ _ _ => ⟨_, rfl⟩
  | openTx envLocked => exact openStep_answers hs h envLocked
  | flag => exact whenNode_answers fun _ _ _ => ⟨_, rfl⟩
  | forward => exact forwardStep_answers hs h
  | turnAround => exact turnAroundStep_answers hs h
  | copy => exact copyStep_answers hs h
  | endResurrection => exact whenNode_answers fun _ _ _ => ⟨_, rfl⟩
  | noBus => exact noBusStep_answers hs h

/-! ### From a coherent state every action is answered, but for a host event outside the grammar -/

/-- The host's event is answered wherever the grammar of R228 allows it, and otherwise refused (R229). -/
theorem hostEvent_cases (e : BusEvent) :
    (∃ t, s.hostEvent e = .ok t) ∨ (s.primary.next e = none ∧ s.hostEvent e = .error (.refused .busGrammar)) := by
  unfold State.hostEvent
  split
  · exact .inl ⟨s, rfl⟩
  · rename_i hfree
    cases hn : s.primary.next e with
    | none =>
      have hout : s.emit .primary e = .error (.refused .busGrammar) := emit_refused hn
      exact .inr ⟨rfl, by rw [hout]⟩
    | some q =>
      have hseg : ∀ nd ∈ s.targets .primary, segOk (s.phase .primary) nd.ppe = true := fun nd hm => by
        obtain ⟨hmem, hk⟩ := mem_targets.1 hm
        exact hk ▸ (coherent_node hs hmem).2.2
      have hout := emit_of_segOk (k := .primary) (e := e) hn hseg (flowing_of_not_held (Bool.eq_false_iff.2 hfree))
      exact .inl ⟨_, by rw [hout]⟩

theorem perform_cases (a : Action) :
    (∃ t, s.perform a = .next t) ∨
      ∃ e, a = .host e ∧ s.primary.next e = none ∧ s.perform a = .refused .busGrammar := by
  cases a with
  | host e =>
    rcases hostEvent_cases hs e with ⟨t, ht⟩ | ⟨hn, hr⟩
    · exact .inl ⟨t, out_next_iff.2 ht⟩
    · exact .inr ⟨e, rfl, hn, out_refused_iff.2 hr⟩
  | coop n c => exact .inl (coopStep_answers hs n c)
  | hub n c =>
    obtain ⟨t, ht⟩ := hubStep_answers hs n c
    exact .inl ⟨t, out_next_iff.2 ht⟩
  | collab n c => exact .inl ⟨_, rfl⟩
  | powerOn n => exact .inl ⟨_, rfl⟩

theorem coherent_advance : s.advance.coherent = true := by
  have hphase : ∀ k, s.advance.phase k = s.phase k := fun k => by cases k <;> rfl
  simpa only [State.coherent, State.tree, advance_nodes, hphase] using hs

/-- A step from a coherent state gives a next state, or refuses the host's event outside the grammar. -/
theorem step_of_coherent :
    (∃ t, step s = .next t) ∨
      ∃ e, s.nextAction = some (.host e) ∧ s.primary.next e = none ∧ step s = .refused .busGrammar := by
  rw [step, if_pos (coherent_r54 hs), State.act]
  cases ha : s.nextAction with
  | none => exact .inl ⟨_, rfl⟩
  | some a =>
    rcases perform_cases (coherent_advance hs) a with ht | ⟨e, rfl, hn, hr⟩
    · exact .inl ht
    · exact .inr ⟨e, rfl, hn, hr⟩

end

/-- Settles O56: every action of a coherent state is answered or is the host's refused event. -/
theorem coherentStepNeverFaults : Obligations.CoherentStepNeverFaults := by
  intro s f hs hfault
  rcases step_of_coherent hs with ⟨t, ht⟩ | ⟨e, -, -, hr⟩
  · exact absurd (ht.symm.trans hfault) (by simp)
  · exact absurd (hr.symm.trans hfault) (by simp)

end Sys2Proof.Machine

/-! SUPPORT. What one step can do to one node, said once (`step_change`): one access of a request, of the collaborator or
of the flag step, or a reset, and beside it nothing but the work of the engines, which touch no register and no memory. -/

namespace Sys2Proof.Machine

/-! ### The work of the engines on a node -/

/-- Node `nd'` is `nd` but for its PPE, its HFE and how far its secondary segment is. -/
def Node.enginesOnly (nd nd' : Node) : Prop := ∃ p f q, nd' = { nd with ppe := p, hfe := f, sec := q }

theorem Node.enginesOnly.refl (nd : Node) : nd.enginesOnly nd := ⟨_, _, _, rfl⟩

theorem Node.enginesOnly.trans {a b c : Node} : a.enginesOnly b → b.enginesOnly c → a.enginesOnly c := by
  rintro ⟨p, f, q, rfl⟩ ⟨p', f', q', rfl⟩
  exact ⟨_, _, _, rfl⟩

theorem enginesOnly_of_ppe {nd nd' : Node} (h : nd' = { nd with ppe := nd'.ppe }) : nd.enginesOnly nd' :=
  ⟨nd'.ppe, nd.hfe, nd.sec, h⟩

theorem withHfe_enginesOnly (nd : Node) (f : Hfe → Hfe) : nd.enginesOnly (nd.withHfe f) := ⟨_, _, _, rfl⟩

theorem onStop_enginesOnly (nd : Node) : nd.enginesOnly nd.onStop := ⟨_, _, _, rfl⟩

theorem Node.enginesOnly.ite {c : Prop} [Decidable c] {a b b' : Node} (h : a.enginesOnly b) (h' : a.enginesOnly b') :
    a.enginesOnly (if c then b else b') := by
  split
  · exact h
  · exact h'

theorem loadNext_enginesOnly (nd : Node) : nd.enginesOnly nd.loadNext := enginesOnly_of_ppe (loadNext_eq nd)

theorem onStart_enginesOnly (nd : Node) : nd.enginesOnly nd.onStart :=
  .trans (.ite ⟨_, _, _, rfl⟩ (.refl nd)) ⟨_, _, _, rfl⟩

theorem edge_enginesOnly (nd : Node) (e : BusEvent) : nd.enginesOnly (nd.edge e) := by
  refine .ite (.refl nd) ?_
  cases e with
  | start => exact onStart_enginesOnly nd
  | stop => exact onStop_enginesOnly nd
  | sclLow | wbyte b | rbyte | mack k => exact .ite ⟨_, _, _, rfl⟩ (.refl nd)
  | addr a rw => exact .ite (.ite ⟨_, _, _, rfl⟩ ⟨_, _, _, rfl⟩) (.refl nd)
  | ackEnd =>
    exact .ite (.ite (loadNext_enginesOnly nd) ⟨_, _, _, rfl⟩)
      (.ite (.ite (loadNext_enginesOnly nd) ⟨_, _, _, rfl⟩) (.refl nd))
  | notify => exact .refl nd

theorem resume_enginesOnly (nd : Node) : nd.enginesOnly nd.resume := enginesOnly_of_ppe (resume_eq nd)

theorem commit_enginesOnly {nd nd' : Node} {rep : List Byte} (h : nd.commit rep = .ok nd') : nd.enginesOnly nd' := by
  unfold Node.commit at h
  split at h
  · cases h
  · split at h
    · cases h
    · obtain rfl := Except.ok.inj h
      exact .trans ⟨_, _, _, rfl⟩ (resume_enginesOnly _)

theorem commitPartial_enginesOnly {nd nd' : Node} {bs : List Byte} {last : Bool}
    (h : nd.commitPartial bs last = .ok nd') : nd.enginesOnly nd' := by
  unfold Node.commitPartial at h
  split at h
  · cases h
  · obtain rfl := Except.ok.inj h
    exact .trans ⟨_, _, _, rfl⟩ (resume_enginesOnly _)

/-! ### States related node by node -/

/-- The two states have the same number of nodes, and `R` relates each node to the one in its place. -/
def State.nodewise (R : Node → Node → Prop) (s t : State) : Prop :=
  t.nodes.length = s.nodes.length ∧ ∀ (i : Nat) (nd nd' : Node), s.nodes[i]? = some nd → t.nodes[i]? = some nd' → R nd nd'

namespace State.nodewise

variable {R R' : Node → Node → Prop} {s t u : State}

theorem of_nodes_eq (hR : ∀ nd, R nd nd) (h : t.nodes = s.nodes) : s.nodewise R t :=
  ⟨by rw [h], fun i nd nd' hn hn' => by rw [h, hn] at hn'; exact Option.some.inj hn' ▸ hR nd⟩

theorem mono (h : s.nodewise R t) (hR : ∀ a b, R a b → R' a b) : s.nodewise R' t :=
  ⟨h.1, fun i nd nd' hn hn' => hR _ _ (h.2 i nd nd' hn hn')⟩

/-- Each node has one in its place. -/
theorem node_at (h : s.nodewise R t) {i : Nat} {nd : Node} (hn : s.nodes[i]? = some nd) :
    ∃ nd', t.nodes[i]? = some nd' ∧ R nd nd' := by
  have hlt : i < t.nodes.length := h.1 ▸ (List.getElem?_eq_some_iff.1 hn).1
  exact ⟨_, List.getElem?_eq_getElem hlt, h.2 i nd _ hn (List.getElem?_eq_getElem hlt)⟩

/-- And each node of the second state comes from one. -/
theorem node_before (h : s.nodewise R t) {i : Nat} {nd' : Node} (hn : t.nodes[i]? = some nd') :
    ∃ nd, s.nodes[i]? = some nd ∧ R nd nd' := by
  have hlt : i < s.nodes.length := h.1 ▸ (List.getElem?_eq_some_iff.1 hn).1
  exact ⟨_, List.getElem?_eq_getElem hlt, h.2 i _ nd' (List.getElem?_eq_getElem hlt) hn⟩

theorem comp (hst : s.nodewise R t) (htu : t.nodewise R' u) :
    s.nodewise (fun a c => ∃ b, R a b ∧ R' b c) u :=
  ⟨htu.1.trans hst.1, fun i nd nd' hn hn' => by
    obtain ⟨mid, hm, h1⟩ := hst.node_at hn
    exact ⟨mid, h1, htu.2 i mid nd' hm hn'⟩⟩

/-- `R` relates each node to what `f` makes of it. -/
theorem map (hR : ∀ nd, R nd (f nd)) (h : t.nodes = s.nodes.map f) : s.nodewise R t := by
  refine ⟨by simp [h], fun i nd nd' hn hn' => ?_⟩
  rw [h, List.getElem?_map, hn] at hn'
  exact Option.some.inj hn' ▸ hR nd

theorem setNode (hR : ∀ nd, R nd nd) {i : Nat} {nd nd' : Node} (hn : s.nodes[i]? = some nd) (h : R nd nd') :
    s.nodewise R (s.setNode i nd') := by
  refine ⟨by simp, fun j x x' hx hx' => ?_⟩
  rw [setNode_nodes, List.getElem?_set] at hx'
  split at hx'
  · subst_vars
    rw [hn] at hx
    split at hx'
    · exact Option.some.inj hx ▸ Option.some.inj hx' ▸ h
    · cases hx'
  · rw [hx] at hx'
    exact Option.some.inj hx' ▸ hR x

theorem modNode (hR : ∀ nd, R nd nd) {i : Nat} {f : Node → Node} (h : ∀ nd, R nd (f nd)) :
    s.nodewise R (s.modNode i f) := by
  cases hn : s.nodes[i]? with
  | none => exact of_nodes_eq hR (by simp [List.modify_eq_set_getElem?, hn])
  | some nd => exact modNode_eq_setNode f hn ▸ setNode hR hn (h nd)

end State.nodewise

/-- The two states differ in no node but by the work of its engines. -/
def State.enginesOnly (s t : State) : Prop := s.nodewise Node.enginesOnly t

theorem State.enginesOnly.refl (s : State) : s.enginesOnly s := .of_nodes_eq .refl rfl

theorem State.enginesOnly.trans {s t u : State} (hst : s.enginesOnly t) (htu : t.enginesOnly u) : s.enginesOnly u :=
  (State.nodewise.comp hst htu).mono fun _ _ ⟨_, h1, h2⟩ => h1.trans h2

/-! ### The steps of the engines -/

theorem setPhase_enginesOnly (s : State) (k : SegId) (q : BusPhase) : s.enginesOnly (s.setPhase k q) := by
  cases k with
  | primary => exact .of_nodes_eq .refl rfl
  | sub h => exact .modNode .refl fun _ => ⟨_, _, _, rfl⟩

theorem edgeAll_enginesOnly (s : State) (k : SegId) (e : BusEvent) : s.enginesOnly (s.edgeAll k e) :=
  .map (fun nd => by split; exacts [edge_enginesOnly nd e, .refl nd]) rfl

theorem emit_enginesOnly {s t : State} {k : SegId} {e : BusEvent} {r : Option Obs} (h : s.emit k e = .ok (t, r)) :
    s.enginesOnly t := by
  obtain ⟨q, -, -, rfl, -⟩ := emit_ok_iff.1 h
  exact (edgeAll_enginesOnly s k e).trans (setPhase_enginesOnly _ k q)

/-- A property of states that every event keeps, a sequence of events keeps. -/
theorem emitAll_keeps {P : State → Prop} {k : SegId}
    (hP : ∀ {s t : State} {e : BusEvent} {r : Option Obs}, P s → s.emit k e = .ok (t, r) → P t)
    {es : List BusEvent} {s t : State} {r r' : Option Obs} (hs : P s) (h : s.emitAll k es r = .ok (t, r')) : P t := by
  induction es generalizing s r with
  | nil => cases h; exact hs
  | cons e es ih =>
    rw [State.emitAll] at h
    split at h
    · cases h
    · rename_i he
      exact ih (hP hs he) h

theorem except_map_ok {ε α β : Type} {x : Except ε α} {f : α → β} {b : β} (h : x.map f = .ok b) :
    ∃ a, x = .ok a ∧ f a = b := by
  cases x with
  | error e => cases h
  | ok a => exact ⟨a, rfl, Except.ok.inj h⟩

section
variable {P : State → Prop} {k : SegId}
  (hP : ∀ {s t : State} {e : BusEvent} {r : Option Obs}, P s → s.emit k e = .ok (t, r) → P t) {s t : State} (hs : P s)
include hP hs

/-- The controller operations of R230 keep what every event keeps. -/
theorem openTx_keeps {a : BitVec 7} {rw ack : Bool} (h : s.openTx k a rw = .ok (t, ack)) : P t := by
  obtain ⟨⟨u, r⟩, he, hu⟩ := except_map_ok h
  obtain ⟨rfl, -⟩ := Prod.mk.inj hu
  exact emitAll_keeps hP hs he

theorem writeByte_keeps {b : Byte} {ack : Bool} (h : s.writeByte k b = .ok (t, ack)) : P t := by
  obtain ⟨⟨u, r⟩, he, hu⟩ := except_map_ok h
  obtain ⟨rfl, -⟩ := Prod.mk.inj hu
  exact emitAll_keeps hP hs he

theorem readByte_keeps {b : Byte} {ack : Bool} (h : s.readByte k ack = .ok (t, b)) : P t := by
  obtain ⟨⟨u, r⟩, he, hu⟩ := except_map_ok h
  obtain ⟨rfl, -⟩ := Prod.mk.inj hu
  exact emitAll_keeps hP hs he

theorem stopTx_keeps (h : s.stopTx k = .ok t) : P t := by
  obtain ⟨⟨u, r⟩, he, rfl⟩ := except_map_ok h
  exact hP hs he

end

theorem modHfe_enginesOnly (s : State) (i : Nat) (f : Hfe → Hfe) : s.enginesOnly (s.modNode i fun nd => nd.withHfe f) :=
  .modNode .refl fun nd => withHfe_enginesOnly nd f

theorem commitAt_ok {s t : State} {i : Nat} {rep : List Byte} (h : s.commitAt i rep = .ok t) :
    ∃ nd nd', s.nodes[i]? = some nd ∧ nd.commit rep = .ok nd' ∧ t = s.setNode i nd' := by
  unfold State.commitAt at h
  split at h
  · cases h
  · rename_i nd hn
    split at h
    · cases h
    · rename_i nd' hc
      exact ⟨nd, nd', hn, hc, (Except.ok.inj h).symm⟩

theorem commitAt_enginesOnly {s t : State} {i : Nat} {rep : List Byte} (h : s.commitAt i rep = .ok t) :
    s.enginesOnly t := by
  obtain ⟨nd, nd', hn, hc, rfl⟩ := commitAt_ok h
  exact .setNode .refl hn (commit_enginesOnly hc)

theorem enginesOnly_emit {s t u : State} {k : SegId} {e : BusEvent} {r : Option Obs} (hs : s.enginesOnly t)
    (h : t.emit k e = .ok (u, r)) : s.enginesOnly u :=
  hs.trans (emit_enginesOnly h)

theorem noDevice_ok {s t : State} {h : Nat} (hd : s.noDevice h = .ok t) :
    ∃ u v, s.stopTx (.sub h) = .ok u ∧ u.commitAt h [codeByte .noDevice] = .ok v ∧
      t = v.modNode h fun n => n.withHfe fun f => { f with st := .idle } := by
  unfold State.noDevice at hd
  split at hd
  · cases hd
  · rename_i u hstop
    split at hd
    · cases hd
    · rename_i v hc
      exact ⟨u, v, hstop, hc, (Except.ok.inj hd).symm⟩

theorem noDevice_enginesOnly {s t : State} {h : Nat} (hd : s.noDevice h = .ok t) : s.enginesOnly t := by
  obtain ⟨u, v, hstop, hc, rfl⟩ := noDevice_ok hd
  exact ((stopTx_keeps enginesOnly_emit (.refl s) hstop).trans (commitAt_enginesOnly hc)).trans (modHfe_enginesOnly v h _)

/-- After an operation on its segment, hub `h` goes on where its child acknowledged, and else gives up (R325, R330, R332). -/
def State.goesOn (u : State) (h : Nat) (ack : Bool) (f : Hfe → Hfe) (t : State) : Prop :=
  (ack = true ∧ t = u.modNode h fun n => n.withHfe f) ∨ (ack = false ∧ u.noDevice h = .ok t)

theorem goesOn_enginesOnly {u t : State} {h : Nat} {ack : Bool} {f : Hfe → Hfe} (hg : u.goesOn h ack f t) :
    u.enginesOnly t := by
  rcases hg with ⟨-, rfl⟩ | ⟨-, hd⟩
  · exact modHfe_enginesOnly u h f
  · exact noDevice_enginesOnly hd

/-- The open step that answers (R323 to R325). -/
theorem openStep_ok {s t : State} {h : Nat} {envLocked : Bool} (ht : s.openStep h envLocked = .ok t) :
    t = s ∨ ∃ nd, s.nodes[h]? = some nd ∧ nd.openEnabled = true ∧
      ((s.secLocked h envLocked = true ∧
          (s.modNode h fun n => n.withHfe fun f => { f with fwdStarted := true }).commitAt h [codeByte .noBus] = .ok t) ∨
        (s.secLocked h envLocked = false ∧ ∃ u k,
          (s.modNode h fun n => n.withHfe fun f => { f with fwdStarted := true }).openTx (.sub h) (nd.ppe.cycAddr.getD 0) false
            = .ok (u, k) ∧ u.goesOn h k (fun f => { f with fwdPos := 0, st := .requestForwarding }) t)) := by
  rcases whenNode_ok_cases ht with rfl | ⟨nd, hn, hg, ht⟩
  · exact .inl rfl
  · refine .inr ⟨nd, hn, hg, ?_⟩
    dsimp only at ht
    split at ht
    · rename_i hl; exact .inl ⟨hl, ht⟩
    · rename_i hl
      refine .inr ⟨Bool.eq_false_iff.2 hl, ?_⟩
      split at ht
      · cases ht
      · rename_i u he; exact ⟨u, true, he, .inl ⟨rfl, (Except.ok.inj ht).symm⟩⟩
      · rename_i u he; exact ⟨u, false, he, .inr ⟨rfl, ht⟩⟩

theorem openStep_enginesOnly {s t : State} {h : Nat} {envLocked : Bool} (ht : s.openStep h envLocked = .ok t) :
    s.enginesOnly t := by
  rcases openStep_ok ht with rfl | ⟨nd, -, -, ⟨-, hc⟩ | ⟨-, u, k, htx, hgo⟩⟩
  · exact .refl _
  · exact (modHfe_enginesOnly s h _).trans (commitAt_enginesOnly hc)
  · exact (openTx_keeps enginesOnly_emit (modHfe_enginesOnly s h _) htx).trans (goesOn_enginesOnly hgo)

/-- The forward step that answers (R329, R330). -/
theorem forwardStep_ok {s t : State} {h : Nat} (ht : s.forwardStep h = .ok t) :
    t = s ∨ ∃ nd, s.nodes[h]? = some nd ∧ nd.hfe.st = .requestForwarding ∧ nd.hfe.fwdPos < nd.ppe.reqLen ∧
      s.held (.sub h) = false ∧ ∃ u k, s.writeByte (.sub h) (nd.ppe.req.toList.getD nd.hfe.fwdPos 0) = .ok (u, k) ∧
        u.goesOn h k (fun f => { f with fwdPos := f.fwdPos + 1 }) t := by
  rcases whenNode_ok_cases ht with rfl | ⟨nd, hn, hg, ht⟩
  · exact .inl rfl
  · simp only [Bool.and_eq_true, beq_iff_eq, Bool.not_eq_true', decide_eq_true_eq] at hg
    obtain ⟨⟨⟨-, hst⟩, hpos⟩, hfree⟩ := hg
    refine .inr ⟨nd, hn, hst, hpos, hfree, ?_⟩
    split at ht
    · cases ht
    · rename_i u he; exact ⟨u, true, he, .inl ⟨rfl, (Except.ok.inj ht).symm⟩⟩
    · rename_i u he; exact ⟨u, false, he, .inr ⟨rfl, ht⟩⟩

theorem forwardStep_enginesOnly {s t : State} {h : Nat} (ht : s.forwardStep h = .ok t) : s.enginesOnly t := by
  rcases forwardStep_ok ht with rfl | ⟨nd, -, -, -, -, u, k, hw, hgo⟩
  · exact .refl _
  · exact (writeByte_keeps enginesOnly_emit (.refl s) hw).trans (goesOn_enginesOnly hgo)

/-- The turn-around step that answers (R331, R332). -/
theorem turnAroundStep_ok {s t : State} {h : Nat} (ht : s.turnAroundStep h = .ok t) :
    t = s ∨ ∃ nd, s.nodes[h]? = some nd ∧ nd.hfe.st = .requestForwarding ∧ s.held (.sub h) = false ∧
      ∃ u k, s.openTx (.sub h) (nd.ppe.cycAddr.getD 0) true = .ok (u, k) ∧
        u.goesOn h k (fun f => { f with rdNeed := nd.replyNeed, rdPos := 0, st := .replyForwarding }) t := by
  rcases whenNode_ok_cases ht with rfl | ⟨nd, hn, hg, ht⟩
  · exact .inl rfl
  · simp only [Bool.and_eq_true, beq_iff_eq, Bool.not_eq_true'] at hg
    obtain ⟨⟨⟨⟨⟨-, hst⟩, -⟩, -⟩, -⟩, hfree⟩ := hg
    refine .inr ⟨nd, hn, hst, hfree, ?_⟩
    split at ht
    · cases ht
    · rename_i u he; exact ⟨u, true, he, .inl ⟨rfl, (Except.ok.inj ht).symm⟩⟩
    · rename_i u he; exact ⟨u, false, he, .inr ⟨rfl, ht⟩⟩

theorem turnAroundStep_enginesOnly {s t : State} {h : Nat} (ht : s.turnAroundStep h = .ok t) : s.enginesOnly t := by
  rcases turnAroundStep_ok ht with rfl | ⟨nd, -, -, -, u, k, htx, hgo⟩
  · exact .refl _
  · exact (openTx_keeps enginesOnly_emit (.refl s) htx).trans (goesOn_enginesOnly hgo)

/-- The copy step that answers (R334, R335). -/
theorem copyStep_ok {s t : State} {h : Nat} (ht : s.copyStep h = .ok t) :
    t = s ∨ ∃ nd, s.nodes[h]? = some nd ∧ nd.hfe.st = .replyForwarding ∧ s.held (.sub h) = false ∧
      ∃ last u b n n', last = decide (nd.hfe.rdPos + 1 = nd.hfe.rdNeed) ∧ s.readByte (.sub h) (!last) = .ok (u, b) ∧
        u.nodes[h]? = some n ∧ (n.withHfe fun f => { f with rdPos := f.rdPos + 1 }).commitPartial [b] last = .ok n' ∧
        ((last = false ∧ t = u.setNode h n') ∨ (last = true ∧ ∃ v, (u.setNode h n').stopTx (.sub h) = .ok v ∧
          t = v.modNode h fun n => n.withHfe fun f => { f with st := .idle })) := by
  rcases whenNode_ok_cases ht with rfl | ⟨nd, hn, hg, ht⟩
  · exact .inl rfl
  · simp only [Bool.and_eq_true, beq_iff_eq, Bool.not_eq_true'] at hg
    obtain ⟨⟨⟨-, hst⟩, -⟩, hfree⟩ := hg
    refine .inr ⟨nd, hn, hst, hfree, decide (nd.hfe.rdPos + 1 = nd.hfe.rdNeed), ?_⟩
    dsimp only at ht
    generalize decide (nd.hfe.rdPos + 1 = nd.hfe.rdNeed) = last at ht ⊢
    split at ht
    · cases ht
    · rename_i u b he
      split at ht
      · cases ht
      · rename_i n hu
        split at ht
        · cases ht
        · rename_i n' hc
          refine ⟨u, b, n, n', rfl, he, hu, hc, ?_⟩
          split at ht
          · rename_i hl
            split at ht
            · cases ht
            · rename_i v hstop; exact .inr ⟨hl, v, hstop, (Except.ok.inj ht).symm⟩
          · rename_i hl; exact .inl ⟨Bool.eq_false_iff.2 hl, (Except.ok.inj ht).symm⟩

theorem copyStep_enginesOnly {s t : State} {h : Nat} (ht : s.copyStep h = .ok t) : s.enginesOnly t := by
  rcases copyStep_ok ht with rfl | ⟨nd, -, -, -, last, u, b, n, n', -, hr, hu, hc, hend⟩
  · exact .refl _
  · have hn' : s.enginesOnly (u.setNode h n') :=
      (readByte_keeps enginesOnly_emit (.refl s) hr).trans
        (.setNode .refl hu ((withHfe_enginesOnly n _).trans (commitPartial_enginesOnly hc)))
    rcases hend with ⟨-, rfl⟩ | ⟨-, v, hstop, rfl⟩
    · exact hn'
    · exact (stopTx_keeps enginesOnly_emit hn' hstop).trans (modHfe_enginesOnly v h _)

theorem noBusStep_enginesOnly {s t : State} {h : Nat} (ht : s.noBusStep h = .ok t) : s.enginesOnly t := by
  rcases whenNode_ok_cases ht with rfl | ⟨nd, -, -, ht⟩
  · exact .refl _
  · exact (modHfe_enginesOnly s h _).trans (commitAt_enginesOnly ht)

theorem hostEvent_enginesOnly {s t : State} {e : BusEvent} (ht : s.hostEvent e = .ok t) : s.enginesOnly t := by
  unfold State.hostEvent at ht
  split at ht
  · obtain rfl := Except.ok.inj ht; exact .refl _
  · split at ht
    · cases ht
    · rename_i u r he
      obtain rfl := Except.ok.inj ht
      exact (emit_enginesOnly he).trans (.of_nodes_eq .refl rfl)

theorem clearStep_enginesOnly {s t : State} {i : Nat} (ht : s.clearStep i = .ok t) : s.enginesOnly t := by
  rcases whenNode_ok_cases ht with rfl | ⟨nd, hn, -, ht⟩
  · exact .refl _
  · obtain rfl := Except.ok.inj ht
    exact .setNode .refl hn ⟨_, _, _, rfl⟩

theorem validateStep_enginesOnly {s t : State} {i : Nat} (ht : s.validateStep i = .ok t) : s.enginesOnly t := by
  rcases whenNode_ok_cases ht with rfl | ⟨nd, hn, -, ht⟩
  · exact .refl _
  · split at ht
    · obtain rfl := Except.ok.inj ht
      exact .setNode .refl hn ⟨_, _, _, rfl⟩
    · exact commitAt_enginesOnly ht

theorem notifyBegin_enginesOnly {s t : State} {i : Nat} (ht : s.notifyBegin i = .ok t) : s.enginesOnly t := by
  rcases whenNode_ok_cases ht with rfl | ⟨nd, hn, -, ht⟩
  · exact .refl _
  · obtain rfl := Except.ok.inj ht
    exact .setNode .refl hn ⟨_, _, _, rfl⟩

theorem notifyController_enginesOnly (s : State) (k : SegId) : s.enginesOnly (s.notifyController k) := by
  cases k with
  | primary => exact .of_nodes_eq .refl rfl
  | sub h => exact .modNode .refl fun _ => ⟨_, _, _, rfl⟩

theorem abandonTx_enginesOnly (s : State) (i : Nat) : s.enginesOnly (s.abandonTx i) := by
  unfold State.abandonTx
  split
  · exact .refl s
  · exact .map (fun nd => .ite (onStop_enginesOnly nd) (.refl nd)) rfl

/-! ### What decodes is one well-formed instruction -/

/-- A write-sized opcode carries one block (R112, R155). -/
theorem instrOf_wellFormed {op lo : Byte} {data : List Byte} (h : requestSize op = 19 → data.length = blkSize) :
    (instrOf op lo data).wellFormed = true := by
  unfold requestSize at h
  unfold instrOf
  split
  · split <;> rfl
  · split
    all_goals simp_all [Instr.wellFormed, blockOk]

/-- What decodes is well formed, and beside it stand the bytes past the opcode's size (R112, R118). -/
theorem decode_ok {op : Byte} {bs rest : List Byte} {i : Instr} (h : decode (op :: bs) = .ok (i, rest)) :
    i.wellFormed = true ∧ rest = bs.drop (requestSize op - 2) := by
  simp only [decode] at h
  split at h
  · cases h
  · rename_i hlen
    obtain ⟨rfl, rfl⟩ := Prod.mk.inj (Except.ok.inj h)
    refine ⟨instrOf_wellFormed fun h19 => ?_, rfl⟩
    simp only [List.length_drop, List.length_take, h19, blkSize_eq] at hlen ⊢
    omega

theorem decode_wellFormed {bs rest : List Byte} {i : Instr} (h : decode bs = .ok (i, rest)) : i.wellFormed = true := by
  cases bs with
  | nil => cases h
  | cons op bs => exact (decode_ok h).1

/-- Settles O16: a request of its opcode's size decodes (`decode_body_of_size`), with no byte past that size. -/
theorem validRequestDecodesWhole : Obligations.ValidRequestDecodesWhole := by
  intro p hr hv
  have hsize := r54_valid_size hr hv
  obtain ⟨i, rest, hd⟩ := decode_body_of_size hsize
  have hbody : p.body = p.req[1] :: p.body.drop 1 := by
    have h2 : 2 ≤ p.reqLen := hsize ▸ two_le_requestSize _
    have hlen : 1 < (p.req.toList.take p.reqLen).length := by simp; omega
    rw [Ppe.body, Ppe.reqBytes, List.drop_eq_getElem_cons hlen]
    simp
  obtain ⟨hwf, hrest⟩ := decode_ok (hbody ▸ hd)
  have hnil : rest = [] := by
    rw [hrest]
    apply List.drop_eq_nil_of_le
    have hlen : requestSize p.req[1] = p.reqLen := hsize.symm
    simp only [Ppe.body, Ppe.reqBytes, List.length_drop, List.length_take, Vector.length_toList]
    omega
  exact ⟨i, hnil ▸ hd, hwf⟩

/-! ### What one step can do to one node -/

/-- Node `nd` after one access to its registers or memory: a request's, the collaborator's or the flag step's (R328). -/
inductive Node.Access (nd : Node) : Node → Prop
  | unchanged : Access nd nd
  | regRead (r : BitVec 6) (draw : Nat) : Access nd (nd.regValue r draw).2
  | regWrite (r : BitVec 6) (v : Byte) (draw : Nat) : Access nd (nd.regStore r v draw)
  | memWrite (blk : BitVec 12) {data : List Byte} (hd : blockOk data = true) (draw : Nat) :
      Access nd (nd.memWriteBlock blk.toNat data draw).2
  | collab (c : CollabStep) : Access nd (nd.collabStep c)
  | raiseChild : Access nd (nd.setChanged (nd.reg 0 ||| nd.par.childMask))

/-- What one step with action `a` makes of node `nd`, the work of the engines apart: one access, the end of its notification
pulse (R286), or a reset (R400). -/
inductive Node.Change (a : Option Action) (nd nd' : Node) : Prop
  | access {mid : Node} (h : nd.Access mid) (he : mid.enginesOnly nd')
  | notified (he : { nd with notifyPending := false }.enginesOnly nd')
  | reset (ha : Action.isReset a = true) (kind : ResetKind) (busy : Bool) (draw : Nat)
      (he : (nd.afterReset kind busy draw).enginesOnly nd')

theorem Node.enginesOnly.change {a : Option Action} {nd nd' : Node} (h : nd.enginesOnly nd') : nd.Change a nd' :=
  .access .unchanged h

theorem Node.Change.refl (a : Option Action) (nd : Node) : nd.Change a nd := (Node.enginesOnly.refl nd).change

theorem State.enginesOnly.change {a : Option Action} {s t : State} (h : s.enginesOnly t) : s.nodewise (Node.Change a) t :=
  h.mono fun _ _ hab => hab.change

/-- The service that answers: the rule changed the served node, and a commit published its reply (R180). -/
theorem serve_next {s t : State} {f : Node → Nat → List Byte × Node} (h : s.serve f = .next t) :
    ∃ nd, s.nodes[s.cur]? = some nd ∧
      (s.setNode s.cur (f nd s.draws).2).draw.commitAt s.cur (f nd s.draws).1 = .ok t := by
  unfold State.serve at h
  split at h
  · cases h
  · rename_i nd hn
    exact ⟨nd, hn, out_next_iff.1 h⟩

theorem serve_change {a : Option Action} {s t : State} {f : Node → Nat → List Byte × Node}
    (hf : ∀ nd : Node, nd.Access (f nd s.draws).2) (h : s.serve f = .next t) : s.nodewise (Node.Change a) t := by
  obtain ⟨nd, hn, hc⟩ := serve_next h
  have hset : s.nodewise Node.Access (s.setNode s.cur (f nd s.draws).2).draw := .setNode (fun _ => .unchanged) hn (hf nd)
  exact (hset.comp (commitAt_enginesOnly hc)).mono fun _ _ ⟨_, h1, h2⟩ => .access h1 h2

/-- The rule by which an instruction's service makes the reply and changes the node (R182 to R186). -/
def serviceRule : Instr → Node → Nat → List Byte × Node
  | .regRead reg, nd, draw => ([codeByte .ok, (nd.regValue reg draw).1], (nd.regValue reg draw).2)
  | .regWrite reg value, nd, draw => ([codeByte .ok], nd.regStore reg value draw)
  | .memRead blk, nd, draw => (nd.memReadReply blk.toNat draw, nd)
  | .memWrite blk data, nd, draw =>
    ([codeByte (nd.memWriteBlock blk.toNat data draw).1], (nd.memWriteBlock blk.toNat data draw).2)
  | _, nd, _ => ([codeByte .illegal], nd)

/-- Every instruction is a service by its rule (R180). -/
theorem exec_eq_serve (i : Instr) (s : State) : exec i s = s.serve (serviceRule i) := by
  cases i <;> rfl

theorem serviceRule_access {i : Instr} (hi : i.wellFormed = true) (nd : Node) (draw : Nat) :
    nd.Access (serviceRule i nd draw).2 := by
  cases i with
  | regRead reg => exact .regRead reg draw
  | regWrite reg value => exact .regWrite reg value draw
  | memWrite blk data => exact .memWrite blk hi draw
  | memRead | rsvA0 | rsvB0 | rsvC0 | rsvD0 | rsvE0 | rsvF0 => exact .unchanged

/-- The service step that answers (R288): nothing happened, or it served the node with one access. -/
theorem serviceStep_next {s t : State} {n : Nat} (h : s.serviceStep n = .next t) :
    t = s ∨ ∃ nd f, s.nodes[n]? = some nd ∧ nd.serviceEnabled = true ∧ ({ s with cur := n } : State).serve f = .next t ∧
      ∀ nd : Node, nd.Access (f nd s.draws).2 := by
  unfold State.serviceStep at h
  split at h
  · exact .inl (Host.Outcome.next.inj h).symm
  · rename_i nd hn
    split at h
    · rename_i hg
      split at h
      · rename_i i rest hd
        rw [exec_eq_serve] at h
        exact .inr ⟨nd, _, hn, hg, h, fun x => serviceRule_access (decode_wellFormed hd) x _⟩
      · cases h
    · exact .inl (Host.Outcome.next.inj h).symm

theorem serviceStep_change {a : Option Action} {s t : State} {n : Nat} (h : s.serviceStep n = .next t) :
    s.nodewise (Node.Change a) t := by
  rcases serviceStep_next h with rfl | ⟨-, f, -, -, h, hf⟩
  · exact (State.enginesOnly.refl t).change
  · exact serve_change (s := { s with cur := n }) hf h

theorem notifyEnd_change {a : Option Action} {s t : State} {i : Nat} (h : s.notifyEnd i = .ok t) :
    s.nodewise (Node.Change a) t := by
  rcases whenNode_ok_cases h with rfl | ⟨nd, -, -, h⟩
  · exact (State.enginesOnly.refl t).change
  · obtain rfl := Except.ok.inj h
    have hend : (s.notifyController nd.seg).nodewise
        (fun x y => x.enginesOnly y ∨ { x with notifyPending := false }.enginesOnly y)
        ((s.notifyController nd.seg).modNode i fun n => { n with notifyPending := false, ppe := { n.ppe with st := .idle } }) :=
      .modNode (fun n => .inl (.refl n)) fun n => .inr ⟨_, _, _, rfl⟩
    refine ((notifyController_enginesOnly s nd.seg).comp hend).mono ?_
    rintro x y ⟨_, hx, hy | ⟨p', f', q', rfl⟩⟩
    · exact (hx.trans hy).change
    · obtain ⟨p, f, q, rfl⟩ := hx
      exact .notified ⟨_, _, _, rfl⟩

theorem flagStep_change {a : Option Action} {s t : State} {h : Nat} (ht : s.flagStep h = .ok t) :
    s.nodewise (Node.Change a) t := by
  rcases whenNode_ok_cases ht with rfl | ⟨nd, -, -, ht⟩
  · exact (State.enginesOnly.refl t).change
  · obtain rfl := Except.ok.inj ht
    exact .modNode (.refl a) fun n => .access .raiseChild (withHfe_enginesOnly _ _)

/-! ### Resets -/

/-- A reset replaces all that the engines work on, so it does not matter when they last did (R53). -/
theorem afterReset_enginesOnly {a b : Node} (h : a.enginesOnly b) (kind : ResetKind) (busy : Bool) (draw : Nat) :
    (a.afterReset kind busy draw).enginesOnly (b.afterReset kind busy draw) := by
  obtain ⟨p, f, q, rfl⟩ := h
  exact ⟨Ppe.afterReset busy draw, Hfe.afterReset draw, .idle, by cases kind <;> rfl⟩

/-- A reset of node `i` changes every other node by a STOP at most (R402). -/
theorem resetNode_nodewise (s : State) (i : Nat) (kind : ResetKind) :
    (s.resetNode i kind).nodes.length = s.nodes.length ∧ ∀ (j : Nat) (nd nd' : Node), s.nodes[j]? = some nd →
      (s.resetNode i kind).nodes[j]? = some nd' →
      if j = i then ∃ busy draw, (nd.afterReset kind busy draw).enginesOnly nd' else nd.enginesOnly nd' := by
  have hstop := abandonTx_enginesOnly s i
  unfold State.resetNode
  split
  · rename_i hi
    refine ⟨rfl, fun j nd nd' hn hn' => ?_⟩
    have hne : j ≠ i := fun h => by rw [h, hi] at hn; cases hn
    rw [if_neg hne, ← Option.some.inj (hn.symm.trans hn')]
    exact .refl nd
  · rename_i x hi
    refine ⟨by simpa using hstop.1, fun j nd nd' hn hn' => ?_⟩
    rw [draw_nodes, setNode_nodes, List.getElem?_set] at hn'
    split at hn'
    · rename_i hji
      obtain rfl : x = nd := Option.some.inj (hi.symm.trans (hji ▸ hn))
      split at hn'
      · rw [if_pos hji.symm, ← Option.some.inj hn']
        exact ⟨_, _, .refl _⟩
      · cases hn'
    · rename_i hne
      rw [if_neg (Ne.symm hne)]
      exact hstop.2 j nd nd' hn hn'

theorem resetNode_change {a : Option Action} (ha : Action.isReset a = true) (s : State) (i : Nat) (kind : ResetKind) :
    s.nodewise (Node.Change a) (s.resetNode i kind) := by
  obtain ⟨hlen, hnode⟩ := resetNode_nodewise s i kind
  refine ⟨hlen, fun j nd nd' hn hn' => ?_⟩
  have h := hnode j nd nd' hn hn'
  split at h
  · obtain ⟨busy, draw, he⟩ := h; exact .reset ha kind busy draw he
  · exact h.change

/-- The recovery of the first `m` nodes in the list of those on a hub's segment (R338). -/
def State.recoverFirst (s : State) (h m : Nat) : State :=
  (List.range m).foldl
    (fun t i => if (t.nodes[i]?.any fun nd => nd.seg == .sub h) then t.resetNode i .recovery else t) s

theorem recoverFirst_succ (s : State) (h m : Nat) :
    s.recoverFirst h (m + 1) =
      if ((s.recoverFirst h m).nodes[m]?.any fun nd => nd.seg == .sub h) then (s.recoverFirst h m).resetNode m .recovery
      else s.recoverFirst h m := by
  rw [State.recoverFirst, List.range_succ, List.foldl_append]
  rfl

/-- Each node is reset once at most: before its turn it has lost a transaction at most, and after its reset again. -/
theorem recoverFirst_nodewise (s : State) (h m : Nat) :
    (s.recoverFirst h m).nodes.length = s.nodes.length ∧ ∀ (i : Nat) (nd nd' : Node), s.nodes[i]? = some nd →
      (s.recoverFirst h m).nodes[i]? = some nd' →
      nd.enginesOnly nd' ∨ i < m ∧ ∃ busy draw, (nd.afterReset .recovery busy draw).enginesOnly nd' := by
  induction m with
  | zero => exact ⟨rfl, fun i nd nd' hn hn' => .inl (Option.some.inj (hn.symm.trans hn') ▸ .refl nd)⟩
  | succ m ih =>
    obtain ⟨hlen, hnode⟩ := ih
    rw [recoverFirst_succ]
    split
    · obtain ⟨hlen', hnode'⟩ := resetNode_nodewise (s.recoverFirst h m) m .recovery
      refine ⟨hlen'.trans hlen, fun i nd nd' hn hn' => ?_⟩
      obtain ⟨mid, hm⟩ : ∃ mid, (s.recoverFirst h m).nodes[i]? = some mid :=
        ⟨_, List.getElem?_eq_getElem (hlen ▸ (List.getElem?_eq_some_iff.1 hn).1)⟩
      have hlast := hnode' i mid nd' hm hn'
      rcases hnode i nd mid hn hm with he | ⟨hlt, busy, draw, he⟩
      · split at hlast
        · obtain ⟨busy, draw, hr⟩ := hlast
          exact .inr ⟨by omega, busy, draw, (afterReset_enginesOnly he _ _ _).trans hr⟩
        · exact .inl (he.trans hlast)
      · rw [if_neg (by omega)] at hlast
        exact .inr ⟨by omega, busy, draw, he.trans hlast⟩
    · exact ⟨hlen, fun i nd nd' hn hn' => (hnode i nd nd' hn hn').imp_right fun ⟨hlt, hr⟩ => ⟨by omega, hr⟩⟩

theorem recoverChildren_nodewise (s : State) (h : Nat) :
    s.nodewise (fun x y => x.enginesOnly y ∨ ∃ busy draw, (x.afterReset .recovery busy draw).enginesOnly y)
      (s.recoverChildren h) := by
  obtain ⟨hlen, hnode⟩ := recoverFirst_nodewise s h s.nodes.length
  exact ⟨hlen, fun i nd nd' hn hn' => (hnode i nd nd' hn hn').imp_right And.right⟩

theorem endResurrectionStep_change {a : Option Action} (ha : Action.isReset a = true) {s t : State} {h : Nat}
    (ht : s.endResurrectionStep h = .ok t) : s.nodewise (Node.Change a) t := by
  rcases whenNode_ok_cases ht with rfl | ⟨nd, -, -, ht⟩
  · exact (State.enginesOnly.refl t).change
  · obtain rfl := Except.ok.inj ht
    refine ((modHfe_enginesOnly s h fun f => { f with st := .idle }).comp (recoverChildren_nodewise _ h)).mono ?_
    rintro x y ⟨mid, hx, hy | ⟨busy, draw, hy⟩⟩
    · exact (hx.trans hy).change
    · exact .reset ha _ busy draw ((afterReset_enginesOnly hx _ _ _).trans hy)

/-! ### Every step -/

theorem rebootStep_change {a : Option Action} (ha : Action.isReset a = true) {s t : State} {i : Nat}
    (h : s.rebootStep i = .ok t) : s.nodewise (Node.Change a) t := by
  rcases whenNode_ok_cases h with rfl | ⟨nd, -, -, h⟩
  · exact (State.enginesOnly.refl t).change
  · obtain rfl := Except.ok.inj h
    exact resetNode_change ha s i .reboot

theorem coopStep_change {s t : State} {n : Nat} {c : PpeStep} (h : s.coopStep n c = .next t) :
    s.nodewise (Node.Change (some (.coop n c))) t := by
  cases c with
  | clear => exact (clearStep_enginesOnly (out_next_iff.1 h)).change
  | reboot => exact rebootStep_change rfl (out_next_iff.1 h)
  | validate => exact (validateStep_enginesOnly (out_next_iff.1 h)).change
  | service => exact serviceStep_change h
  | notifyBegin => exact (notifyBegin_enginesOnly (out_next_iff.1 h)).change
  | notifyEnd => exact notifyEnd_change (out_next_iff.1 h)

theorem hubStep_change {s t : State} {n : Nat} {c : HfeStep} (h : s.hubStep n c = .ok t) :
    s.nodewise (Node.Change (some (.hub n c))) t := by
  have hflag : ∀ {f : Hfe → Hfe} {g : Node → Bool},
      s.whenNode n g (fun _ => .ok (s.modNode n fun nd => nd.withHfe f)) = .ok t → s.enginesOnly t := by
    intro f g h
    rcases whenNode_ok_cases h with rfl | ⟨nd, -, -, h⟩
    · exact .refl t
    · exact Except.ok.inj h ▸ modHfe_enginesOnly s n f
  cases c with
  | resurrect => exact (hflag h).change
  | notified => exact (hflag h).change
  | openTx envLocked => exact (openStep_enginesOnly h).change
  | flag => exact flagStep_change h
  | forward => exact (forwardStep_enginesOnly h).change
  | turnAround => exact (turnAroundStep_enginesOnly h).change
  | copy => exact (copyStep_enginesOnly h).change
  | endResurrection => exact endResurrectionStep_change rfl h
  | noBus => exact (noBusStep_enginesOnly h).change

theorem perform_change {s t : State} {a : Action} (h : s.perform a = .next t) : s.nodewise (Node.Change (some a)) t := by
  cases a with
  | host e => exact (hostEvent_enginesOnly (out_next_iff.1 h)).change
  | coop n c => exact coopStep_change h
  | hub n c => exact hubStep_change (out_next_iff.1 h)
  | collab n c =>
    obtain rfl := Host.Outcome.next.inj h
    exact .modNode (.refl _) fun nd => .access (.collab c) (.refl _)
  | powerOn n =>
    obtain rfl := Host.Outcome.next.inj h
    exact resetNode_change rfl s n .powerOn

/-- A step changes each node in one way of `Node.Change`, and no place in the list of nodes (R10). -/
theorem step_change {s t : State} (h : step s = .next t) : s.nodewise (Node.Change s.nextAction) t := by
  obtain ⟨-, ⟨ha, rfl⟩ | ⟨a, ha, hp⟩⟩ := step_next_cases h
  · exact .of_nodes_eq (.refl _) rfl
  · exact ha ▸ perform_change (s := s.advance) hp

/-- What an access keeps, every step keeps, if the end of a pulse and a reset keep it too and it is none of the engines'. -/
theorem Node.Change.keeps {R : Node → Node → Prop} {a : Option Action} {nd nd' : Node} (h : nd.Change a nd')
    (hengines : ∀ {x y : Node}, R nd x → x.enginesOnly y → R nd y) (haccess : ∀ {x : Node}, nd.Access x → R nd x)
    (hnotified : R nd { nd with notifyPending := false })
    (hreset : ∀ kind busy draw, Action.isReset a = true → R nd (nd.afterReset kind busy draw)) : R nd nd' := by
  cases h with
  | access h he => exact hengines (haccess h) he
  | notified he => exact hengines hnotified he
  | reset ha kind busy draw he => exact hengines (hreset kind busy draw ha) he

end Sys2Proof.Machine

/-! SUPPORT. What no step changes in a node (R12, R36), the notification latch over every step (R38), the hub's membership law
(R33, R34) and the state after reset (R53). -/

namespace Sys2Proof.Machine

/-! ### No step changes a node's fixed parts -/

@[simp] theorem redrawApp_fixed (nd : Node) (d : Nat) : (nd.redrawApp d).fixed = nd.fixed := by
  simp [Node.fixed]
@[simp] theorem setChanged_fixed (nd : Node) (v : Byte) : (nd.setChanged v).fixed = nd.fixed := rfl
@[simp] theorem setReg_fixed (nd : Node) (r : BitVec 6) (v : Byte) : (nd.setReg r v).fixed = nd.fixed := rfl
@[simp] theorem afterReset_fixed (nd : Node) (kind : ResetKind) (busy : Bool) (d : Nat) :
    (nd.afterReset kind busy d).fixed = nd.fixed := by
  simp only [Node.fixed, Node.afterReset]

@[simp] theorem regValue_fixed (nd : Node) (r : BitVec 6) (d : Nat) : (nd.regValue r d).2.fixed = nd.fixed := by
  unfold Node.regValue Node.appRegRead
  repeat' split
  all_goals simp

/-- A write of `REG_CTRL` makes requests and no more (R188). -/
theorem ctrlWrite_eq (nd : Node) (v : Byte) : ∃ rr rs,
    nd.ctrlWrite v = { nd with rebootReq := rr, hfe := { nd.hfe with resurrectReq := rs } } := by
  unfold Node.ctrlWrite
  dsimp only
  repeat' split
  all_goals exact ⟨_, _, rfl⟩

@[simp] theorem ctrlWrite_fixed (nd : Node) (v : Byte) : (nd.ctrlWrite v).fixed = nd.fixed := by
  obtain ⟨rr, rs, h⟩ := ctrlWrite_eq nd v
  rw [h]; rfl

@[simp] theorem regStore_fixed (nd : Node) (r : BitVec 6) (v : Byte) (d : Nat) : (nd.regStore r v d).fixed = nd.fixed := by
  unfold Node.regStore Node.appRegWrite
  repeat' split
  all_goals simp

@[simp] theorem programPage_fixed (nd : Node) (b d : Nat) : (nd.programPage b d).fixed = nd.fixed := by
  unfold Node.programPage
  dsimp only
  split <;> rfl

@[simp] theorem memWriteBlock_fixed (nd : Node) (b : Nat) (data : List Byte) (d : Nat) :
    (nd.memWriteBlock b data d).2.fixed = nd.fixed := by
  unfold Node.memWriteBlock
  split
  · rfl
  · rfl
  · split
    · exact programPage_fixed ..
    · rfl
  · rfl
  · rfl

@[simp] theorem collabStep_fixed (nd : Node) (c : CollabStep) : (nd.collabStep c).fixed = nd.fixed := by
  cases c <;> simp only [Node.collabStep] <;> repeat' split
  all_goals rfl

theorem Node.Access.fixed_eq {nd mid : Node} (h : nd.Access mid) : mid.fixed = nd.fixed := by
  cases h <;> simp

theorem Node.enginesOnly.fixed_eq {nd nd' : Node} (h : nd.enginesOnly nd') : nd'.fixed = nd.fixed := by
  obtain ⟨p, f, q, rfl⟩ := h
  rfl

theorem Node.Change.fixed_eq {a : Option Action} {nd nd' : Node} (h : nd.Change a nd') : nd'.fixed = nd.fixed :=
  h.keeps (R := fun x y => y.fixed = x.fixed) (fun hx he => he.fixed_eq.trans hx) Node.Access.fixed_eq rfl
    fun kind busy draw _ => afterReset_fixed nd kind busy draw

/-- Settles O58: no way to change a node (`Node.Change`) changes its fixed parts. -/
theorem stepKeepsFixedParts : Obligations.StepKeepsFixedParts := by
  intro s t h
  have hc := step_change h
  refine List.ext_getElem (by simp [hc.1]) fun i hi hi' => ?_
  simp only [List.getElem_map]
  simp only [List.length_map] at hi hi'
  exact (hc.2 i _ _ (List.getElem?_eq_getElem hi') (List.getElem?_eq_getElem hi)).fixed_eq

/-! ### A bit of `REG_CHANGED` that rises sets the notification latch -/

/-- A bit of `REG_CHANGED` that rises from `nd` to `nd'` leaves the latch set (R38). -/
def Node.risesNotify (nd nd' : Node) : Prop :=
  ∀ k, nd.regs[0].getLsbD k = false → nd'.regs[0].getLsbD k = true → nd'.notifyPending = true

theorem risesNotify_of_same {nd nd' : Node} (h : nd'.regs[0] = nd.regs[0]) : nd.risesNotify nd' := by
  intro k h0 h1
  rw [h, h0] at h1
  cases h1

theorem setChanged_risesNotify (nd : Node) (v : Byte) : nd.risesNotify (nd.setChanged v) := by
  intro k h0 h1
  rw [setChanged_regs, Vector.getElem_set_self] at h1
  exact setChanged_rise h0 h1

/-- A register other than `REG_CHANGED` is stored beside it (R30). -/
theorem setReg_risesNotify (nd : Node) {r : BitVec 6} (v : Byte) (hr : r ≠ 0) : nd.risesNotify (nd.setReg r v) := by
  have hne : r.toNat ≠ 0 := fun h => hr (BitVec.eq_of_toNat_eq h)
  exact risesNotify_of_same (Vector.getElem_set_ne r.isLt (by decide) hne)

theorem redrawApp_risesNotify (nd : Node) (d : Nat) : nd.risesNotify (nd.redrawApp d) := (redrawApp_changed nd d).2.2

theorem regValue_risesNotify (nd : Node) (r : BitVec 6) (d : Nat) : nd.risesNotify (nd.regValue r d).2 := by
  unfold Node.regValue Node.appRegRead
  repeat' split
  · exact risesNotify_of_same rfl
  · exact setChanged_risesNotify nd _
  · exact risesNotify_of_same rfl
  · exact redrawApp_risesNotify nd d
  · exact risesNotify_of_same rfl

theorem regStore_risesNotify (nd : Node) (r : BitVec 6) (v : Byte) (d : Nat) : nd.risesNotify (nd.regStore r v d) := by
  unfold Node.regStore
  split
  · exact risesNotify_of_same rfl
  · rename_i hr
    obtain ⟨h0, -⟩ := not_or.1 hr
    have hset := setReg_risesNotify nd v h0
    split
    · exact hset
    · split
      · obtain ⟨rr, rs, heq⟩ := ctrlWrite_eq (nd.setReg r v) v
        rw [heq]
        exact hset
      · unfold Node.appRegWrite
        split
        · exact redrawApp_risesNotify nd d
        · exact hset

@[simp] theorem programPage_regs (nd : Node) (b d : Nat) : (nd.programPage b d).regs = nd.regs := by
  unfold Node.programPage
  dsimp only
  split <;> rfl

@[simp] theorem memWriteBlock_regs (nd : Node) (b : Nat) (data : List Byte) (d : Nat) :
    (nd.memWriteBlock b data d).2.regs = nd.regs := by
  unfold Node.memWriteBlock
  repeat' split
  all_goals simp

theorem collabStep_risesNotify (nd : Node) (c : CollabStep) : nd.risesNotify (nd.collabStep c) := by
  cases c with
  | setChanged v => exact setChanged_risesNotify nd _
  | setReg r v =>
    simp only [Node.collabStep]
    split
    · exact risesNotify_of_same (nd := nd) rfl
    · rename_i hr
      exact setReg_risesNotify nd v fun h0 => hr (by simp [Params.coreOwned, h0])
  | writeRam a v =>
    simp only [Node.collabStep]
    split <;> exact risesNotify_of_same (nd := nd) rfl

theorem Node.Access.risesNotify {nd mid : Node} (h : nd.Access mid) : nd.risesNotify mid := by
  cases h with
  | unchanged => exact risesNotify_of_same rfl
  | regRead r d => exact regValue_risesNotify nd r d
  | regWrite r v d => exact regStore_risesNotify nd r v d
  | memWrite blk hd d => exact risesNotify_of_same (by rw [memWriteBlock_regs])
  | collab c => exact collabStep_risesNotify nd c
  | raiseChild => exact setChanged_risesNotify nd _

/-- A reset clears every register of the protocol core (R53). -/
theorem afterReset_reg {nd : Node} {r : BitVec 6} (h : nd.par.coreOwned r = true) (kind : ResetKind) (busy : Bool) (d : Nat) :
    (nd.afterReset kind busy d).reg r = 0 := by
  simp [Node.reg, Node.afterReset, Node.resetRegs, h]

theorem Node.Change.risesNotify {a : Option Action} {nd nd' : Node} (h : nd.Change a nd') : nd.risesNotify nd' := by
  refine h.keeps (R := Node.risesNotify) ?_ Node.Access.risesNotify (risesNotify_of_same rfl) fun kind busy draw _ k _ h1 => ?_
  · rintro x y hx ⟨p, f, q, rfl⟩
    exact hx
  · have h0 : (nd.afterReset kind busy draw).regs[0] = 0 := afterReset_reg (r := 0) (by simp [Params.coreOwned]) ..
    simp [h0] at h1

/-- Settles O38: each access raises a bit by `setChanged` alone, and a reset clears them all (R38, R53). -/
theorem raisedChangedBitNotifies : Obligations.RaisedChangedBitNotifies :=
  fun _ _ i k nd nd' h hn hn' => ((step_change h).2 i nd nd' hn hn').risesNotify k

/-! ### The hub's membership law and the state after reset -/

/-- Settles O10: unsigned comparisons of the addresses (R33), and the cell of R261 for `ADDR` in `Addressing`. -/
theorem hubMembershipLaw : Obligations.HubMembershipLaw := by
  intro nd a
  have hchild : nd.isChild a = true ↔
      nd.hubCapable = true ∧ nd.cfg.ownAddr.toNat < a.toNat ∧ a.toNat ≤ nd.cfg.hubMax.toNat := by
    simp [Node.isChild, BitVec.lt_def, BitVec.le_def, and_assoc]
  refine ⟨hchild, fun hempty => ?_, by simp [Node.matches], fun hst rw => ?_⟩
  · rw [← Bool.not_eq_true, hchild]
    omega
  · by_cases hm : nd.matches a = true <;> simp [Node.edge, edgeApplies, hst, Node.onAddr, hm]

/-- Settles O53: State.reset is one closed state. -/
theorem resetStateIsCoherent : Obligations.ResetStateIsCoherent := by
  unfold Obligations.ResetStateIsCoherent
  decide

end Sys2Proof.Machine

/-! SUPPORT. Memory over a step: every way to change a node (`Node.Change`) keeps its memories canonical and only writable
program blocks pending. -/

namespace Sys2Proof.Machine

theorem memOk_iff (nd : Node) : nd.memOk = true ↔
    nd.mem.wf = true ∧ nd.progBuf.wf = true ∧ nd.progPending.Pairwise (· < ·) ∧ ∀ b ∈ nd.progPending,
      b < 4096 ∧ nd.par.region b = .prog ∧ nd.par.isProtected b = false ∧ nd.par.halfOf b ≠ nd.execHalf := by
  simp [Node.memOk, and_assoc]

/-- What `memOk` speaks of is the same in both nodes, but for the memory, which stays canonical. -/
structure Node.MemFrame (nd nd' : Node) : Prop where
  par      : nd'.par = nd.par
  execHalf : nd'.execHalf = nd.execHalf
  pending  : nd'.progPending = nd.progPending
  buf      : nd'.progBuf = nd.progBuf
  mem      : nd.mem.wf = true → nd'.mem.wf = true

theorem Node.MemFrame.refl (nd : Node) : nd.MemFrame nd := ⟨rfl, rfl, rfl, rfl, id⟩

theorem Node.MemFrame.memOk {nd nd' : Node} (h : nd.MemFrame nd') (hm : nd.memOk = true) : nd'.memOk = true := by
  rw [memOk_iff] at *
  obtain ⟨hmem, hbuf, hrise, hblocks⟩ := hm
  exact ⟨h.mem hmem, h.buf ▸ hbuf, h.pending ▸ hrise, by rw [h.pending, h.par, h.execHalf]; exact hblocks⟩

theorem Node.enginesOnly.memFrame {nd nd' : Node} (h : nd.enginesOnly nd') : nd.MemFrame nd' := by
  obtain ⟨p, f, q, rfl⟩ := h
  exact ⟨rfl, rfl, rfl, rfl, id⟩

theorem setChanged_memFrame (nd : Node) (v : Byte) : nd.MemFrame (nd.setChanged v) := ⟨rfl, rfl, rfl, rfl, id⟩

theorem setReg_memFrame (nd : Node) (r : BitVec 6) (v : Byte) : nd.MemFrame (nd.setReg r v) := ⟨rfl, rfl, rfl, rfl, id⟩

theorem redrawApp_memFrame (nd : Node) (d : Nat) : nd.MemFrame (nd.redrawApp d) where
  par := redrawApp_par nd d
  execHalf := redrawApp_execHalf nd d
  pending := redrawApp_progPending nd d
  buf := redrawApp_progBuf nd d
  mem := redrawApp_wf d

theorem regValue_memFrame (nd : Node) (r : BitVec 6) (d : Nat) : nd.MemFrame (nd.regValue r d).2 := by
  unfold Node.regValue Node.appRegRead
  repeat' split
  · exact .refl nd
  · exact setChanged_memFrame nd _
  · exact .refl nd
  · exact redrawApp_memFrame nd d
  · exact .refl nd

theorem regStore_memFrame (nd : Node) (r : BitVec 6) (v : Byte) (d : Nat) : nd.MemFrame (nd.regStore r v d) := by
  unfold Node.regStore Node.appRegWrite
  repeat' split
  · exact .refl nd
  · exact setReg_memFrame nd r v
  · obtain ⟨rr, rs, heq⟩ := ctrlWrite_eq (nd.setReg r v) v
    rw [heq]
    exact ⟨rfl, rfl, rfl, rfl, id⟩
  · exact redrawApp_memFrame nd d
  · exact setReg_memFrame nd r v

theorem collabStep_memFrame (nd : Node) (c : CollabStep) : nd.MemFrame (nd.collabStep c) := by
  cases c with
  | setChanged v => exact setChanged_memFrame nd _
  | setReg r v =>
    simp only [Node.collabStep]
    split
    · exact .refl nd
    · exact setReg_memFrame nd r v
  | writeRam a v =>
    simp only [Node.collabStep]
    split
    · exact ⟨rfl, rfl, rfl, rfl, write_wf v a.isLt⟩
    · exact .refl nd

/-- A block lies inside the space (R80, R83). -/
theorem writeBlock_wf {m : Memory} {blk : Nat} {data : List Byte} (hb : blk < 4096) (hd : blockOk data = true)
    (h : m.wf = true) : (m.writeBytes (blkBase blk) data).wf = true := by
  have hlen : data.length = 16 := by simpa [blockOk] using hd
  refine writeBytes_wf data ?_ h
  simp only [blkBase, blkSize_eq, hlen]
  omega

theorem programPage_memOk {nd : Node} (blk draw : Nat) (h : nd.memOk = true) : (nd.programPage blk draw).memOk = true := by
  obtain ⟨hmem, hbuf, hrise, hblocks⟩ := (memOk_iff nd).1 h
  obtain ⟨hmem', hbuf'⟩ := programPage_wf blk draw hmem hbuf
  refine (memOk_iff _).2 ⟨hmem', hbuf', ?_⟩
  unfold Node.programPage
  dsimp only
  split
  · exact ⟨hrise.filter _, fun b hb => hblocks b (List.mem_of_mem_filter hb)⟩
  · exact ⟨hrise, hblocks⟩

/-- A block becomes pending where it is writable (R85, R86). -/
theorem memWriteBlock_memOk {nd : Node} (blk : BitVec 12) {data : List Byte} (hd : blockOk data = true) (draw : Nat)
    (h : nd.memOk = true) : (nd.memWriteBlock blk.toNat data draw).2.memOk = true := by
  obtain ⟨hmem, hbuf, hrise, hblocks⟩ := (memOk_iff nd).1 h
  have hwrite {m : Memory} : m.wf = true → (m.writeBytes (blkBase blk.toNat) data).wf = true := writeBlock_wf blk.isLt hd
  have hdata : ({ nd with mem := nd.mem.writeBytes (blkBase blk.toNat) data } : Node).memOk = true :=
    Node.MemFrame.memOk (nd := nd) ⟨rfl, rfl, rfl, rfl, hwrite⟩ h
  unfold Node.memWriteBlock
  split
  · exact h
  · exact h
  · rename_i hprog
    split
    · rename_i hw
      simp only [Node.progWritable, Bool.and_eq_true, Bool.not_eq_true', bne_iff_ne] at hw
      obtain ⟨⟨-, hprot⟩, hhalf⟩ := hw
      refine programPage_memOk _ _ ((memOk_iff _).2 ⟨hmem, hwrite hbuf, addBlock_rising _ hrise, fun b hb => ?_⟩)
      rcases mem_addBlock.1 hb with rfl | hb
      · exact ⟨blk.isLt, hprog, hprot, hhalf⟩
      · exact hblocks b hb
    · exact h
  · exact hdata
  · exact hdata

theorem Node.Access.memOk {nd mid : Node} (h : nd.Access mid) (hm : nd.memOk = true) : mid.memOk = true := by
  cases h with
  | unchanged => exact hm
  | regRead r d => exact (regValue_memFrame nd r d).memOk hm
  | regWrite r v d => exact (regStore_memFrame nd r v d).memOk hm
  | memWrite blk hd d => exact memWriteBlock_memOk blk hd d hm
  | collab c => exact (collabStep_memFrame nd c).memOk hm
  | raiseChild => exact (setChanged_memFrame nd _).memOk hm

/-- After a reset no block is pending (R87, R403). -/
theorem afterReset_memOk {nd : Node} (kind : ResetKind) (busy : Bool) (draw : Nat) (h : nd.memOk = true) :
    (nd.afterReset kind busy draw).memOk = true := by
  obtain ⟨hmem, -, -, hblocks⟩ := (memOk_iff nd).1 h
  refine (memOk_iff _).2 ⟨resetMem_wf draw hmem fun b hb => (hblocks b hb).1, rfl, .nil, fun b hb => ?_⟩
  cases hb

theorem Node.Change.memOk {a : Option Action} {nd nd' : Node} (h : nd.Change a nd') (hm : nd.memOk = true) :
    nd'.memOk = true :=
  h.keeps (R := fun _ y => y.memOk = true) (fun hx he => he.memFrame.memOk hx) (fun hx => hx.memOk hm)
    (Node.MemFrame.memOk ⟨rfl, rfl, rfl, rfl, id⟩ hm) fun kind busy draw _ => afterReset_memOk kind busy draw hm

end Sys2Proof.Machine

/-! SUPPORT. What a reset of any kind leaves of the node (R53, R400 to R405) and of the rest of the network (R402). -/

namespace Sys2Proof.Machine

theorem step_of_action {s : State} {a : Action} (hr : s.r54 = true) (ha : s.nextAction = some a) :
    step s = s.advance.perform a := by
  rw [step, if_pos hr, State.act, ha]

@[simp] theorem advance_phase (s : State) (k : SegId) : s.advance.phase k = s.phase k := by
  cases k <;> rfl

/-- Writing whole blocks leaves the bytes of the others (R83). -/
theorem read_foldl_blocks_out (f : Nat → List Byte) (hf : ∀ b, (f b).length = blkSize) {bs : List Nat} {a : Nat}
    (ha : a / 16 ∉ bs) (m : Memory) :
    (bs.foldl (fun m b => m.writeBytes (blkBase b) (f b)) m).read? a = m.read? a := by
  induction bs generalizing m with
  | nil => rfl
  | cons b bs ih =>
    rw [List.mem_cons, not_or] at ha
    obtain ⟨hab, habs⟩ := ha
    rw [List.foldl_cons, ih habs, read_writeBytes_out]
    simp only [hf b, blkBase, blkSize_eq]
    omega

/-- A reset keeps every byte outside working storage that was not pending (R403). -/
theorem afterReset_readByte {nd : Node} {a : Nat} (kind : ResetKind) (busy : Bool) (draw : Nat)
    (hram : nd.par.region (a / 16) ≠ .ram) (hpend : a / 16 ∉ nd.progPending) :
    (nd.afterReset kind busy draw).readByte a = nd.readByte a := by
  have hkept : nd.memWithoutRam.read? a = nd.mem.read? a :=
    read_filter_kept (fun x => nd.par.region (x / blkSize) != .ram) (by simpa using hram)
  have hmem : (nd.afterReset kind busy draw).mem.read? a = nd.mem.read? a :=
    (read_foldl_blocks_out _ (fun b => by simp) hpend _).trans hkept
  have hpar : (nd.afterReset kind busy draw).par = nd.par := by simp only [Node.afterReset]
  have hkey : (nd.afterReset kind busy draw).nodeKey = nd.nodeKey := by simp only [Node.afterReset]
  simp only [Node.readByte, hmem, hpar, hkey, blkSize_eq, if_neg hram]

theorem loadCfg_of_decoded {nd : Node} {c : RunCfg} (h : Config.cfgDecode nd.configBytes = some c) : nd.loadCfg = c := by
  simp [Node.loadCfg, h]

theorem loadCfg_unprovisioned {nd : Node} (h : Config.cfgDecode nd.configBytes = none) :
    nd.loadCfg.ownAddr = nd.par.defaultAddr ∧ nd.loadCfg.hubMax = nd.par.defaultAddr := by
  simp [Node.loadCfg, h]

theorem afterReset_wasReset (nd : Node) (kind : ResetKind) (busy : Bool) (draw : Nat) :
    nd.wasReset (nd.afterReset kind busy draw) := by
  refine ⟨rfl, rfl, rfl, rfl, rfl, rfl, rfl, rfl, rfl, rfl, rfl, rfl, rfl, rfl, rfl, rfl, rfl, ?_, ?_, ?_, rfl, ?_, ?_, ?_, ?_⟩
  · exact afterReset_reg (by simp [Params.coreOwned]) ..
  · exact afterReset_reg (by simp [Params.coreOwned]) ..
  · exact afterReset_reg (by simp [Params.coreOwned]) ..
  · exact fun c hc => loadCfg_of_decoded hc
  · exact loadCfg_unprovisioned
  · exact fun a => afterReset_readByte kind busy draw
  · exact afterReset_fixed nd kind busy draw

theorem resetNode_eq {s : State} {i : Nat} {nd : Node} (hn : s.nodes[i]? = some nd) (kind : ResetKind) :
    s.resetNode i kind =
      ((s.abandonTx i).setNode i (nd.afterReset kind (decide (s.phase nd.seg ≠ .idle)) s.draws)).draw := by
  rw [State.resetNode, hn]

/-- The node at `j` after an open secondary transaction of hub `i` was abandoned (R402). -/
theorem abandonTx_getElem? (s : State) (i j : Nat) : (s.abandonTx i).nodes[j]? = s.nodes[j]?.map fun nd =>
    if nd.seg = .sub i ∧ s.phase (.sub i) ≠ .idle ∧ nd.ppe.st ≠ .sendingStalled then nd.onStop else nd := by
  unfold State.abandonTx
  split
  · rename_i h; simp [h]
  · rename_i h; simp [h]

theorem resetNode_self {s : State} {i : Nat} {nd : Node} (hn : s.nodes[i]? = some nd) (kind : ResetKind) :
    (s.resetNode i kind).nodes[i]? = some (nd.afterReset kind (decide (s.phase nd.seg ≠ .idle)) s.draws) := by
  have hlt : i < (s.abandonTx i).nodes.length :=
    (abandonTx_enginesOnly s i).1 ▸ (List.getElem?_eq_some_iff.1 hn).1
  rw [resetNode_eq hn, draw_nodes, setNode_nodes, List.getElem?_set_self hlt]

theorem resetNode_other {s : State} {i j : Nat} {nd : Node} (hn : s.nodes[i]? = some nd) (hj : j ≠ i) (kind : ResetKind) :
    (s.resetNode i kind).nodes[j]? = (s.abandonTx i).nodes[j]? := by
  rw [resetNode_eq hn, draw_nodes, setNode_nodes, List.getElem?_set_ne (Ne.symm hj)]

theorem resetNode_restAfterReset {s : State} {i : Nat} {nd : Node} (hn : s.nodes[i]? = some nd) (kind : ResetKind) :
    s.restAfterReset (s.resetNode i kind) i := by
  have habandon : (s.abandonTx i).primary = s.primary ∧ (s.abandonTx i).hostLog = s.hostLog := by
    unfold State.abandonTx
    split <;> exact ⟨rfl, rfl⟩
  refine ⟨?_, ?_, ?_, (resetNode_nodewise s i kind).1, fun j x hj hx => ?_⟩
  · simp only [State.phase, resetNode_self hn, Node.afterReset]
  · rw [resetNode_eq hn]; exact habandon.1
  · rw [resetNode_eq hn]; exact habandon.2
  · rw [resetNode_other hn hj, abandonTx_getElem?, hx]
    rfl

/-- Settles O51: the reset of R400 by its three facts, on the node and on the rest of the network. -/
theorem powerOnResetValues : Obligations.PowerOnResetValues := by
  intro s i nd hr ha hn
  have hn' : s.advance.nodes[i]? = some nd := hn
  have hrest := resetNode_restAfterReset hn' .powerOn
  simp only [State.restAfterReset, advance_phase, advance_primary, advance_hostLog, advance_nodes] at hrest
  refine ⟨_, _, step_of_action hr ha, resetNode_self hn' .powerOn, afterReset_wasReset .., ?_, rfl, hrest⟩
  rw [advance_phase]
  exact decide_eq_true_iff

end Sys2Proof.Machine

/-! SUPPORT. One node of a coherent state, taken apart: what its buffers keep, what its control state asks of them, and what
its HFE keeps. Each event of the edge handler, each commit, each access and each reset keeps them. -/

namespace Sys2Proof.Machine

/-! ### The buffers and the control state -/

/-- What the buffers of a PPE keep in every control state (R54, R278); `child`: whether the cycle is a child's. -/
structure Ppe.BuffersFit (p : Ppe) (child : Bool) : Prop where
  reqLen_le  : p.reqLen ≤ maxReq
  repPos_le  : p.repPos ≤ p.repLen
  repLen_le  : p.repLen ≤ maxRep
  incomplete : p.reqSt = .accumulating → p.reqLen < 2 ∨ p.reqLen < p.reqSize
  complete   : p.reqSt = .unchecked ∨ p.reqSt = .valid → p.reqLen = p.reqSize
  answered   : p.reqSt = .answered ↔ p.repFinal = true
  drained    : p.drained = true → p.repFinal = true
  noCycle    : p.cycAddr = none → p.reqLen = 0 ∧ p.repLen = 0 ∧ p.readSeen = false
  final      : p.repFinal = true → 1 ≤ p.repLen
  own        : child = false → p.repLen ≠ 0 → p.repFinal = true

/-- What each control state asks of the cycle (R262, R269, R271, R278, R279, R285). -/
def Ppe.ControlFits (p : Ppe) : Prop :=
  match p.st with
  | .idle => True
  | .notifying => p.busBusy = false
  | .startDetected | .addressing => p.drained = false
  | .receivingAcknowledge => p.drained = false ∧ p.cycAddr ≠ none ∧ (p.dir = true → p.readSeen = true)
  | .receiving => p.drained = false ∧ p.cycAddr ≠ none ∧ p.dir = false
  | .sending | .sendingWaitAcknowledge | .sendingCheckAcknowledge =>
    p.drained = false ∧ p.cycAddr ≠ none ∧ p.readSeen = true
  | .sendingStalled =>
    p.drained = false ∧ p.cycAddr ≠ none ∧ p.readSeen = true ∧ p.repFinal = false ∧ p.repPos = p.repLen

theorem r54_iff (p : Ppe) : p.r54 = true ↔
    p.reqLen ≤ maxReq ∧ p.repPos ≤ p.repLen ∧ p.repLen ≤ maxRep ∧
    (p.reqSt = .accumulating → p.reqLen < 2 ∨ p.reqLen < p.reqSize) ∧
    (p.reqSt = .unchecked ∨ p.reqSt = .valid → p.reqLen = p.reqSize) ∧ (p.reqSt = .answered ↔ p.repFinal = true) ∧
    (p.drained = true → p.repFinal = true) ∧
    (p.cycAddr = none → p.reqLen = 0 ∧ p.repLen = 0 ∧ p.readSeen = false) := by
  simp only [Ppe.r54, Bool.and_eq_true, decide_eq_true_eq, and_assoc]

theorem ppeOk_iff (nd : Node) : nd.ppeOk = true ↔ nd.ppe.BuffersFit nd.childCycle ∧ nd.ppe.ControlFits := by
  have hbuf : nd.ppe.BuffersFit nd.childCycle ↔ nd.ppe.r54 = true ∧ (nd.ppe.repFinal = true → 1 ≤ nd.ppe.repLen) ∧
      (nd.childCycle = false → nd.ppe.repLen ≠ 0 → nd.ppe.repFinal = true) := by
    rw [r54_iff]
    constructor
    · rintro ⟨h1, h2, h3, h4, h5, h6, h7, h8, h9, h10⟩
      exact ⟨⟨h1, h2, h3, h4, h5, h6, h7, h8⟩, h9, h10⟩
    · rintro ⟨⟨h1, h2, h3, h4, h5, h6, h7, h8⟩, h9, h10⟩
      exact ⟨h1, h2, h3, h4, h5, h6, h7, h8, h9, h10⟩
  rw [hbuf]
  simp only [Node.ppeOk, Bool.and_eq_true, decide_eq_true_eq, Ppe.ControlFits]
  cases nd.ppe.st <;> simp <;> tauto

/-- Before a target takes part in a transaction its cycle is not drained (R278). -/
theorem Ppe.ControlFits.not_drained {p : Ppe} (h : p.ControlFits) (hi : p.st ≠ .idle) (hn : p.st ≠ .notifying) :
    p.drained = false := by
  unfold Ppe.ControlFits at h
  cases hst : p.st <;> simp_all

/-- Whether a cycle is a child's depends on the cycle, the configuration and the fixed parts alone (R262). -/
theorem childCycle_congr {nd nd' : Node} (ha : nd'.ppe.cycAddr = nd.ppe.cycAddr) (hc : nd'.cfg = nd.cfg)
    (hf : nd'.fixed = nd.fixed) : nd'.childCycle = nd.childCycle := by
  simp only [Node.fixed, Fixed.mk.injEq] at hf
  obtain ⟨-, hp, -, hi, -⟩ := hf
  simp only [Node.childCycle, Node.isChild, Node.hubCapable, ha, hc, hp, hi]

theorem childCycle_cycAddr {nd : Node} (h : nd.childCycle = true) : nd.ppe.cycAddr ≠ none := by
  intro hn
  simp [Node.childCycle, hn] at h

/-! ### The HFE -/

/-- The HFE does not forward (R47). -/
def Hfe.Rests (f : Hfe) : Prop := f.st ≠ .requestForwarding ∧ f.st ≠ .replyForwarding

/-- The HFE against its node (R323, R329, R331, R334), as `hfeOk` states it. -/
structure Node.HfeFits (nd : Node) : Prop where
  inert       : nd.hubCapable = false → nd.hfe.st = .idle ∧ nd.hfe.fwdStarted = false ∧ nd.hfe.resurrectReq = false
  forwarded   : nd.hfe.fwdStarted = true → nd.childCycle = true
  unforwarded : nd.childCycle = true → nd.hfe.fwdStarted = false → nd.ppe.repLen = 0 ∧ nd.ppe.repFinal = false
  requesting  : nd.hfe.st = .requestForwarding → nd.sec = .writeData ∧ nd.hfe.fwdStarted = true ∧ nd.childCycle = true ∧
    nd.ppe.repLen = 0 ∧ nd.ppe.repFinal = false ∧ nd.hfe.fwdPos ≤ nd.ppe.reqLen
  replying    : nd.hfe.st = .replyForwarding → nd.sec = .readData ∧ nd.hfe.fwdStarted = true ∧ nd.childCycle = true ∧
    nd.ppe.repFinal = false ∧ nd.ppe.repLen = nd.hfe.rdPos ∧ nd.hfe.rdPos < nd.hfe.rdNeed ∧ nd.hfe.rdNeed ≤ maxRep
  resting     : nd.hfe.Rests → nd.sec = .idle ∧ (nd.hfe.fwdStarted = true → nd.ppe.repFinal = true)

theorem hfeOk_iff (nd : Node) : nd.hfeOk = true ↔ nd.HfeFits := by
  have hfits : nd.HfeFits ↔ _ ∧ _ ∧ _ ∧ _ ∧ _ ∧ _ :=
    ⟨fun ⟨h1, h2, h3, h4, h5, h6⟩ => ⟨h1, h2, h3, h4, h5, h6⟩,
      fun ⟨h1, h2, h3, h4, h5, h6⟩ => ⟨h1, h2, h3, h4, h5, h6⟩⟩
  rw [hfits]
  simp only [Node.hfeOk, Hfe.Rests, Bool.and_eq_true, decide_eq_true_eq, and_assoc]
  refine and_congr_right fun _ => and_congr_right fun _ => and_congr_right fun _ => ?_
  cases nd.hfe.st <;> cases nd.hfe.fwdStarted <;> simp [and_assoc]

/-- What the HFE keeps does not depend on the rest of the node; the request may grow. -/
theorem Node.HfeFits.congr {nd nd' : Node} (h : nd.HfeFits) (hf : nd'.hfe = nd.hfe) (hs : nd'.sec = nd.sec)
    (hh : nd'.hubCapable = nd.hubCapable) (hc : nd'.childCycle = nd.childCycle) (hL : nd'.ppe.repLen = nd.ppe.repLen)
    (hF : nd'.ppe.repFinal = nd.ppe.repFinal) (hQ : nd.ppe.reqLen ≤ nd'.ppe.reqLen) : nd'.HfeFits := by
  obtain ⟨h1, h2, h3, h4, h5, h6⟩ := h
  constructor <;> simp only [hf, hs, hh, hc, hL, hF]
  · exact h1
  · exact h2
  · exact h3
  · intro hst
    obtain ⟨a, b, c, d, e, hpos⟩ := h4 hst
    exact ⟨a, b, c, d, e, hpos.trans hQ⟩
  · exact h5
  · exact h6

/-- Outside a child cycle the HFE does not forward, and the reply is not its business (R262, R323). -/
theorem Node.HfeFits.own {nd nd' : Node} (h : nd.HfeFits) (hc : nd.childCycle = false) (hc' : nd'.childCycle = false)
    (hf : nd'.hfe = nd.hfe) (hs : nd'.sec = nd.sec) (hh : nd'.hubCapable = nd.hubCapable) : nd'.HfeFits := by
  obtain ⟨h1, h2, h3, h4, h5, h6⟩ := h
  have hfwd : nd.hfe.fwdStarted = false := by
    by_contra hne
    simp [h2 (by simpa using hne)] at hc
  constructor <;> simp only [hf, hs, hh, hc', hfwd]
  · intro hcap
    obtain ⟨hst, -, hreq⟩ := h1 hcap
    exact ⟨hst, trivial, hreq⟩
  · simp
  · simp
  · intro hst; simp [h4 hst |>.2.2.1] at hc
  · intro hst; simp [h5 hst |>.2.2.1] at hc
  · exact fun hr => ⟨(h6 hr).1, by simp⟩

/-! ### The edge handler -/

theorem loadNext_ppeOk {nd : Node} (hb : nd.ppe.BuffersFit nd.childCycle) (hd : nd.ppe.drained = false)
    (hc : nd.ppe.cycAddr ≠ none) (hr : nd.ppe.readSeen = true) : nd.loadNext.ppeOk = true := by
  rw [ppeOk_iff]
  simp only [Node.loadNext]
  split
  · rename_i hpos
    exact ⟨{ hb with repPos_le := hpos }, hd, hc, hr⟩
  · rename_i hpos
    split
    · exact ⟨{ hb with }, hd, hc, hr⟩
    · rename_i hF
      split
      · exact ⟨{
          reqLen_le := hb.reqLen_le
          repPos_le := le_rfl
          repLen_le := by simp
          incomplete := by simp
          complete := by simp
          answered := by simp
          drained := fun _ => rfl
          noCycle := fun hn => absurd hn hc
          final := fun _ => le_rfl
          own := fun _ _ => rfl }, hd, hc, hr⟩
      · have := hb.repPos_le
        exact ⟨{ hb with }, hd, hc, hr, by simpa using hF, by show nd.ppe.repPos = nd.ppe.repLen; omega⟩

theorem onStart_ppeOk {nd : Node} (h : nd.ppeOk = true) : nd.onStart.ppeOk = true := by
  rw [ppeOk_iff] at h ⊢
  obtain ⟨hb, -⟩ := h
  unfold Node.onStart
  split
  · refine ⟨?_, rfl⟩
    constructor <;> simp
  · rename_i hd
    exact ⟨{ hb with }, Bool.eq_false_iff.2 hd⟩

theorem onStop_ppeOk {nd : Node} (h : nd.ppeOk = true) : nd.onStop.ppeOk = true := by
  rw [ppeOk_iff] at h ⊢
  exact ⟨{ h.1 with }, trivial⟩

/-- The first match opens a cycle, whose buffers are still empty (R269, R270). -/
theorem onAddr_ppeOk {nd : Node} (a : BitVec 7) (rw : Bool) (h : nd.ppeOk = true) (hd : nd.ppe.drained = false) :
    (nd.onAddr a rw).ppeOk = true := by
  rw [ppeOk_iff] at h ⊢
  obtain ⟨hb, -⟩ := h
  unfold Node.onAddr
  split
  · refine ⟨{ hb with repPos_le := ?_, noCycle := ?_, own := ?_ }, hd, ?_, ?_⟩
    · have := hb.repPos_le
      dsimp only
      split <;> omega
    · cases nd.ppe.cycAddr <;> simp
    · cases hcyc : nd.ppe.cycAddr with
      | none => exact fun _ hL => absurd (hb.noCycle hcyc).2.1 hL
      | some b =>
        have hchild : nd.childCycle = nd.isChild b := by simp [Node.childCycle, hcyc]
        exact fun hc => hb.own (hchild.trans hc)
    · cases nd.ppe.cycAddr <;> simp
    · simp +contextual
  · exact ⟨{ hb with }, trivial⟩

/-- The request may be replaced by an incomplete one, or by a whole one that waits for its check (R54, R264). -/
theorem Ppe.BuffersFit.received {p : Ppe} {child : Bool} {r : Vector Byte 19} {n : Nat} {q : ReqStatus}
    (h : p.BuffersFit child) (hc : p.cycAddr ≠ none) (hF : p.repFinal = false) (hn : n ≤ maxReq)
    (hq : q = .accumulating ∧ (n < 2 ∨ n < requestSize r[1]) ∨ q = .unchecked ∧ n = requestSize r[1]) :
    ({ p with req := r, reqLen := n, reqSt := q } : Ppe).BuffersFit child :=
  { h with
    reqLen_le := hn
    incomplete := fun hacc => by
      rcases hq with ⟨-, hlt⟩ | ⟨hq, -⟩
      · exact hlt
      · rw [hq] at hacc; cases hacc
    complete := fun hfull => by
      rcases hq with ⟨hq, -⟩ | ⟨-, heq⟩
      · rw [hq] at hfull; simp at hfull
      · exact heq
    answered := by rcases hq with ⟨rfl, -⟩ | ⟨rfl, -⟩ <;> simp [hF]
    noCycle := fun hnone => absurd hnone hc }

/-- Byte 1 of the request is its opcode once two bytes are there: a later byte leaves it (R264). -/
theorem putBytes_opcode (v : Vector Byte 19) (b : Byte) {n : Nat} (h : 2 ≤ n) : (putBytes v n [b])[1] = v[1] := by
  simp only [putBytes, Vector.getElem_ofFn, List.length_singleton]
  rw [if_neg (by omega)]
  rfl

/-- An incomplete request is completed at most by one more byte (R112, R264). -/
theorem accept_buffersFit {p : Ppe} {child : Bool} (b : Byte) (h : p.BuffersFit child) (hc : p.cycAddr ≠ none) :
    (p.accept b).BuffersFit child := by
  unfold Ppe.accept
  split
  · rename_i hacc
    have hF : p.repFinal = false := by simpa [hacc] using h.answered
    have hopcode := putBytes_opcode p.req b (n := p.reqLen)
    generalize putBytes p.req p.reqLen [b] = r at hopcode ⊢
    have htwo := two_le_requestSize r[1]
    have hmax := requestSize_le r[1]
    have hle : p.reqLen + 1 < 2 ∨ p.reqLen + 1 ≤ requestSize r[1] := by
      by_cases h2 : 2 ≤ p.reqLen
      · have hsize : requestSize r[1] = p.reqSize := by rw [hopcode h2, Ppe.reqSize]
        have := h.incomplete hacc
        omega
      · omega
    simp only [maxReq_eq] at hmax
    have hlen : p.reqLen + 1 ≤ maxReq := by simp only [maxReq_eq]; omega
    dsimp only
    split
    · rename_i hfull
      exact h.received hc hF hlen (.inr ⟨rfl, hfull.2⟩)
    · rename_i hpart
      have hpart' : ¬(2 ≤ p.reqLen + 1 ∧ p.reqLen + 1 = requestSize r[1]) := hpart
      exact h.received hc hF hlen (.inl ⟨hacc, by omega⟩)
  · exact h

@[simp] theorem accept_cycAddr (p : Ppe) (b : Byte) : (p.accept b).cycAddr = p.cycAddr := by
  simp only [Ppe.accept]
  repeat' split
  all_goals rfl

@[simp] theorem accept_drained (p : Ppe) (b : Byte) : (p.accept b).drained = p.drained := by
  simp only [Ppe.accept]
  repeat' split
  all_goals rfl

/-- Every event keeps what a target's buffers and control state keep: the handlers are those of R266 to R277. -/
theorem edge_ppeOk {nd : Node} (e : BusEvent) (h : nd.ppeOk = true) : (nd.edge e).ppeOk = true := by
  obtain ⟨hb, hctl⟩ := (ppeOk_iff nd).1 h
  unfold Node.edge
  split
  · exact h
  cases e with
  | start => exact onStart_ppeOk h
  | stop => exact onStop_ppeOk h
  | sclLow =>
    dsimp only
    split
    · rename_i hst
      exact (ppeOk_iff _).2 ⟨{ hb with }, hctl.not_drained (by simp [hst]) (by simp [hst])⟩
    · exact h
  | addr a rw =>
    dsimp only
    split
    · rename_i hst
      exact onAddr_ppeOk a rw h (hctl.not_drained (by simp [hst]) (by simp [hst]))
    · exact h
  | wbyte b =>
    dsimp only
    split
    · rename_i hst
      simp only [Ppe.ControlFits, hst] at hctl
      obtain ⟨hd, hc, hdir⟩ := hctl
      have hacc : (nd.ppe.accept b).BuffersFit _ := accept_buffersFit b hb hc
      have hchild : ({ nd with ppe := { nd.ppe.accept b with st := .receivingAcknowledge } } : Node).childCycle =
          nd.childCycle := childCycle_congr (accept_cycAddr nd.ppe b) rfl rfl
      refine (ppeOk_iff _).2 ⟨hchild ▸ { hacc with }, ?_⟩
      · simp [Ppe.ControlFits, hd, hc, hdir]
    · exact h
  | rbyte =>
    dsimp only
    split
    · rename_i hst
      simp only [Ppe.ControlFits, hst] at hctl
      exact (ppeOk_iff _).2 ⟨{ hb with }, hctl⟩
    · exact h
  | mack k =>
    dsimp only
    split
    · rename_i hst
      simp only [Ppe.ControlFits, hst] at hctl
      exact (ppeOk_iff _).2 ⟨{ hb with }, hctl⟩
    · exact h
  | ackEnd =>
    dsimp only
    split
    · rename_i hst
      simp only [Ppe.ControlFits, hst] at hctl
      obtain ⟨hd, hc, hr⟩ := hctl
      unfold Node.onAddrAckEnd
      split
      · rename_i hdir; exact loadNext_ppeOk hb hd hc (hr hdir)
      · rename_i hdir; exact (ppeOk_iff _).2 ⟨{ hb with }, hd, hc, Bool.eq_false_iff.2 hdir⟩
    · split
      · rename_i hst
        simp only [Ppe.ControlFits, hst] at hctl
        obtain ⟨hd, hc, hr⟩ := hctl
        unfold Node.onReadAckEnd
        split
        · exact loadNext_ppeOk hb hd hc hr
        · exact (ppeOk_iff _).2 ⟨{ hb with drained := by simp +contextual [hd] }, trivial⟩
      · exact h
  | notify => exact h

/-! ### The edge handler and the HFE -/

@[simp] theorem accept_repLen (p : Ppe) (b : Byte) : (p.accept b).repLen = p.repLen := by
  simp only [Ppe.accept]
  repeat' split
  all_goals rfl

@[simp] theorem accept_repFinal (p : Ppe) (b : Byte) : (p.accept b).repFinal = p.repFinal := by
  simp only [Ppe.accept]
  repeat' split
  all_goals rfl

theorem reqLen_le_accept (p : Ppe) (b : Byte) : p.reqLen ≤ (p.accept b).reqLen := by
  simp only [Ppe.accept]
  repeat' split
  all_goals simp

/-- The default error reply is loaded in a cycle of the node's own alone (R265). -/
theorem loadNext_hfeFits {nd : Node} (h : nd.HfeFits) : nd.loadNext.HfeFits := by
  simp only [Node.loadNext]
  split
  · exact h.congr rfl rfl rfl rfl rfl rfl le_rfl
  · split
    · exact h.congr rfl rfl rfl rfl rfl rfl le_rfl
    · split
      · rename_i hown
        exact h.own hown.2.2 hown.2.2 rfl rfl rfl
      · exact h.congr rfl rfl rfl rfl rfl rfl le_rfl

/-- A drained reply is final, so its node does not forward when its cycle ends (R263, R278). -/
theorem clearBuffers_hfeFits {nd : Node} (h : nd.HfeFits) (hF : nd.ppe.repFinal = true) : nd.clearBuffers.HfeFits := by
  have hreq : nd.hfe.st ≠ .requestForwarding := fun hst => by simp [h.requesting hst] at hF
  have hrep : nd.hfe.st ≠ .replyForwarding := fun hst => by simp [h.replying hst] at hF
  exact {
    inert := fun hcap => ⟨(h.inert hcap).1, rfl, (h.inert hcap).2.2⟩
    forwarded := fun hf => by simp at hf
    unforwarded := fun _ _ => ⟨rfl, rfl⟩
    requesting := fun hst => absurd hst hreq
    replying := fun hst => absurd hst hrep
    resting := fun hr => ⟨(h.resting hr).1, fun hf => by simp at hf⟩ }

/-- An address byte may open a child cycle, which nothing has forwarded yet (R269, R323). -/
theorem onAddr_hfeFits {nd : Node} (a : BitVec 7) (rw : Bool) (h : nd.HfeFits) (hp : nd.ppe.BuffersFit nd.childCycle) :
    (nd.onAddr a rw).HfeFits := by
  unfold Node.onAddr
  split
  · cases hcyc : nd.ppe.cycAddr with
    | some b => exact h.congr rfl rfl rfl (childCycle_congr (by simp [hcyc]) rfl rfl) rfl rfl le_rfl
    | none =>
      have hchild : nd.childCycle = false := by simp [Node.childCycle, hcyc]
      have hL := (hp.noCycle hcyc).2.1
      have hF : nd.ppe.repFinal = false := by
        by_contra hne
        have := hp.final (by simpa using hne)
        omega
      have hfwd : nd.hfe.fwdStarted = false := by
        by_contra hne
        simp [h.forwarded (by simpa using hne)] at hchild
      exact {
        inert := h.inert
        forwarded := fun hf => by simp [hfwd] at hf
        unforwarded := fun _ _ => ⟨hL, hF⟩
        requesting := fun hst => by simp [h.requesting hst] at hchild
        replying := fun hst => by simp [h.replying hst] at hchild
        resting := h.resting }
  · exact h.congr rfl rfl rfl rfl rfl rfl le_rfl

theorem edge_hfeFits {nd : Node} (e : BusEvent) (h : nd.HfeFits) (hp : nd.ppeOk = true) : (nd.edge e).HfeFits := by
  obtain ⟨hb, -⟩ := (ppeOk_iff nd).1 hp
  unfold Node.edge
  split
  · exact h
  cases e with
  | start =>
    simp only [Node.onStart]
    split
    · rename_i hd
      exact (clearBuffers_hfeFits h (hb.drained hd)).congr rfl rfl rfl rfl rfl rfl le_rfl
    · exact h.congr rfl rfl rfl rfl rfl rfl le_rfl
  | stop => exact h.congr rfl rfl rfl rfl rfl rfl le_rfl
  | sclLow | rbyte | mack k =>
    dsimp only
    split
    · exact h.congr rfl rfl rfl rfl rfl rfl le_rfl
    · exact h
  | addr a rw =>
    dsimp only
    split
    · exact onAddr_hfeFits a rw h hb
    · exact h
  | wbyte b =>
    dsimp only
    split
    · exact h.congr rfl rfl rfl (childCycle_congr (accept_cycAddr _ b) rfl rfl) (accept_repLen _ b) (accept_repFinal _ b)
        (reqLen_le_accept _ b)
    · exact h
  | ackEnd =>
    simp only [Node.onAddrAckEnd, Node.onReadAckEnd]
    repeat' split
    · exact loadNext_hfeFits h
    · exact h.congr rfl rfl rfl rfl rfl rfl le_rfl
    · exact loadNext_hfeFits h
    · exact h.congr rfl rfl rfl rfl rfl rfl le_rfl
    · exact h
  | notify => exact h

/-! ### The HFE's own states -/

/-- The steps between the states that do not forward leave the cycle and the segment (R326, R327, R328, R337). -/
theorem Node.HfeFits.rest {nd : Node} {f : Hfe → Hfe} (h : nd.HfeFits) (hcap : nd.hubCapable = true)
    (hr : nd.hfe.Rests) (hr' : (f nd.hfe).Rests) (hf : (f nd.hfe).fwdStarted = nd.hfe.fwdStarted) :
    (nd.withHfe f).HfeFits where
  inert hcap' := absurd (hcap.symm.trans hcap') (by simp)
  forwarded hfwd := h.forwarded (hf.symm.trans hfwd)
  unforwarded hc hfwd := h.unforwarded hc (hf.symm.trans hfwd)
  requesting hst := absurd hst hr'.1
  replying hst := absurd hst hr'.2
  resting _ := ⟨(h.resting hr).1, fun hfwd => (h.resting hr).2 (hf.symm.trans hfwd)⟩

/-- A resurrection request or a `NOTIFY` seen leaves the rest of the HFE; the first needs `HUB_CAPABLE` (R188, R234). -/
theorem Node.HfeFits.requested {nd : Node} {r n : Bool} (h : nd.HfeFits)
    (hr : nd.hubCapable = false → r = nd.hfe.resurrectReq) :
    ({ nd with hfe := { nd.hfe with resurrectReq := r, notifySeen := n } } : Node).HfeFits where
  inert hcap := ⟨(h.inert hcap).1, (h.inert hcap).2.1, (hr hcap).trans (h.inert hcap).2.2⟩
  forwarded := h.forwarded
  unforwarded := h.unforwarded
  requesting := h.requesting
  replying := h.replying
  resting := h.resting

theorem childCycle_hubCapable {nd : Node} (h : nd.childCycle = true) : nd.hubCapable = true := by
  unfold Node.childCycle Node.isChild at h
  split at h
  · cases h
  · simp only [Bool.and_eq_true] at h
    exact h.1.1

/-- A child cycle that was answered leaves the HFE at rest (R290, R325, R335). -/
theorem hfeFits_answered {nd : Node} (hc : nd.childCycle = true) (hF : nd.ppe.repFinal = true) (hs : nd.sec = .idle)
    (hf : nd.hfe.fwdStarted = true) (hr : nd.hfe.Rests) : nd.HfeFits where
  inert hcap := absurd ((childCycle_hubCapable hc).symm.trans hcap) (by simp)
  forwarded _ := hc
  unforwarded _ hf' := absurd (hf.symm.trans hf') (by simp)
  requesting hst := absurd hst hr.1
  replying hst := absurd hst hr.2
  resting _ := ⟨hs, fun _ => hF⟩

/-! ### Commits -/

/-- Node `nd'` is `nd` after `n` more reply bytes, the last of the reply or not (R290, R291). -/
structure Node.Replied (nd nd' : Node) (n : Nat) (last : Bool) : Prop where
  rest     : nd' = { nd with ppe := nd'.ppe }
  ppeOk    : nd'.ppeOk = true
  child    : nd'.childCycle = nd.childCycle
  repLen   : nd'.ppe.repLen = nd.ppe.repLen + n
  repFinal : nd'.ppe.repFinal = last
  seg      : ∀ ph, segOk ph nd.ppe = true → segOk ph nd'.ppe = true

/-- The node with `n` more reply bytes, before a stalled read resumes (R290, R291). -/
def Node.withReply (nd : Node) (rep : Vector Byte 18) (n : Nat) (last : Bool) : Node :=
  { nd with ppe := { nd.ppe with
      rep := rep, repLen := nd.ppe.repLen + n, repFinal := last, reqSt := if last then .answered else nd.ppe.reqSt } }

/-- A stalled read takes the byte that a commit supplies (R292). -/
theorem resume_of_byte {nd : Node} (hst : nd.ppe.st = .sendingStalled) (h : nd.ppe.repPos < nd.ppe.repLen) :
    nd.resume = { nd with ppe := { nd.ppe with
      shift := nd.ppe.rep.toList.getD nd.ppe.repPos 0, repPos := nd.ppe.repPos + 1, st := .sending } } := by
  simp only [Node.resume, if_pos hst, Node.loadNext, if_pos h]

theorem withReply_replied {nd : Node} {rep : Vector Byte 18} {n : Nat} {last : Bool} (hp : nd.ppeOk = true)
    (hc : nd.ppe.cycAddr ≠ none) (hF : nd.ppe.repFinal = false) (h0 : 1 ≤ n) (hn : nd.ppe.repLen + n ≤ maxRep)
    (hlast : nd.childCycle = false → last = true) : nd.Replied (nd.withReply rep n last).resume n last := by
  obtain ⟨hb, hctl⟩ := (ppeOk_iff nd).1 hp
  have hd : nd.ppe.drained = false := by
    by_contra hne
    simp [hb.drained (by simpa using hne)] at hF
  have hne : nd.ppe.reqSt ≠ .answered := fun ha => by simp [hb.answered.1 ha] at hF
  have hbuf : (nd.withReply rep n last).ppe.BuffersFit nd.childCycle :=
    { hb with
      repPos_le := Nat.le_trans hb.repPos_le (Nat.le_add_right _ _)
      repLen_le := hn
      incomplete := by
        cases last
        · exact hb.incomplete
        · simp [Node.withReply]
      complete := by
        cases last
        · exact hb.complete
        · simp [Node.withReply]
      answered := by cases last <;> simp [Node.withReply, hne]
      drained := fun h => by simp [Node.withReply, hd] at h
      noCycle := fun h => absurd h hc
      final := fun _ => Nat.le_trans h0 (Nat.le_add_left _ _)
      own := fun h _ => hlast h }
  by_cases hst : nd.ppe.st = .sendingStalled
  · simp only [Ppe.ControlFits, hst] at hctl
    obtain ⟨-, -, hr, -, hpos⟩ := hctl
    have hlt : (nd.withReply rep n last).ppe.repPos < (nd.withReply rep n last).ppe.repLen := by
      simp only [Node.withReply]; omega
    rw [resume_of_byte (nd := nd.withReply rep n last) hst hlt]
    exact {
      rest := rfl
      ppeOk := (ppeOk_iff _).2 ⟨{ hbuf with repPos_le := hlt }, hd, hc, hr⟩
      child := rfl
      repLen := rfl
      repFinal := rfl
      seg := fun ph h => by cases ph <;> simp_all [segOk, Node.withReply] }
  · have hres : (nd.withReply rep n last).resume = nd.withReply rep n last := if_neg hst
    rw [hres]
    exact {
      rest := rfl
      ppeOk := (ppeOk_iff _).2 ⟨hbuf, by
        unfold Ppe.ControlFits at hctl ⊢
        simp only [Node.withReply]
        cases hs : nd.ppe.st <;> simp_all⟩
      child := rfl
      repLen := rfl
      repFinal := rfl
      seg := fun ph h => by cases ph <;> exact h }

/-- A commit that answers came to an open cycle without a reply, and made its reply final (R290). -/
theorem commit_replied {nd nd' : Node} {rep : List Byte} (hp : nd.ppeOk = true) (hc : nd.ppe.cycAddr ≠ none)
    (h : nd.commit rep = .ok nd') : ∃ n, nd.Replied nd' n true := by
  unfold Node.commit at h
  split at h
  · cases h
  · rename_i hno
    obtain ⟨hF, hL⟩ := not_or.1 hno
    rw [not_not] at hL
    split at h
    · cases h
    · rename_i bytes hpk
      obtain ⟨hlen, h1, h18⟩ := packageReply_some hpk
      obtain rfl := Except.ok.inj h
      refine ⟨bytes.length, ?_⟩
      have hrep := withReply_replied (rep := putBytes nd.ppe.rep 0 bytes) (n := bytes.length) (last := true) hp hc
        (Bool.eq_false_iff.2 hF) (by omega) (by omega) fun _ => rfl
      simpa [Node.withReply, hL] using hrep

/-- A commit of bytes of a child's reply (R291). -/
theorem commitPartial_replied {nd nd' : Node} {bs : List Byte} {last : Bool} (h : nd.commitPartial bs last = .ok nd')
    (hp : nd.ppeOk = true) (hc : nd.childCycle = true) (hbs : bs ≠ []) : nd.Replied nd' bs.length last := by
  unfold Node.commitPartial at h
  split at h
  · cases h
  · rename_i hno
    obtain ⟨hF, hL⟩ := not_or.1 hno
    have hF := Bool.eq_false_iff.2 hF
    obtain rfl := Except.ok.inj h
    have hrep := withReply_replied (rep := putBytes nd.ppe.rep nd.ppe.repLen bs) (n := bs.length) (last := last) hp
      (childCycle_cycAddr hc) hF (List.length_pos_iff.2 hbs) (by omega) fun h => by simp [hc] at h
    cases last with
    | true => exact hrep
    | false => simpa [Node.withReply, hF] using hrep

/-! ### Accesses and resets -/

/-- An access leaves the engines as they are, but for a resurrection request at a hub (R188). -/
structure Node.SameEngines (nd nd' : Node) : Prop where
  ppe   : nd'.ppe = nd.ppe
  sec   : nd'.sec = nd.sec
  cfg   : nd'.cfg = nd.cfg
  fixed : nd'.fixed = nd.fixed
  hfe   : ∃ r, nd'.hfe = { nd.hfe with resurrectReq := r } ∧ (nd.hubCapable = false → r = nd.hfe.resurrectReq)

theorem Node.SameEngines.of_hfe_eq {nd nd' : Node} (hp : nd'.ppe = nd.ppe) (hs : nd'.sec = nd.sec) (hc : nd'.cfg = nd.cfg)
    (hf : nd'.fixed = nd.fixed) (hh : nd'.hfe = nd.hfe) : nd.SameEngines nd' :=
  ⟨hp, hs, hc, hf, nd.hfe.resurrectReq, hh, fun _ => rfl⟩

theorem Node.SameEngines.refl (nd : Node) : nd.SameEngines nd := .of_hfe_eq rfl rfl rfl rfl rfl

theorem hubCapable_congr {nd nd' : Node} (h : nd'.fixed = nd.fixed) : nd'.hubCapable = nd.hubCapable := by
  simp only [Node.fixed, Fixed.mk.injEq] at h
  obtain ⟨-, hp, -, hi, -⟩ := h
  simp only [Node.hubCapable, hp, hi]

theorem setChanged_sameEngines (nd : Node) (v : Byte) : nd.SameEngines (nd.setChanged v) :=
  .of_hfe_eq rfl rfl rfl rfl rfl

theorem setReg_sameEngines (nd : Node) (r : BitVec 6) (v : Byte) : nd.SameEngines (nd.setReg r v) :=
  .of_hfe_eq rfl rfl rfl rfl rfl

theorem redrawApp_sameEngines (nd : Node) (d : Nat) : nd.SameEngines (nd.redrawApp d) :=
  .of_hfe_eq (redrawApp_ppe nd d) (redrawApp_sec nd d) (redrawApp_cfg nd d) (redrawApp_fixed nd d) (redrawApp_hfe nd d)

theorem regValue_sameEngines (nd : Node) (r : BitVec 6) (d : Nat) : nd.SameEngines (nd.regValue r d).2 := by
  unfold Node.regValue Node.appRegRead
  repeat' split
  · exact .refl nd
  · exact setChanged_sameEngines nd _
  · exact .refl nd
  · exact redrawApp_sameEngines nd d
  · exact .refl nd

/-- A node without `HUB_CAPABLE` discards the resurrection command (R188). -/
theorem ctrlWrite_inert {nd : Node} (v : Byte) (h : nd.hubCapable = false) :
    (nd.ctrlWrite v).hfe.resurrectReq = nd.hfe.resurrectReq := by
  have hcap : nd.ident.caps.testBit nd.par.hubBit = false := h
  unfold Node.ctrlWrite Node.hubCapable
  dsimp only
  repeat' split
  all_goals simp_all

theorem regStore_sameEngines (nd : Node) (r : BitVec 6) (v : Byte) (d : Nat) : nd.SameEngines (nd.regStore r v d) := by
  unfold Node.regStore Node.appRegWrite
  repeat' split
  · exact .refl nd
  · exact setReg_sameEngines nd r v
  · obtain ⟨rr, rs, heq⟩ := ctrlWrite_eq (nd.setReg r v) v
    have hinert := ctrlWrite_inert (nd := nd.setReg r v) v
    rw [heq] at hinert ⊢
    exact ⟨rfl, rfl, rfl, rfl, rs, rfl, hinert⟩
  · exact redrawApp_sameEngines nd d
  · exact setReg_sameEngines nd r v

theorem programPage_sameEngines (nd : Node) (b d : Nat) : nd.SameEngines (nd.programPage b d) := by
  unfold Node.programPage
  dsimp only
  split
  · exact .of_hfe_eq rfl rfl rfl rfl rfl
  · exact .refl nd

theorem memWriteBlock_sameEngines (nd : Node) (b : Nat) (data : List Byte) (d : Nat) :
    nd.SameEngines (nd.memWriteBlock b data d).2 := by
  unfold Node.memWriteBlock
  split
  · exact .refl nd
  · exact .refl nd
  · split
    · obtain ⟨hp, hs, hc, hf, hh⟩ := programPage_sameEngines { nd with
        progPending := addBlock nd.progPending b, progBuf := nd.progBuf.writeBytes (blkBase b) data } b d
      exact ⟨hp, hs, hc, hf, hh⟩
    · exact .refl nd
  · exact .of_hfe_eq rfl rfl rfl rfl rfl
  · exact .of_hfe_eq rfl rfl rfl rfl rfl

theorem collabStep_sameEngines (nd : Node) (c : CollabStep) : nd.SameEngines (nd.collabStep c) := by
  cases c with
  | setChanged v => exact setChanged_sameEngines nd _
  | setReg r v =>
    simp only [Node.collabStep]
    split
    · exact .refl nd
    · exact setReg_sameEngines nd r v
  | writeRam a v =>
    simp only [Node.collabStep]
    split
    · exact .of_hfe_eq rfl rfl rfl rfl rfl
    · exact .refl nd

theorem Node.Access.sameEngines {nd mid : Node} (h : nd.Access mid) : nd.SameEngines mid := by
  cases h with
  | unchanged => exact .refl nd
  | regRead r d => exact regValue_sameEngines nd r d
  | regWrite r v d => exact regStore_sameEngines nd r v d
  | memWrite blk hd d => exact memWriteBlock_sameEngines nd _ _ d
  | collab c => exact collabStep_sameEngines nd c
  | raiseChild => exact setChanged_sameEngines nd _

theorem ppeOk_congr {nd nd' : Node} (hp : nd'.ppe = nd.ppe) (hc : nd'.cfg = nd.cfg) (hf : nd'.fixed = nd.fixed)
    (h : nd.ppeOk = true) : nd'.ppeOk = true := by
  rw [ppeOk_iff] at h ⊢
  rwa [hp, childCycle_congr (congrArg Ppe.cycAddr hp) hc hf]

theorem Node.SameEngines.ppeOk {nd nd' : Node} (h : nd.SameEngines nd') (hp : nd.ppeOk = true) : nd'.ppeOk = true :=
  ppeOk_congr h.ppe h.cfg h.fixed hp

theorem Node.SameEngines.childCycle {nd nd' : Node} (h : nd.SameEngines nd') : nd'.childCycle = nd.childCycle :=
  childCycle_congr (congrArg Ppe.cycAddr h.ppe) h.cfg h.fixed

theorem Node.SameEngines.hfeFits {nd nd' : Node} (h : nd.SameEngines nd') (hh : nd.HfeFits) : nd'.HfeFits := by
  obtain ⟨r, heq, hr⟩ := h.hfe
  exact (hh.requested (n := nd.hfe.notifySeen) hr).congr heq h.sec (hubCapable_congr h.fixed) h.childCycle
    (congrArg Ppe.repLen h.ppe) (congrArg Ppe.repFinal h.ppe) (le_of_eq (congrArg Ppe.reqLen h.ppe.symm))

theorem afterReset_ppeOk (nd : Node) (kind : ResetKind) (busy : Bool) (d : Nat) :
    (nd.afterReset kind busy d).ppeOk = true := by
  refine (ppeOk_iff _).2 ⟨?_, trivial⟩
  constructor <;> simp [Node.afterReset, Ppe.afterReset, Ppe.reset]

theorem afterReset_hfeFits (nd : Node) (kind : ResetKind) (busy : Bool) (d : Nat) :
    (nd.afterReset kind busy d).HfeFits where
  inert _ := ⟨rfl, rfl, rfl⟩
  forwarded h := by cases h
  unforwarded _ _ := ⟨rfl, rfl⟩
  requesting h := by cases h
  replying h := by cases h
  resting _ := ⟨rfl, fun h => by cases h⟩

end Sys2Proof.Machine

/-! SUPPORT. Why every step keeps the network coherent. A hub's step is several events on its own segment, between which its
HFE is out of step with the segment: `State.EnginesOk` states the rest of coherence there, the HFE of one controller apart. -/

namespace Sys2Proof.Machine

/-! ### Coherence, the controller of one segment apart -/

/-- Every PPE is in order and follows its segment, and so does every HFE but that of segment `k`'s controller. -/
structure State.EnginesOk (s : State) (k : SegId) : Prop where
  controller : ∀ h, k = .sub h → h < s.nodes.length
  ppe        : ∀ nd ∈ s.nodes, nd.ppeOk = true
  seg        : ∀ nd ∈ s.nodes, segOk (s.phase nd.seg) nd.ppe = true
  hfe        : ∀ (i : Nat) (nd : Node), s.nodes[i]? = some nd → k ≠ .sub i → nd.HfeFits

theorem coherent_iff (s : State) :
    s.coherent = true ↔ s.tree = true ∧ (∀ nd ∈ s.nodes, nd.memOk = true) ∧ s.EnginesOk .primary := by
  simp only [State.coherent, Bool.and_eq_true, List.all_eq_true]
  constructor
  · rintro ⟨ht, hall⟩
    refine ⟨ht, fun nd hm => (hall nd hm).1.1.1, nofun, fun nd hm => (hall nd hm).1.1.2, fun nd hm => (hall nd hm).2, ?_⟩
    exact fun i nd hn _ => (hfeOk_iff nd).1 (hall nd (List.mem_of_getElem? hn)).1.2
  · rintro ⟨ht, hmem, hE⟩
    refine ⟨ht, fun nd hm => ⟨⟨⟨hmem nd hm, hE.ppe nd hm⟩, ?_⟩, hE.seg nd hm⟩⟩
    obtain ⟨i, hn⟩ := List.getElem?_of_mem hm
    exact (hfeOk_iff nd).2 (hE.hfe i nd hn nofun)

theorem phase_sub_congr {s t : State} {j : Nat} (h : t.nodes[j]?.map Node.sec = s.nodes[j]?.map Node.sec) :
    t.phase (.sub j) = s.phase (.sub j) := by
  simp only [State.phase]
  cases ht : t.nodes[j]? <;> cases hs : s.nodes[j]? <;> simp_all

theorem phase_congr {s t : State} (hp : t.primary = s.primary)
    (hs : ∀ j : Nat, t.nodes[j]?.map Node.sec = s.nodes[j]?.map Node.sec) (k : SegId) : t.phase k = s.phase k := by
  cases k with
  | primary => exact hp
  | sub j => exact phase_sub_congr (hs j)

theorem setNode_phase {s : State} {i : Nat} {nd nd' : Node} (hn : s.nodes[i]? = some nd) (h : nd'.sec = nd.sec) (k : SegId) :
    (s.setNode i nd').phase k = s.phase k := by
  refine phase_congr (setNode_primary s i nd') (fun j => ?_) k
  rw [setNode_nodes, List.getElem?_set]
  split
  · subst_vars
    split
    · simp [hn, h]
    · simp_all
  · rfl

namespace State.EnginesOk

variable {s t : State} {k k' : SegId} {i : Nat} {nd nd' : Node}

theorem congr (h : s.EnginesOk k) (hn : t.nodes = s.nodes) (hp : t.primary = s.primary) : t.EnginesOk k where
  controller := hn ▸ h.controller
  ppe := hn ▸ h.ppe
  seg x hx := by
    rw [phase_congr hp (fun j => by rw [hn])]
    exact h.seg x (hn ▸ hx)
  hfe := hn ▸ h.hfe

/-- A node may be replaced in its place by one in order; whether the HFE at `i` is spoken of may change with it. -/
theorem setNode (h : s.EnginesOk k) (hn : s.nodes[i]? = some nd) (hk : k = .primary ∨ k = .sub i)
    (hk' : k' = .primary ∨ k' = .sub i) (hseg : nd'.seg = nd.seg) (hsec : nd'.sec = nd.sec) (hp : nd'.ppeOk = true)
    (hs : segOk (s.phase nd.seg) nd'.ppe = true) (hf : k' ≠ .sub i → nd'.HfeFits) : (s.setNode i nd').EnginesOk k' where
  controller j hj := by
    have hlt := (List.getElem?_eq_some_iff.1 hn).1
    rcases hk' with rfl | rfl
    · cases hj
    · cases hj; simpa using hlt
  ppe x hx := by
    rcases List.mem_or_eq_of_mem_set hx with hx | rfl
    · exact h.ppe x hx
    · exact hp
  seg x hx := by
    rw [setNode_phase hn hsec]
    rcases List.mem_or_eq_of_mem_set hx with hx | rfl
    · exact h.seg x hx
    · exact hseg ▸ hs
  hfe j x hx hj := by
    rw [setNode_nodes, List.getElem?_set] at hx
    split at hx
    · subst_vars
      split at hx
      · exact Option.some.inj hx ▸ hf hj
      · cases hx
    · rename_i hij
      refine h.hfe j x hx ?_
      rcases hk with rfl | rfl
      · exact nofun
      · exact fun he => hij (SegId.sub.inj he)

/-- Replacing a node in a state whose HFEs are all in order. -/
theorem setNode_inOrder (h : s.EnginesOk .primary) (hn : s.nodes[i]? = some nd) (hseg : nd'.seg = nd.seg)
    (hsec : nd'.sec = nd.sec) (hp : nd'.ppeOk = true) (hs : segOk (s.phase nd.seg) nd'.ppe = true) (hf : nd'.HfeFits) :
    (s.setNode i nd').EnginesOk .primary :=
  h.setNode hn (.inl rfl) (.inl rfl) hseg hsec hp hs fun _ => hf

/-- Replacing the controller that is out of step by one that is in order. -/
theorem setNode_close (h : s.EnginesOk (.sub i)) (hn : s.nodes[i]? = some nd) (hseg : nd'.seg = nd.seg)
    (hsec : nd'.sec = nd.sec) (hp : nd'.ppeOk = true) (hs : segOk (s.phase nd.seg) nd'.ppe = true) (hf : nd'.HfeFits) :
    (s.setNode i nd').EnginesOk .primary :=
  h.setNode hn (.inr rfl) (.inl rfl) hseg hsec hp hs fun _ => hf

/-- An HFE in order is one of which nothing need be said. -/
theorem openHub (h : s.EnginesOk .primary) (hn : s.nodes[i]? = some nd) : s.EnginesOk (.sub i) where
  controller j hj := by cases hj; exact (List.getElem?_eq_some_iff.1 hn).1
  ppe := h.ppe
  seg := h.seg
  hfe j x hx _ := h.hfe j x hx nofun

theorem ppe_at (h : s.EnginesOk k) (hn : s.nodes[i]? = some nd) : nd.ppeOk = true := h.ppe nd (List.mem_of_getElem? hn)

theorem seg_at (h : s.EnginesOk k) (hn : s.nodes[i]? = some nd) : segOk (s.phase nd.seg) nd.ppe = true :=
  h.seg nd (List.mem_of_getElem? hn)

theorem hfe_at (h : s.EnginesOk .primary) (hn : s.nodes[i]? = some nd) : nd.HfeFits := h.hfe i nd hn nofun

end State.EnginesOk

/-! ### An event on a segment -/

@[simp] theorem edge_sec (nd : Node) (e : BusEvent) : (nd.edge e).sec = nd.sec := by
  have hload : nd.loadNext.sec = nd.sec := by rw [loadNext_eq]
  cases e <;> simp only [Node.edge, Node.onStart, Node.onAddr, Node.onAddrAckEnd, Node.onReadAckEnd]
  all_goals repeat' split
  all_goals simp [hload]

theorem edgeAll_phase (s : State) (k : SegId) (e : BusEvent) (k' : SegId) : (s.edgeAll k e).phase k' = s.phase k' := by
  refine phase_congr (edgeAll_primary s k e) (fun j => ?_) k'
  simp only [State.edgeAll, List.getElem?_map, Option.map_map]
  congr 1
  funext nd
  simp only [Function.comp]
  split <;> simp

theorem setPhase_phase_other {s : State} {k k' : SegId} (q : BusPhase) (h : k' ≠ k) :
    (s.setPhase k q).phase k' = s.phase k' := by
  cases k with
  | primary => cases k' with
    | primary => exact absurd rfl h
    | sub j => rfl
  | sub i => cases k' with
    | primary => rfl
    | sub j =>
      have hij : i ≠ j := fun he => h (he ▸ rfl)
      simp [State.phase, State.setPhase, hij]

theorem setPhase_phase_self {s : State} {k : SegId} (q : BusPhase) (h : ∀ i, k = .sub i → i < s.nodes.length) :
    (s.setPhase k q).phase k = q := by
  cases k with
  | primary => rfl
  | sub i => simp [State.phase, State.setPhase, h i rfl]

/-- A target of a segment after an event there, and any other node (R222). -/
def Node.edgeOn (nd : Node) (k : SegId) (e : BusEvent) : Node := if nd.seg = k then nd.edge e else nd

/-- The node at `i` after a controller's event: its edge handler ran where it is a target, and a controller moved on. -/
theorem emit_node {s : State} {k : SegId} {e : BusEvent} {q : BusPhase} {i : Nat} {x : Node}
    (hx : ((s.edgeAll k e).setPhase k q).nodes[i]? = some x) :
    ∃ y r, s.nodes[i]? = some y ∧ x = (y.edgeOn k e).withSec r ∧ (k ≠ .sub i → x = y.edgeOn k e) := by
  have hedge : (s.edgeAll k e).nodes[i]? = s.nodes[i]?.map fun y => y.edgeOn k e := List.getElem?_map
  cases k with
  | primary =>
    obtain ⟨y, hy, rfl⟩ := Option.map_eq_some_iff.1 (hedge ▸ hx)
    exact ⟨y, _, hy, rfl, fun _ => rfl⟩
  | sub h =>
    rw [State.setPhase, modNode_nodes, List.getElem?_modify, hedge, Option.map_eq_map, Option.map_map] at hx
    obtain ⟨y, hy, rfl⟩ := Option.map_eq_some_iff.1 hx
    by_cases hi : h = i
    · exact ⟨y, q, hy, by simp [hi, Node.withSec], fun hne => absurd (hi ▸ rfl) hne⟩
    · exact ⟨y, (y.edgeOn (.sub h) e).sec, hy, by simp [hi]; rfl, fun _ => by simp [hi]⟩

theorem edgeOn_ppeOk {nd : Node} (k : SegId) (e : BusEvent) (h : nd.ppeOk = true) : (nd.edgeOn k e).ppeOk = true := by
  unfold Node.edgeOn
  split
  · exact edge_ppeOk e h
  · exact h

theorem edgeOn_hfeFits {nd : Node} (k : SegId) (e : BusEvent) (h : nd.HfeFits) (hp : nd.ppeOk = true) :
    (nd.edgeOn k e).HfeFits := by
  unfold Node.edgeOn
  split
  · exact edge_hfeFits e h hp
  · exact h

@[simp] theorem edgeOn_seg (nd : Node) (k : SegId) (e : BusEvent) : (nd.edgeOn k e).seg = nd.seg := by
  unfold Node.edgeOn
  split <;> simp

/-- A controller's event that answers keeps coherence, its own HFE apart. -/
theorem emit_enginesOk {s t : State} {k : SegId} {e : BusEvent} {r : Option Obs} (h : s.EnginesOk k)
    (he : s.emit k e = .ok (t, r)) : t.EnginesOk k := by
  obtain ⟨q, hq, happ, rfl, -⟩ := emit_ok_iff.1 he
  have hnode : ∀ x ∈ ((s.edgeAll k e).setPhase k q).nodes, ∃ y ∈ s.nodes, ∃ r, x = (y.edgeOn k e).withSec r := by
    intro x hx
    obtain ⟨i, hi⟩ := List.getElem?_of_mem hx
    obtain ⟨y, r, hy, hxy, -⟩ := emit_node hi
    exact ⟨y, List.mem_of_getElem? hy, r, hxy⟩
  refine ⟨?_, ?_, ?_, ?_⟩
  · simpa using h.controller
  · intro x hx
    obtain ⟨y, hy, r, rfl⟩ := hnode x hx
    exact ppeOk_congr rfl rfl rfl (edgeOn_ppeOk k e (h.ppe y hy))
  · intro x hx
    obtain ⟨y, hy, r, rfl⟩ := hnode x hx
    have hseg := h.seg y hy
    rw [withSec_seg, withSec_ppe, edgeOn_seg]
    by_cases hk : y.seg = k
    · have hstall : y.ppe.st ≠ .sendingStalled := fun hst => by
        have := List.all_eq_true.1 happ y (mem_targets.2 ⟨hy, hk⟩)
        rw [hst] at this
        cases e <;> cases this
      rw [hk] at hseg ⊢
      rw [setPhase_phase_self q (by simpa using h.controller), Node.edgeOn, if_pos hk]
      exact (edge_follows ⟨hseg, ppeOk_receiving (h.ppe y hy)⟩ hq hstall).1
    · rw [setPhase_phase_other q hk, edgeAll_phase, Node.edgeOn, if_neg hk]
      exact hseg
  · intro i x hx hi
    obtain ⟨y, r, hy, -, hxy⟩ := emit_node hx
    rw [hxy hi]
    exact edgeOn_hfeFits k e (h.hfe i y hy hi) (h.ppe_at hy)

/-! ### The steps of a hub -/

/-- A hub that forwards a request, in order (R323, R329). -/
theorem hfeFits_requesting {nd : Node} (hst : nd.hfe.st = .requestForwarding) (hs : nd.sec = .writeData)
    (hf : nd.hfe.fwdStarted = true) (hc : nd.childCycle = true) (hL : nd.ppe.repLen = 0) (hF : nd.ppe.repFinal = false)
    (hpos : nd.hfe.fwdPos ≤ nd.ppe.reqLen) : nd.HfeFits where
  inert hcap := absurd ((childCycle_hubCapable hc).symm.trans hcap) (by simp)
  forwarded _ := hc
  unforwarded _ hf' := absurd (hf.symm.trans hf') (by simp)
  requesting _ := ⟨hs, hf, hc, hL, hF, hpos⟩
  replying hst' := absurd (hst.symm.trans hst') (by simp)
  resting h := absurd hst h.1

/-- A hub that forwards a reply, in order (R331, R334). -/
theorem hfeFits_replying {nd : Node} (hst : nd.hfe.st = .replyForwarding) (hs : nd.sec = .readData)
    (hf : nd.hfe.fwdStarted = true) (hc : nd.childCycle = true) (hF : nd.ppe.repFinal = false)
    (hL : nd.ppe.repLen = nd.hfe.rdPos) (hpos : nd.hfe.rdPos < nd.hfe.rdNeed) (hneed : nd.hfe.rdNeed ≤ maxRep) :
    nd.HfeFits where
  inert hcap := absurd ((childCycle_hubCapable hc).symm.trans hcap) (by simp)
  forwarded _ := hc
  unforwarded _ hf' := absurd (hf.symm.trans hf') (by simp)
  requesting hst' := absurd (hst.symm.trans hst') (by simp)
  replying _ := ⟨hs, hf, hc, hF, hL, hpos, hneed⟩
  resting h := absurd hst h.2

/-- A hub that answered its child's cycle and goes to a state that does not forward is in order again. -/
theorem answered_enginesOk {s : State} {h n : Nat} {hub hub' : Node} {f : Hfe → Hfe} (hE : s.EnginesOk (.sub h))
    (hn : s.nodes[h]? = some hub) (hc : hub.childCycle = true) (hs : hub.sec = .idle) (hr : hub.Replied hub' n true)
    (hf : (f hub.hfe).fwdStarted = true) (hrests : (f hub.hfe).Rests) :
    (s.setNode h (hub'.withHfe f)).EnginesOk .primary := by
  obtain ⟨hrest, hp, hchild, -, hF, hseg⟩ := hr
  have hhfe : hub'.hfe = hub.hfe := hrest ▸ rfl
  refine hE.setNode_close hn (hrest ▸ rfl) (hrest ▸ rfl) (ppeOk_congr rfl rfl rfl hp) (hseg _ (hE.seg_at hn)) ?_
  rw [← hhfe] at hf hrests
  exact hfeFits_answered (hchild.trans hc) hF ((congrArg Node.sec hrest).trans hs) hf hrests

/-- A hub answers its child's cycle at once (R324, R343). -/
theorem commitAt_enginesOk {s t : State} {h : Nat} {hub : Node} {rep : List Byte} (hE : s.EnginesOk (.sub h))
    (hn : s.nodes[h]? = some hub) (hc : hub.childCycle = true) (hs : hub.sec = .idle) (hf : hub.hfe.fwdStarted = true)
    (hrests : hub.hfe.Rests) (ht : s.commitAt h rep = .ok t) :
    t.EnginesOk .primary := by
  obtain ⟨nd, hub', hn', hcm, rfl⟩ := commitAt_ok ht
  obtain rfl : nd = hub := Option.some.inj (hn'.symm.trans hn)
  obtain ⟨n, hr⟩ := commit_replied (hE.ppe_at hn) (childCycle_cycAddr hc) hcm
  exact answered_enginesOk (f := id) hE hn hc hs hr hf hrests

theorem noDevice_enginesOk {s t : State} {h : Nat} {hub : Node} {ph : BusPhase} (c : s.Controls h hub ph)
    (hE : s.EnginesOk (.sub h)) (hn : ph.next .stop = some .idle) (hflow : s.flowing (.sub h))
    (hc : hub.childCycle = true) (hf : hub.hfe.fwdStarted = true) (ht : s.noDevice h = .ok t) : t.EnginesOk .primary := by
  obtain ⟨u, v, hstop, hcm, rfl⟩ := noDevice_ok ht
  obtain ⟨u', hstop', cu⟩ := c.stopTx hn hflow
  obtain rfl : u = u' := Except.ok.inj (hstop.symm.trans hstop')
  have hEu : u.EnginesOk (.sub h) := stopTx_keeps emit_enginesOk hE hstop
  obtain ⟨nd, hub', hn', hcm, rfl⟩ := commitAt_ok hcm
  obtain rfl : nd = hub.withSec .idle := Option.some.inj (hn'.symm.trans cu.hub_at)
  obtain ⟨n, hr⟩ := commit_replied (hEu.ppe_at cu.hub_at) (childCycle_cycAddr hc) hcm
  have hset : (u.setNode h hub').nodes[h]? = some hub' := List.getElem?_set_self (List.getElem?_eq_some_iff.1 hn').1
  rw [modNode_eq_setNode _ hset, State.setNode, State.setNode, List.set_set]
  exact answered_enginesOk hEu cu.hub_at hc rfl hr hf (by simp [Hfe.Rests])

/-- A hub goes on, or gives up and answers (R325, R330, R332). -/
theorem goesOn_enginesOk {u t : State} {h : Nat} {hub : Node} {ph : BusPhase} {ack : Bool} {f : Hfe → Hfe}
    (c : u.Controls h hub ph) (hE : u.EnginesOk (.sub h)) (hn : ph.next .stop = some .idle)
    (hflow : ack = false → u.flowing (.sub h)) (hc : hub.childCycle = true) (hf : hub.hfe.fwdStarted = true)
    (hg : u.goesOn h ack f t) (hgo : (hub.withHfe f).HfeFits) : t.EnginesOk .primary := by
  rcases hg with ⟨-, rfl⟩ | ⟨hack, hd⟩
  · rw [modNode_eq_setNode _ c.hub_at]
    exact hE.setNode_close c.hub_at rfl rfl (ppeOk_congr (nd := hub) rfl rfl rfl (hE.ppe_at c.hub_at))
      (hE.seg_at c.hub_at) hgo
  · exact noDevice_enginesOk c hE hn (hflow hack) hc hf hd

section
variable {s t : State} (hs : s.coherent = true) {h : Nat}
include hs

theorem coherent_enginesOk : s.EnginesOk .primary := ((coherent_iff s).1 hs).2.2

theorem openStep_enginesOk {envLocked : Bool} (ht : s.openStep h envLocked = .ok t) : t.EnginesOk .primary := by
  have hE := coherent_enginesOk hs
  rcases openStep_ok ht with rfl | ⟨nd, hn, hg, hcase⟩
  · exact hE
  simp only [Node.openEnabled, Node.childPending, Bool.and_eq_true, beq_iff_eq, Bool.not_eq_true'] at hg
  obtain ⟨⟨⟨hst, ⟨⟨⟨-, hc⟩, hfwd⟩, -⟩⟩, -⟩, -⟩ := hg
  have hh := hE.hfe_at hn
  have hidle : nd.sec = .idle := (hh.resting (by simp [Hfe.Rests, hst])).1
  obtain ⟨hL, hF⟩ := hh.unforwarded hc hfwd
  rw [modNode_eq_setNode _ hn] at hcase
  generalize hhub : (nd.withHfe fun f => { f with fwdStarted := true }) = hub at hcase
  have c : (s.setNode h hub).Controls h hub .idle := (hidle ▸ coherent_controls hs hn).setNode (hhub ▸ rfl) (hhub ▸ rfl)
  have hEhub : (s.setNode h hub).EnginesOk (.sub h) := by
    subst hhub
    exact hE.setNode hn (.inl rfl) (.inr rfl) rfl rfl (ppeOk_congr (nd := nd) rfl rfl rfl (hE.ppe_at hn)) (hE.seg_at hn)
      fun hne => absurd rfl hne
  rcases hcase with ⟨-, hcm⟩ | ⟨hl, u, k, htx, hgo⟩
  · subst hhub
    exact commitAt_enginesOk hEhub c.hub_at hc hidle rfl (by simp [Hfe.Rests, hst]) hcm
  · have hflow : (s.setNode h hub).flowing (.sub h) := fun x hx =>
      flowing_of_not_secLocked (Bool.eq_false_iff.1 hl) x (mem_targets_setNode c.apart hx)
    obtain ⟨u', k', htx', cu, hk⟩ := c.openTx rfl hflow (nd.ppe.cycAddr.getD 0) false
    obtain ⟨rfl, rfl⟩ := Prod.mk.inj (Except.ok.inj (htx.symm.trans htx'))
    subst hhub
    exact goesOn_enginesOk cu (openTx_keeps emit_enginesOk hEhub htx) rfl hk hc rfl hgo
      (hfeFits_requesting rfl rfl rfl hc hL hF (Nat.zero_le _))

theorem forwardStep_enginesOk (ht : s.forwardStep h = .ok t) : t.EnginesOk .primary := by
  have hE := coherent_enginesOk hs
  rcases forwardStep_ok ht with rfl | ⟨nd, hn, hst, hpos, -, u, k, hw, hgo⟩
  · exact hE
  obtain ⟨hsec, hf, hc, hL, hF, -⟩ := (hE.hfe_at hn).requesting hst
  have c := hsec ▸ coherent_controls hs hn
  obtain ⟨u', k', hw', cu⟩ := c.writeByte (nd.ppe.req.toList.getD nd.hfe.fwdPos 0)
  obtain ⟨rfl, rfl⟩ := Prod.mk.inj (Except.ok.inj (hw.symm.trans hw'))
  exact goesOn_enginesOk cu (writeByte_keeps emit_enginesOk (hE.openHub hn) hw) rfl
    (fun _ => cu.flowing (by decide) (by decide)) hc hf hgo (hfeFits_requesting hst rfl hf hc hL hF hpos)

theorem turnAroundStep_enginesOk (ht : s.turnAroundStep h = .ok t) : t.EnginesOk .primary := by
  have hE := coherent_enginesOk hs
  rcases turnAroundStep_ok ht with rfl | ⟨nd, hn, hst, hfree, u, k, htx, hgo⟩
  · exact hE
  obtain ⟨hsec, hf, hc, hL, hF, -⟩ := (hE.hfe_at hn).requesting hst
  have c := hsec ▸ coherent_controls hs hn
  obtain ⟨u', k', htx', cu, hk⟩ := c.openTx rfl (flowing_of_not_held hfree) (nd.ppe.cycAddr.getD 0) true
  obtain ⟨rfl, rfl⟩ := Prod.mk.inj (Except.ok.inj (htx.symm.trans htx'))
  have hneed : 0 < nd.replyNeed ∧ nd.replyNeed ≤ maxRep := by
    unfold Node.replyNeed
    split
    · exact ⟨one_le_replySize _, replySize_le _⟩
    · decide
  exact goesOn_enginesOk cu (openTx_keeps emit_enginesOk (hE.openHub hn) htx) rfl hk hc hf hgo
    (hfeFits_replying rfl rfl hf hc hF hL hneed.1 hneed.2)

theorem copyStep_enginesOk (ht : s.copyStep h = .ok t) : t.EnginesOk .primary := by
  have hE := coherent_enginesOk hs
  rcases copyStep_ok ht with rfl | ⟨nd, hn, hst, hfree, last, u, b, n, hub, hlast, hread, hu, hcm, hend⟩
  · exact hE
  obtain ⟨hsec, hf, hc, hF, hL, hpos, hneed⟩ := (hE.hfe_at hn).replying hst
  have c := hsec ▸ coherent_controls hs hn
  obtain ⟨u', b', hread', cu, hflow⟩ := c.readByte (flowing_of_not_held hfree) (!last)
  obtain ⟨rfl, rfl⟩ := Prod.mk.inj (Except.ok.inj (hread.symm.trans hread'))
  obtain rfl : n = nd.withSec .readData := Option.some.inj (hu.symm.trans cu.hub_at)
  have hEu : u.EnginesOk (.sub h) := readByte_keeps emit_enginesOk (hE.openHub hn) hread
  obtain ⟨hrest, hp, hchild, hrepLen, hrepFinal, hseg⟩ :=
    commitPartial_replied hcm (ppeOk_congr (nd := nd.withSec .readData) rfl rfl rfl (hEu.ppe_at hu)) hc (by simp)
  have hhfe : hub.hfe = { nd.hfe with rdPos := nd.hfe.rdPos + 1 } := hrest ▸ rfl
  have hsec' : hub.sec = .readData := hrest ▸ rfl
  have hL' : hub.ppe.repLen = hub.hfe.rdPos := by rw [hrepLen, hhfe]; exact congrArg (· + 1) hL
  have hc' : hub.childCycle = true := hchild.trans hc
  have hf' : hub.hfe.fwdStarted = true := by rw [hhfe]; exact hf
  rcases hend with ⟨rfl, rfl⟩ | ⟨rfl, v, hstop, rfl⟩
  · have hmore : nd.hfe.rdPos + 1 ≠ nd.hfe.rdNeed := by simpa using hlast.symm
    refine hEu.setNode_close hu (hrest ▸ rfl) (hrest ▸ rfl) hp (hseg _ (hEu.seg_at hu)) ?_
    refine hfeFits_replying (by rw [hhfe]; exact hst) hsec' hf' hc' hrepFinal hL' ?_ (by rw [hhfe]; exact hneed)
    rw [hhfe]
    show nd.hfe.rdPos + 1 < nd.hfe.rdNeed
    omega
  · have hEhub : (u.setNode h hub).EnginesOk (.sub h) :=
      hEu.setNode hu (.inr rfl) (.inr rfl) (hrest ▸ rfl) (hrest ▸ rfl) hp (hseg _ (hEu.seg_at hu)) fun hne => absurd rfl hne
    have chub : (u.setNode h hub).Controls h hub .readData := cu.setNode (hrest ▸ rfl) (hrest ▸ rfl)
    obtain ⟨v', hstop', cv⟩ := chub.stopTx rfl fun x hx => hflow rfl x (mem_targets_setNode chub.apart hx)
    obtain rfl : v = v' := Except.ok.inj (hstop.symm.trans hstop')
    have hEv : v.EnginesOk (.sub h) := stopTx_keeps emit_enginesOk hEhub hstop
    rw [modNode_eq_setNode _ cv.hub_at]
    exact hEv.setNode_close cv.hub_at rfl rfl (ppeOk_congr rfl rfl rfl hp) (hEv.seg_at cv.hub_at)
      (hfeFits_answered hc' hrepFinal rfl hf' (by simp [Hfe.Rests]))

theorem noBusStep_enginesOk (ht : s.noBusStep h = .ok t) : t.EnginesOk .primary := by
  have hE := coherent_enginesOk hs
  rcases whenNode_ok_cases ht with rfl | ⟨nd, hn, hg, ht⟩
  · exact hE
  simp only [Node.childPending, Bool.and_eq_true, beq_iff_eq, Bool.not_eq_true'] at hg
  obtain ⟨hst, ⟨⟨⟨-, hc⟩, -⟩, -⟩⟩ := hg
  have hidle : nd.sec = .idle := ((hE.hfe_at hn).resting (by simp [Hfe.Rests, hst])).1
  rw [modNode_eq_setNode _ hn] at ht
  have hEhub : (s.setNode h (nd.withHfe fun f => { f with fwdStarted := true })).EnginesOk (.sub h) :=
    hE.setNode hn (.inl rfl) (.inr rfl) rfl rfl (ppeOk_congr (nd := nd) rfl rfl rfl (hE.ppe_at hn)) (hE.seg_at hn)
      fun hne => absurd rfl hne
  exact commitAt_enginesOk hEhub (List.getElem?_set_self (List.getElem?_eq_some_iff.1 hn).1) hc hidle rfl
    (by simp [Hfe.Rests, hst]) ht

end

/-! ### The steps of one node -/

/-- A segment's phase asks for no more than the bus flag of a target outside the transaction. -/
theorem segOk_idle {ph : BusPhase} {p q : Ppe} (h : segOk ph p = true) (hst : q.st = .idle) (hb : q.busBusy = p.busBusy) :
    segOk ph q = true := by
  cases ph <;> simp_all [segOk]

theorem segOk_of_same {ph : BusPhase} {p q : Ppe} (h : segOk ph p = true) (hst : q.st = p.st)
    (hb : q.busBusy = p.busBusy) (hd : q.dir = p.dir) : segOk ph q = true := by
  cases ph <;> simpa only [segOk, hst, hb, hd] using h

/-- A target that no START has claimed is on an idle segment. -/
theorem segOk_not_busy {ph : BusPhase} {p : Ppe} (h : segOk ph p = true) (hb : p.busBusy = false) : ph = .idle := by
  cases ph <;> simp_all [segOk]

/-- An unchecked or valid request is open in a cycle (R54, R112). -/
theorem Ppe.BuffersFit.inCycle {p : Ppe} {child : Bool} (h : p.BuffersFit child)
    (hst : p.reqSt = .unchecked ∨ p.reqSt = .valid) : p.cycAddr ≠ none := by
  intro hn
  have h2 : 2 ≤ p.reqSize := two_le_requestSize _
  have := h.complete hst
  have := (h.noCycle hn).1
  omega

/-- The nodes after a reset of node `i` (R402). -/
theorem resetNode_node {s : State} {i j : Nat} {nd x : Node} {kind : ResetKind} (hn : s.nodes[i]? = some nd)
    (hx : (s.resetNode i kind).nodes[j]? = some x) :
    (j = i ∧ ∃ busy draw, x = nd.afterReset kind busy draw ∧ (s.phase nd.seg ≠ .idle → busy = true)) ∨
      j ≠ i ∧ ∃ y, s.nodes[j]? = some y ∧ x =
        if y.seg = .sub i ∧ s.phase (.sub i) ≠ .idle ∧ y.ppe.st ≠ .sendingStalled then y.onStop else y := by
  by_cases hj : j = i
  · subst hj
    rw [resetNode_self hn] at hx
    exact .inl ⟨rfl, _, _, (Option.some.inj hx).symm, by simp⟩
  · rw [resetNode_other hn hj, abandonTx_getElem?] at hx
    obtain ⟨y, hy, rfl⟩ := Option.map_eq_some_iff.1 hx
    exact .inr ⟨hj, y, hy, rfl⟩

theorem resetNode_phase_other {s : State} {i : Nat} {nd : Node} {k : SegId} (kind : ResetKind) (hn : s.nodes[i]? = some nd)
    (hk : k ≠ .sub i) : (s.resetNode i kind).phase k = s.phase k := by
  cases k with
  | primary => exact (resetNode_restAfterReset hn kind).2.1
  | sub j =>
    have hj : j ≠ i := fun h => hk (h ▸ rfl)
    refine phase_sub_congr ?_
    rw [resetNode_other hn hj, abandonTx_getElem?, Option.map_map]
    congr 1
    funext y
    simp only [Function.comp, apply_ite Node.sec, onStop_sec, ite_self]

/-- A node outside transactions fits any phase whose bus flag it has. -/
theorem segOk_outside {ph : BusPhase} {p : Ppe} (hst : p.st = .idle) (hb : ph ≠ .idle → p.busBusy = true) :
    segOk ph p = true := by
  cases ph <;> simp_all [segOk]

namespace State.EnginesOk

variable {s t : State} {i : Nat} {nd nd' : Node}

theorem modNode {f : Node → Node} (h : s.EnginesOk .primary)
    (hf : ∀ nd, s.nodes[i]? = some nd → (s.setNode i (f nd)).EnginesOk .primary) : (s.modNode i f).EnginesOk .primary := by
  cases hn : s.nodes[i]? with
  | none => exact h.congr (by simp [List.modify_eq_set_getElem?, hn]) rfl
  | some nd => exact modNode_eq_setNode f hn ▸ hf nd hn

theorem setNode_access (h : s.EnginesOk .primary) (hn : s.nodes[i]? = some nd) (ha : nd.Access nd') :
    (s.setNode i nd').EnginesOk .primary := by
  have he := ha.sameEngines
  have hseg : nd'.seg = nd.seg := congrArg Fixed.seg he.fixed
  exact h.setNode_inOrder hn hseg he.sec (he.ppeOk (h.ppe_at hn)) (by rw [he.ppe]; exact h.seg_at hn)
    (he.hfeFits (h.hfe_at hn))

/-- A step of an HFE between the states that do not forward. -/
theorem setNode_rest {f : Hfe → Hfe} (h : s.EnginesOk .primary) (hn : s.nodes[i]? = some nd) (hcap : nd.hubCapable = true)
    (hr : nd.hfe.Rests) (hr' : (f nd.hfe).Rests) (hf : (f nd.hfe).fwdStarted = nd.hfe.fwdStarted) :
    (s.setNode i (nd.withHfe f)).EnginesOk .primary :=
  h.setNode_inOrder hn rfl rfl (ppeOk_congr (nd := nd) rfl rfl rfl (h.ppe_at hn)) (h.seg_at hn)
    ((h.hfe_at hn).rest hcap hr hr' hf)

/-- A commit in a cycle of the node's own (R284, R288). -/
theorem commitAt_own {rep : List Byte} (h : s.EnginesOk .primary) (hn : s.nodes[i]? = some nd)
    (hc : nd.ppe.cycAddr ≠ none) (hown : nd.childCycle = false) (ht : s.commitAt i rep = .ok t) : t.EnginesOk .primary := by
  obtain ⟨x, nd', hn', hcm, rfl⟩ := commitAt_ok ht
  obtain rfl : x = nd := Option.some.inj (hn'.symm.trans hn)
  obtain ⟨n, hr⟩ := commit_replied (h.ppe_at hn) hc hcm
  have hrest := hr.rest
  refine h.setNode_inOrder hn (hrest ▸ rfl) (hrest ▸ rfl) hr.ppeOk (hr.seg _ (h.seg_at hn)) ?_
  exact (h.hfe_at hn).own hown (hr.child.trans hown) (hrest ▸ rfl) (hrest ▸ rfl) (hrest ▸ rfl)

theorem clearStep (h : s.EnginesOk .primary) (ht : s.clearStep i = .ok t) : t.EnginesOk .primary := by
  rcases whenNode_ok_cases ht with rfl | ⟨nd, hn, hd, ht⟩
  · exact h
  obtain rfl := Except.ok.inj ht
  obtain ⟨hb, hctl⟩ := (ppeOk_iff nd).1 (h.ppe_at hn)
  have hst : nd.ppe.st = .idle ∨ nd.ppe.st = .notifying := by
    by_contra hno
    obtain ⟨h1, h2⟩ := not_or.1 hno
    simp [hctl.not_drained h1 h2] at hd
  refine h.setNode_inOrder hn rfl rfl ((ppeOk_iff _).2 ⟨?_, ?_⟩) (segOk_of_same (h.seg_at hn) rfl rfl rfl)
    (clearBuffers_hfeFits (h.hfe_at hn) (hb.drained hd))
  · constructor <;> simp
  · unfold Ppe.ControlFits at hctl ⊢
    rw [clearBuffers_st, clearBuffers_busBusy]
    rcases hst with hst | hst <;> simp_all

theorem validateStep (h : s.EnginesOk .primary) (ht : s.validateStep i = .ok t) : t.EnginesOk .primary := by
  rcases whenNode_ok_cases ht with rfl | ⟨nd, hn, hg, ht⟩
  · exact h
  obtain ⟨hreq, hown⟩ : nd.ppe.reqSt = .unchecked ∧ nd.childCycle = false := by
    simpa [Node.validateEnabled] using hg
  obtain ⟨hb, hctl⟩ := (ppeOk_iff nd).1 (h.ppe_at hn)
  split at ht
  · obtain rfl := Except.ok.inj ht
    have hF : ¬ nd.ppe.repFinal = true := fun hF => by simp [hb.answered.2 hF] at hreq
    have hbuf : ({ nd.ppe with reqSt := .valid } : Ppe).BuffersFit nd.childCycle :=
      { hb with
        incomplete := by simp
        complete := fun _ => hb.complete (.inl hreq)
        answered := by simp [hF] }
    exact h.setNode_inOrder hn rfl rfl ((ppeOk_iff _).2 ⟨hbuf, hctl⟩) (segOk_of_same (h.seg_at hn) rfl rfl rfl)
      ((h.hfe_at hn).congr rfl rfl rfl rfl rfl rfl le_rfl)
  · exact h.commitAt_own hn (hb.inCycle (.inl hreq)) hown ht

theorem serviceStep (h : s.EnginesOk .primary) (ht : s.serviceStep i = .next t) : t.EnginesOk .primary := by
  rcases serviceStep_next ht with rfl | ⟨nd, f, hn, hg, hserve, hacc⟩
  · exact h
  obtain ⟨⟨⟨hv, -⟩, -⟩, hown⟩ : ((nd.ppe.reqSt = .valid ∧ nd.ppe.repFinal = false) ∧ nd.ppe.repLen = 0) ∧
      nd.childCycle = false := by
    simpa [Node.serviceEnabled] using hg
  obtain ⟨x, hx, hcm⟩ := serve_next hserve
  obtain rfl : x = nd := Option.some.inj (hx.symm.trans hn)
  have he := (hacc x).sameEngines
  have hset : (s.setNode i (f x s.draws).2).EnginesOk .primary := h.setNode_access hn (hacc x)
  refine (hset.congr (t := (({ s with cur := i } : State).setNode i (f x s.draws).2).draw) rfl rfl).commitAt_own
    (nd := (f x s.draws).2) (List.getElem?_set_self (List.getElem?_eq_some_iff.1 hn).1) ?_ (he.childCycle.trans hown) hcm
  rw [he.ppe]
  exact ((ppeOk_iff x).1 (h.ppe_at hn)).1.inCycle (.inr hv)

theorem notifyBegin (h : s.EnginesOk .primary) (ht : s.notifyBegin i = .ok t) : t.EnginesOk .primary := by
  rcases whenNode_ok_cases ht with rfl | ⟨nd, hn, hg, ht⟩
  · exact h
  obtain rfl := Except.ok.inj ht
  obtain ⟨hb, -⟩ := (ppeOk_iff nd).1 (h.ppe_at hn)
  simp only [State.notifyEnabled, Bool.and_eq_true, Bool.not_eq_true'] at hg
  obtain ⟨⟨-, hbusy⟩, -⟩ := hg
  have hidle : s.phase nd.seg = .idle := segOk_not_busy (h.seg_at hn) hbusy
  exact h.setNode_inOrder hn rfl rfl ((ppeOk_iff _).2 ⟨{ hb with }, hbusy⟩) (by simp [hidle, segOk])
    ((h.hfe_at hn).congr rfl rfl rfl rfl rfl rfl le_rfl)

theorem notifyController (h : s.EnginesOk .primary) (k : SegId) : (s.notifyController k).EnginesOk .primary := by
  cases k with
  | primary => exact h.congr rfl rfl
  | sub j =>
    refine h.modNode fun nd hn => h.setNode_inOrder hn rfl rfl (ppeOk_congr (nd := nd) rfl rfl rfl (h.ppe_at hn))
      (h.seg_at hn) ?_
    exact (h.hfe_at hn).requested fun _ => rfl

theorem notifyEnd (h : s.EnginesOk .primary) (ht : s.notifyEnd i = .ok t) : t.EnginesOk .primary := by
  rcases whenNode_ok_cases ht with rfl | ⟨nd, hn, -, ht⟩
  · exact h
  obtain rfl := Except.ok.inj ht
  refine (h.notifyController nd.seg).modNode fun x hx => ?_
  have h' := h.notifyController nd.seg
  obtain ⟨hb, -⟩ := (ppeOk_iff x).1 (h'.ppe_at hx)
  exact h'.setNode_inOrder hx rfl rfl ((ppeOk_iff _).2 ⟨{ hb with }, trivial⟩) (segOk_idle (h'.seg_at hx) rfl rfl)
    ((h'.hfe_at hx).congr rfl rfl rfl rfl rfl rfl le_rfl)

theorem hostEvent {e : BusEvent} (h : s.EnginesOk .primary) (ht : s.hostEvent e = .ok t) : t.EnginesOk .primary := by
  unfold State.hostEvent at ht
  split at ht
  · exact Except.ok.inj ht ▸ h
  · split at ht
    · cases ht
    · rename_i u r he
      obtain rfl := Except.ok.inj ht
      exact (emit_enginesOk h he).congr rfl rfl

/-! ### Resets -/

/-- A reset node fits any phase of its segment, and a transaction it controlled leaves no target in it but a stalled one
(R401, R402). -/
theorem resetNode (h : s.EnginesOk .primary) (i : Nat) (kind : ResetKind) : (s.resetNode i kind).EnginesOk .primary := by
  cases hn : s.nodes[i]? with
  | none => rw [State.resetNode, hn]; exact h
  | some nd =>
    refine ⟨nofun, fun x hx => ?_, fun x hx => ?_, fun j x hx _ => ?_⟩
    · obtain ⟨j, hx⟩ := List.getElem?_of_mem hx
      rcases resetNode_node hn hx with ⟨-, busy, draw, rfl, -⟩ | ⟨-, y, hy, rfl⟩
      · exact afterReset_ppeOk ..
      · split
        · exact onStop_ppeOk (h.ppe_at hy)
        · exact h.ppe_at hy
    · obtain ⟨j, hx⟩ := List.getElem?_of_mem hx
      have hidle : (s.resetNode i kind).phase (.sub i) = .idle := (resetNode_restAfterReset hn kind).1
      rcases resetNode_node hn hx with ⟨-, busy, draw, rfl, hbusy⟩ | ⟨-, y, hy, rfl⟩
      · have hseg : (nd.afterReset kind busy draw).seg = nd.seg := by simp only [Node.afterReset]
        refine segOk_outside rfl fun hph => hbusy ?_
        rw [hseg] at hph
        by_cases hk : nd.seg = .sub i
        · exact absurd (hk ▸ hidle) hph
        · rwa [resetNode_phase_other kind hn hk] at hph
      · by_cases hk : y.seg = .sub i
        · split
          · rw [onStop_seg, hk, hidle]
            exact segOk_outside rfl (by simp)
          · rename_i hno
            have hy' := h.seg_at hy
            rw [hk] at hy' ⊢
            rw [hidle]
            by_cases hph : s.phase (.sub i) = .idle
            · rwa [hph] at hy'
            · have hst : y.ppe.st = .sendingStalled := by
                by_contra hst
                exact hno ⟨hk, hph, hst⟩
              simp [segOk, hst]
        · rw [if_neg fun hstop => hk hstop.1, resetNode_phase_other kind hn hk]
          exact h.seg_at hy
    · rcases resetNode_node hn hx with ⟨-, busy, draw, rfl, -⟩ | ⟨-, y, hy, rfl⟩
      · exact afterReset_hfeFits ..
      · split
        · exact (h.hfe_at hy).congr rfl rfl rfl rfl rfl rfl le_rfl
        · exact h.hfe_at hy

theorem recoverFirst (h : s.EnginesOk .primary) (j m : Nat) : (s.recoverFirst j m).EnginesOk .primary := by
  induction m with
  | zero => exact h
  | succ m ih =>
    rw [recoverFirst_succ]
    split
    · exact ih.resetNode m .recovery
    · exact ih

theorem endResurrectionStep (h : s.EnginesOk .primary) (ht : s.endResurrectionStep i = .ok t) : t.EnginesOk .primary := by
  rcases whenNode_ok_cases ht with rfl | ⟨nd, hn, hg, ht⟩
  · exact h
  obtain rfl := Except.ok.inj ht
  simp only [Bool.and_eq_true, beq_iff_eq] at hg
  obtain ⟨hcap, hst⟩ := hg
  rw [modNode_eq_setNode _ hn]
  exact (h.setNode_rest hn hcap (by simp [Hfe.Rests, hst]) (by simp [Hfe.Rests]) rfl).recoverFirst i _

theorem rebootStep (h : s.EnginesOk .primary) (ht : s.rebootStep i = .ok t) : t.EnginesOk .primary := by
  rcases whenNode_ok_cases ht with rfl | ⟨nd, -, -, ht⟩
  · exact h
  · exact Except.ok.inj ht ▸ h.resetNode i .reboot

/-! ### Every step -/

theorem coopStep {c : PpeStep} (h : s.EnginesOk .primary) (ht : s.coopStep i c = .next t) : t.EnginesOk .primary := by
  cases c with
  | clear => exact h.clearStep (out_next_iff.1 ht)
  | reboot => exact h.rebootStep (out_next_iff.1 ht)
  | validate => exact h.validateStep (out_next_iff.1 ht)
  | service => exact h.serviceStep ht
  | notifyBegin => exact h.notifyBegin (out_next_iff.1 ht)
  | notifyEnd => exact h.notifyEnd (out_next_iff.1 ht)

theorem resurrectStep (h : s.EnginesOk .primary) (ht : s.resurrectStep i = .ok t) : t.EnginesOk .primary := by
  rcases whenNode_ok_cases ht with rfl | ⟨nd, hn, hg, ht⟩
  · exact h
  obtain rfl := Except.ok.inj ht
  simp only [Node.resurrectEnabled, Bool.and_eq_true, beq_iff_eq] at hg
  obtain ⟨⟨hcap, hst⟩, -⟩ := hg
  rw [modNode_eq_setNode _ hn]
  exact h.setNode_rest hn hcap (by simp [Hfe.Rests, hst]) (by simp [Hfe.Rests]) rfl

theorem notifiedStep (h : s.EnginesOk .primary) (ht : s.notifiedStep i = .ok t) : t.EnginesOk .primary := by
  rcases whenNode_ok_cases ht with rfl | ⟨nd, hn, hg, ht⟩
  · exact h
  obtain rfl := Except.ok.inj ht
  simp only [Node.notifiedEnabled, Bool.and_eq_true, beq_iff_eq] at hg
  obtain ⟨⟨⟨hcap, hst⟩, -⟩, -⟩ := hg
  rw [modNode_eq_setNode _ hn]
  exact h.setNode_rest hn hcap (by simp [Hfe.Rests, hst]) (by simp [Hfe.Rests]) rfl

theorem flagStep (h : s.EnginesOk .primary) (ht : s.flagStep i = .ok t) : t.EnginesOk .primary := by
  rcases whenNode_ok_cases ht with rfl | ⟨nd, hn, hg, ht⟩
  · exact h
  obtain rfl := Except.ok.inj ht
  simp only [Bool.and_eq_true, beq_iff_eq] at hg
  obtain ⟨hcap, hst⟩ := hg
  have hraise := h.setNode_access hn .raiseChild
  have hn' : (s.setNode i (nd.setChanged (nd.reg 0 ||| nd.par.childMask))).nodes[i]? = some _ :=
    List.getElem?_set_self (List.getElem?_eq_some_iff.1 hn).1
  have hrest := hraise.setNode_rest hn' (f := fun f => { f with notifySeen := false, st := .idle }) hcap
    (by simp [Hfe.Rests, hst]) (by simp [Hfe.Rests]) rfl
  rwa [State.setNode, State.setNode, List.set_set, ← State.setNode,
    ← modNode_eq_setNode (fun n => (n.setChanged (n.reg 0 ||| n.par.childMask)).withHfe _) hn] at hrest

end State.EnginesOk

section
variable {s t : State} (hs : s.coherent = true)
include hs

theorem hubStep_enginesOk {i : Nat} {c : HfeStep} (ht : s.hubStep i c = .ok t) : t.EnginesOk .primary := by
  have hE := coherent_enginesOk hs
  cases c with
  | resurrect => exact hE.resurrectStep ht
  | notified => exact hE.notifiedStep ht
  | openTx envLocked => exact openStep_enginesOk hs ht
  | flag => exact hE.flagStep ht
  | forward => exact forwardStep_enginesOk hs ht
  | turnAround => exact turnAroundStep_enginesOk hs ht
  | copy => exact copyStep_enginesOk hs ht
  | endResurrection => exact hE.endResurrectionStep ht
  | noBus => exact noBusStep_enginesOk hs ht

theorem perform_enginesOk {a : Action} (ht : s.perform a = .next t) : t.EnginesOk .primary := by
  have hE := coherent_enginesOk hs
  cases a with
  | host e => exact hE.hostEvent (out_next_iff.1 ht)
  | coop i c => exact hE.coopStep ht
  | hub i c => exact hubStep_enginesOk hs (out_next_iff.1 ht)
  | collab i c =>
    obtain rfl := Host.Outcome.next.inj ht
    exact hE.modNode fun nd hn => hE.setNode_access hn (.collab c)
  | powerOn i => exact Host.Outcome.next.inj ht ▸ hE.resetNode i .powerOn

theorem step_enginesOk (ht : step s = .next t) : t.EnginesOk .primary := by
  obtain ⟨-, ⟨-, rfl⟩ | ⟨a, -, hp⟩⟩ := step_next_cases ht
  · exact coherent_enginesOk (coherent_advance hs)
  · exact perform_enginesOk (coherent_advance hs) hp

end

/-! ### The tree -/

theorem tree_iff (s : State) : s.tree = true ↔ ∀ (i h : Nat) (nd : Node), s.nodes[i]? = some nd → nd.seg = .sub h →
    h < i ∧ ∃ hub, s.nodes[h]? = some hub ∧ hub.hubCapable = true := by
  simp only [State.tree, List.all_eq_true, List.mem_range]
  constructor
  · intro ht i h nd hn hseg
    have := ht i (List.getElem?_eq_some_iff.1 hn).1
    simpa [hn, hseg, Option.any_eq_true] using this
  · intro ht i hi
    have := fun h => ht i h _ (List.getElem?_eq_getElem hi)
    rw [List.getElem?_eq_getElem hi, Option.map_some]
    split
    · rename_i h hseg
      simpa [Option.any_eq_true] using this h (Option.some.inj hseg)
    · rfl

/-- The network's shape lies in the parts of its nodes that no step changes (R11). -/
theorem tree_of_fixed {s t : State} (h : s.nodewise (fun a b => b.fixed = a.fixed) t) (hs : s.tree = true) :
    t.tree = true := by
  rw [tree_iff] at hs ⊢
  intro i j nd' hn' hseg
  obtain ⟨nd, hn, hfix⟩ := h.node_before hn'
  obtain ⟨hlt, hub, hhub, hcap⟩ := hs i j nd hn ((congrArg Fixed.seg hfix).symm.trans hseg)
  obtain ⟨hub', hhub', hfix'⟩ := h.node_at hhub
  exact ⟨hlt, hub', hhub', (hubCapable_congr hfix').trans hcap⟩

/-- Settles O55: a step changes no place in the tree, keeps the memories node by node (`step_change`), and keeps the engines
against their segments (`step_enginesOk`). -/
theorem stepKeepsCoherence : Obligations.StepKeepsCoherence := by
  intro s t hs ht
  obtain ⟨htree, hmem, -⟩ := (coherent_iff s).1 hs
  have hc := step_change ht
  refine (coherent_iff t).2 ⟨tree_of_fixed (hc.mono fun _ _ h => h.fixed_eq) htree, fun nd' hm => ?_, step_enginesOk hs ht⟩
  obtain ⟨i, hn'⟩ := List.getElem?_of_mem hm
  obtain ⟨nd, hn, hchange⟩ := hc.node_before hn'
  exact hchange.memOk (hmem nd (List.mem_of_getElem? hn))

end Sys2Proof.Machine

/-! SUPPORT. The bytes a node reads, over one access and over one step: the page a block of program storage belongs to (R87),
what a write of a block can do (R85), and the bytes that no access reaches (R82, R86); and what no access changes of the
running configuration and the executing half (R35, R49). -/

namespace Sys2Proof.Machine

/-! ### Every step keeps the memories canonical -/

/-- Settles O54: a step changes each node in one way of `Node.Change`, and each of them keeps its memories canonical. -/
theorem stepKeepsMemoryCanonical : Obligations.StepKeepsMemoryCanonical := by
  intro s t hs ht nd' hm
  obtain ⟨i, hn'⟩ := List.getElem?_of_mem hm
  obtain ⟨nd, hn, hchange⟩ := (step_change ht).node_before hn'
  exact hchange.memOk (hs nd (List.mem_of_getElem? hn))

/-! ### Reads of memory -/

theorem readByte_congr {nd nd' : Node} {a : Nat} (hm : nd'.mem.read? a = nd.mem.read? a) (hf : nd'.fixed = nd.fixed)
    (he : nd.par.region (a / 16) = .ram → nd'.memEpoch = nd.memEpoch) : nd'.readByte a = nd.readByte a := by
  have hpar : nd'.par = nd.par := congrArg Fixed.par hf
  have hkey : nd'.nodeKey = nd.nodeKey := congrArg Fixed.nodeKey hf
  simp only [Node.readByte, hm, hpar, hkey, blkSize_eq]
  split
  · rfl
  · split
    · rename_i hram
      rw [he hram]
    · rfl

theorem readByte_of_read {nd : Node} {a : Nat} {v : Byte} (h : nd.mem.read? a = some v) : nd.readByte a = v := by
  simp only [Node.readByte, h]

/-- A block's write leaves the bytes of the other blocks (R83). -/
theorem read_writeBlock_out {m : Memory} {blk a : Nat} {data : List Byte} (hd : data.length = 16) (ha : a / 16 ≠ blk) :
    (m.writeBytes (blkBase blk) data).read? a = m.read? a := by
  refine read_writeBytes_out m _ _ _ ?_
  simp only [blkBase, blkSize_eq, hd]
  omega

theorem read_writeBlock_in {m : Memory} {blk i : Nat} {data : List Byte} (hd : data.length = 16) (hi : i < 16) :
    (m.writeBytes (blkBase blk) data).read? (16 * blk + i) = some (data.getD i 0) := by
  rw [read_writeBytes_in m _ _ _ (by simp [blkBase]) (by simp only [blkBase, blkSize_eq, hd]; omega)]
  simp [blkBase]

/-- Writing whole blocks gives each its bytes (R83). -/
theorem read_foldl_blocks_in (f : Nat → List Byte) (hf : ∀ b, (f b).length = blkSize) {bs : List Nat} {b i : Nat}
    (hb : b ∈ bs) (hi : i < 16) (m : Memory) :
    (bs.foldl (fun m b => m.writeBytes (blkBase b) (f b)) m).read? (16 * b + i) = some ((f b).getD i 0) := by
  have hblk : (16 * b + i) / 16 = b := by omega
  induction bs generalizing m with
  | nil => cases hb
  | cons c bs ih =>
    rw [List.foldl_cons]
    by_cases hlater : b ∈ bs
    · exact ih hlater _
    · obtain rfl : b = c := (List.mem_cons.1 hb).resolve_right hlater
      rw [read_foldl_blocks_out f hf (by rwa [hblk]), read_writeBlock_in (hf b) hi]

/-! ### Pages of program storage -/

theorem wf_progPageBlocks {p : Params} (h : p.wf = true) : 1 ≤ p.progPageBlocks := by
  simp only [Params.wf, Bool.and_eq_true, decide_eq_true_eq] at h
  exact h.2

theorem mem_pageBlocks {p : Params} {blk b : Nat} (hp : 1 ≤ p.progPageBlocks) :
    b ∈ p.pageBlocks blk ↔ p.samePage blk b := by
  have hdiv : b / p.progPageBlocks = blk / p.progPageBlocks ↔
      p.progPageBlocks * (blk / p.progPageBlocks) ≤ b ∧
        b < p.progPageBlocks * (blk / p.progPageBlocks) + p.progPageBlocks := by
    rw [Nat.div_eq_iff hp, Nat.mul_comm]
    omega
  simp only [Params.pageBlocks, Params.samePage, List.mem_filter, List.mem_range'_1, ← Nat.add_min_add_left, lt_min_iff,
    beq_iff_eq, hdiv]
  constructor
  · rintro ⟨⟨hlo, hhi, htop⟩, hr⟩
    exact ⟨by omega, hr, hlo, hhi⟩
  · rintro ⟨htop, hr, hlo, hhi⟩
    exact ⟨⟨hlo, hhi, by omega⟩, hr⟩

/-- The node once the page of `blk` is programmed (R87). -/
def Node.programmed (nd : Node) (blk draw : Nat) : Node :=
  { nd with
    mem := (nd.par.pageBlocks blk).foldl (fun m b => m.writeBytes (blkBase b) (nd.bufBlock b draw)) nd.mem
    progPending := nd.progPending.filter fun b => !(nd.par.pageBlocks blk).contains b
    progBuf := nd.progBuf.filter fun c => !(nd.par.pageBlocks blk).contains (c.1 / blkSize) }

theorem programPage_complete {nd : Node} {blk : Nat} (draw : Nat) (h : ∀ b ∈ nd.par.pageBlocks blk, b ∈ nd.progPending) :
    nd.programPage blk draw = nd.programmed blk draw :=
  if_pos (by simpa using h)

theorem programPage_incomplete {nd : Node} {blk b : Nat} (draw : Nat) (hb : b ∈ nd.par.pageBlocks blk)
    (h : b ∉ nd.progPending) : nd.programPage blk draw = nd :=
  if_neg fun hall => h (by simpa using List.all_eq_true.1 hall b hb)

theorem bufBlock_getD {nd : Node} {b i : Nat} {v : Byte} (draw : Nat) (hi : i < 16)
    (hv : nd.progBuf.read? (16 * b + i) = some v) : (nd.bufBlock b draw).getD i 0 = v := by
  simp [Node.bufBlock, blkBase, hi, hv]

/-- A block of the page takes its buffered bytes (R87). -/
theorem programmed_readByte_in {nd : Node} {blk b i : Nat} {v : Byte} (draw : Nat) (hb : b ∈ nd.par.pageBlocks blk)
    (hi : i < 16) (hv : nd.progBuf.read? (16 * b + i) = some v) : (nd.programmed blk draw).readByte (16 * b + i) = v := by
  have hread := read_foldl_blocks_in (nd.bufBlock · draw) (fun b => by simp [Node.bufBlock]) hb hi nd.mem
  rw [bufBlock_getD draw hi hv] at hread
  exact readByte_of_read hread

theorem programmed_readByte_out {nd : Node} {blk a : Nat} (draw : Nat) (ha : a / 16 ∉ nd.par.pageBlocks blk) :
    (nd.programmed blk draw).readByte a = nd.readByte a :=
  readByte_congr (read_foldl_blocks_out _ (fun b => by simp [Node.bufBlock]) ha nd.mem) rfl fun _ => rfl

theorem programmed_progBuf_out {nd : Node} {blk a : Nat} (draw : Nat) (ha : a / 16 ∉ nd.par.pageBlocks blk) :
    (nd.programmed blk draw).progBuf.read? a = nd.progBuf.read? a :=
  read_filter_kept (fun x => !(nd.par.pageBlocks blk).contains (x / blkSize)) (by simpa using ha)

theorem mem_programmed_pending {nd : Node} {blk b : Nat} (draw : Nat) :
    b ∈ (nd.programmed blk draw).progPending ↔ b ∈ nd.progPending ∧ b ∉ nd.par.pageBlocks blk := by
  simp [Node.programmed]

/-- Programming a page changes no byte of a block that is not pending (R87). -/
theorem programPage_readByte {nd : Node} {blk a : Nat} (draw : Nat) (ha : a / 16 ∉ nd.progPending) :
    (nd.programPage blk draw).readByte a = nd.readByte a := by
  by_cases hall : ∀ b ∈ nd.par.pageBlocks blk, b ∈ nd.progPending
  · rw [programPage_complete draw hall]
    exact programmed_readByte_out draw fun hpage => ha (hall _ hpage)
  · push Not at hall
    obtain ⟨b, hb, hpend⟩ := hall
    rw [programPage_incomplete draw hb hpend]

/-! ### The write of a block -/

theorem progWritable_iff (nd : Node) (blk : Nat) : nd.progWritable blk = true ↔
    nd.reg nd.par.regUnlock = nd.par.unlockKey ∧ nd.par.isProtected blk = false ∧ nd.par.halfOf blk ≠ nd.execHalf := by
  simp [Node.progWritable, and_assoc]

/-- The node once a permitted write of a program block is pending, its page aside (R85). -/
def Node.buffered (nd : Node) (blk : Nat) (data : List Byte) : Node :=
  { nd with
    progPending := addBlock nd.progPending blk
    progBuf := nd.progBuf.writeBytes (blkBase blk) data }

theorem memWriteBlock_prog {nd : Node} {blk : Nat} (data : List Byte) (draw : Nat) (hr : nd.par.region blk = .prog)
    (hw : nd.progWritable blk = true) :
    nd.memWriteBlock blk data draw = (.ok, (nd.buffered blk data).programPage blk draw) := by
  simp only [Node.memWriteBlock, hr, hw, if_true]
  rfl

/-- A write of a block is discarded, stored in working storage or configuration, or buffered where it is permitted (R85). -/
theorem memWriteBlock_cases (nd : Node) (blk : Nat) (data : List Byte) (draw : Nat) :
    (nd.memWriteBlock blk data draw).2 = nd ∨
    (nd.par.region blk = .ram ∨ nd.par.region blk = .config) ∧
      (nd.memWriteBlock blk data draw).2 = { nd with mem := nd.mem.writeBytes (blkBase blk) data } ∨
    nd.par.region blk = .prog ∧ nd.progWritable blk = true ∧
      (nd.memWriteBlock blk data draw).2 = (nd.buffered blk data).programPage blk draw := by
  cases hr : nd.par.region blk with
  | unmapped | ident => exact .inl (by simp only [Node.memWriteBlock, hr])
  | ram => exact .inr (.inl ⟨.inl rfl, by simp only [Node.memWriteBlock, hr]⟩)
  | config => exact .inr (.inl ⟨.inr rfl, by simp only [Node.memWriteBlock, hr]⟩)
  | prog =>
    by_cases hw : nd.progWritable blk = true
    · exact .inr (.inr ⟨rfl, hw, congrArg Prod.snd (memWriteBlock_prog data draw hr hw)⟩)
    · exact .inl (by simp only [Node.memWriteBlock, hr, if_neg hw])

/-- While a block of the page is missing, the write is buffered and no more (R87). -/
theorem buffered_programPage_incomplete {nd : Node} {blk : Nat} (data : List Byte) (draw : Nat)
    (hp : 1 ≤ nd.par.progPageBlocks) (h : ∃ b, nd.par.samePage blk b ∧ b ≠ blk ∧ b ∉ nd.progPending) :
    (nd.buffered blk data).programPage blk draw = nd.buffered blk data := by
  obtain ⟨b, hpage, hne, hpend⟩ := h
  exact programPage_incomplete draw ((mem_pageBlocks hp).2 hpage) fun hb => (mem_addBlock.1 hb).elim hne hpend

theorem buffered_programPage_complete {nd : Node} {blk : Nat} (data : List Byte) (draw : Nat)
    (hp : 1 ≤ nd.par.progPageBlocks) (h : ∀ b, nd.par.samePage blk b → b = blk ∨ b ∈ nd.progPending) :
    (nd.buffered blk data).programPage blk draw = (nd.buffered blk data).programmed blk draw :=
  programPage_complete draw fun b hb => mem_addBlock.2 (h b ((mem_pageBlocks hp).1 hb))

/-- A programming write changes the memory, the pending blocks and the buffer (R85, R87). -/
theorem buffered_programPage_eq (nd : Node) (blk : Nat) (data : List Byte) (draw : Nat) :
    ∃ m ps buf, (nd.buffered blk data).programPage blk draw = { nd with mem := m, progPending := ps, progBuf := buf } := by
  unfold Node.programPage
  dsimp only
  split <;> exact ⟨_, _, _, rfl⟩

/-- The service of a permitted write of a program block (R185, R290). -/
theorem exec_memWrite_prog {s : State} {nd : Node} {blk : BitVec 12} (data : List Byte) (hs : s.serving nd)
    (hr : nd.par.region blk.toNat = .prog) (hw : nd.progWritable blk.toNat = true) :
    ∃ t q, exec (.memWrite blk data) s = .next t ∧ Published nd.ppe q [0x50] ∧
      s.onlyNode t s.cur { (nd.buffered blk.toNat data).programPage blk.toNat s.draws with ppe := q } := by
  obtain ⟨t, nd', ht, honly, -, hpub, hnd'⟩ := serve_published
    (f := fun nd draw => ([codeByte (nd.memWriteBlock blk.toNat data draw).1], (nd.memWriteBlock blk.toNat data draw).2))
    hs (memWriteBlock_ppe ..) (packageReply_code _)
  have hbyte : statusOnly (codeNibble .ok) = [0x50] := by decide
  dsimp only at hpub hnd'
  rw [memWriteBlock_prog data s.draws hr hw] at hpub hnd'
  exact ⟨t, nd'.ppe, ht, hbyte ▸ hpub, hnd' ▸ honly⟩

/-- Settles O25: a permitted write buffers its block, and the page is programmed when none of its blocks is missing. -/
theorem programPageBatching : Obligations.ProgramPageBatching := by
  intro blk data s nd hs hd hwf hreg hunlock hprot hhalf
  have hp := wf_progPageBlocks hwf
  obtain ⟨t, q, ht, hpub, honly⟩ :=
    exec_memWrite_prog data hs hreg ((progWritable_iff nd _).2 ⟨hunlock, hprot, hhalf⟩)
  refine ⟨t, _, ht, honly, hpub, ?_, fun hmissing => ?_, fun hthere => ?_⟩
  · obtain ⟨m, ps, buf, heq⟩ := buffered_programPage_eq nd blk.toNat data s.draws
    rw [heq]
  · rw [buffered_programPage_incomplete data s.draws hp hmissing]
    exact ⟨fun a => rfl, fun b => mem_addBlock, fun i => read_writeBlock_in hd, fun a => read_writeBlock_out hd⟩
  · rw [buffered_programPage_complete data s.draws hp hthere]
    have hpage {b : Nat} : b ∈ nd.par.pageBlocks blk.toNat ↔ nd.par.samePage blk.toNat b := mem_pageBlocks hp
    have hself : nd.par.samePage blk.toNat blk.toNat := ⟨blk.isLt, hreg, rfl⟩
    have hother {b : Nat} (h : ¬ nd.par.samePage blk.toNat b) : b ≠ blk.toNat := fun he => h (he ▸ hself)
    refine ⟨fun b hb hpend => ?_, fun b hb => ?_, fun i hi => ?_, fun b i v hb hne hi hv => ?_, fun a ha => ⟨?_, ?_⟩⟩
    · exact ((mem_programmed_pending (nd := nd.buffered blk.toNat data) s.draws).1 hpend).2 (hpage.2 hb)
    · exact (mem_programmed_pending (nd := nd.buffered blk.toNat data) s.draws).trans
        ⟨fun ⟨h, _⟩ => (mem_addBlock.1 h).resolve_left (hother hb), fun h => ⟨mem_addBlock.2 (.inr h), hb ∘ hpage.1⟩⟩
    · exact programmed_readByte_in (nd := nd.buffered blk.toNat data) s.draws (hpage.2 hself) hi (read_writeBlock_in hd hi)
    · refine programmed_readByte_in (nd := nd.buffered blk.toNat data) s.draws (hpage.2 hb) hi ?_
      exact (read_writeBlock_out hd (by omega)).trans hv
    · exact programmed_readByte_out (nd := nd.buffered blk.toNat data) s.draws (ha ∘ hpage.1)
    · exact (programmed_progBuf_out (nd := nd.buffered blk.toNat data) s.draws (ha ∘ hpage.1)).trans
        (read_writeBlock_out hd (hother ha))

/-! ### Bytes that no access reaches -/

theorem Node.unwritable.not_ram {nd : Node} {a : Nat} (h : nd.unwritable a) : nd.par.region (a / 16) ≠ .ram :=
  fun hram => by rcases h with h | ⟨h, -⟩ <;> cases hram.symm.trans h

theorem Node.unwritable.not_config {nd : Node} {a : Nat} (h : nd.unwritable a) : nd.par.region (a / 16) ≠ .config :=
  fun hconfig => by rcases h with h | ⟨h, -⟩ <;> cases hconfig.symm.trans h

/-- A block outside the identity region that is neither protected nor executing holds no unwritable byte (R82, R86). -/
theorem Node.unwritable.block_ne {nd : Node} {a b : Nat} (h : nd.unwritable a) (hr : nd.par.region b = .prog)
    (hprot : nd.par.isProtected b = false) (hhalf : nd.par.halfOf b ≠ nd.execHalf) : a / 16 ≠ b := by
  rintro rfl
  rcases h with h | ⟨-, h | h⟩
  · cases h.symm.trans hr
  · cases h.symm.trans hprot
  · exact hhalf h

theorem Node.unwritable.not_pending {nd : Node} {a : Nat} (h : nd.unwritable a) (hm : nd.memOk = true) :
    a / 16 ∉ nd.progPending := by
  obtain ⟨-, -, -, hblocks⟩ := (memOk_iff nd).1 hm
  intro hb
  obtain ⟨-, hr, hprot, hhalf⟩ := hblocks _ hb
  exact h.block_ne hr hprot hhalf rfl

/-- No write of a block changes an unwritable byte (R82, R85, R86). -/
theorem memWriteBlock_readByte {nd : Node} {blk a : Nat} {data : List Byte} (draw : Nat) (hd : data.length = 16)
    (hm : nd.memOk = true) (ha : nd.unwritable a) : (nd.memWriteBlock blk data draw).2.readByte a = nd.readByte a := by
  rcases memWriteBlock_cases nd blk data draw with h | ⟨hr, h⟩ | ⟨hr, hw, h⟩ <;> rw [h]
  · have hne : a / 16 ≠ blk := by
      rintro rfl
      exact hr.elim ha.not_ram ha.not_config
    exact readByte_congr (read_writeBlock_out hd hne) rfl fun _ => rfl
  · obtain ⟨-, hprot, hhalf⟩ := (progWritable_iff nd blk).1 hw
    exact programPage_readByte draw fun hb =>
      (mem_addBlock.1 hb).elim (ha.block_ne hr hprot hhalf) (ha.not_pending hm)

/-- Reading a register changes no byte outside working storage (R93, R187). -/
theorem regValue_readByte {nd : Node} {a : Nat} (r : BitVec 6) (d : Nat) (ha : nd.par.region (a / 16) ≠ .ram) :
    (nd.regValue r d).2.readByte a = nd.readByte a := by
  unfold Node.regValue Node.appRegRead
  repeat' split
  · rfl
  · rfl
  · rfl
  · exact redrawApp_readByte d ha
  · rfl

/-- Writing a register changes no byte outside working storage (R93, R188). -/
theorem regStore_readByte {nd : Node} {a : Nat} (r : BitVec 6) (v : Byte) (d : Nat) (ha : nd.par.region (a / 16) ≠ .ram) :
    (nd.regStore r v d).readByte a = nd.readByte a := by
  unfold Node.regStore Node.appRegWrite
  repeat' split
  · rfl
  · rfl
  · obtain ⟨rr, rs, heq⟩ := ctrlWrite_eq (nd.setReg r v) v
    rw [heq]
    rfl
  · exact redrawApp_readByte d ha
  · rfl

/-- The collaborator writes no byte outside working storage (R92). -/
theorem collabStep_readByte {nd : Node} {a : Nat} (c : CollabStep) (ha : nd.par.region (a / 16) ≠ .ram) :
    (nd.collabStep c).readByte a = nd.readByte a := by
  cases c with
  | setChanged v => rfl
  | setReg r v =>
    simp only [Node.collabStep]
    split <;> rfl
  | writeRam x v =>
    simp only [Node.collabStep]
    split
    · rename_i hx
      have hne : a ≠ x.toNat := by
        rintro rfl
        exact ha hx
      exact readByte_congr (read_write_other nd.mem v hne) rfl fun _ => rfl
    · rfl

theorem Node.Access.readByte {nd mid : Node} {a : Nat} (h : nd.Access mid) (hm : nd.memOk = true) (ha : nd.unwritable a) :
    mid.readByte a = nd.readByte a := by
  cases h with
  | unchanged => rfl
  | regRead r d => exact regValue_readByte r d ha.not_ram
  | regWrite r v d => exact regStore_readByte r v d ha.not_ram
  | memWrite blk hd d => exact memWriteBlock_readByte d (by simpa [blockOk] using hd) hm ha
  | collab c => exact collabStep_readByte c ha.not_ram
  | raiseChild => rfl

theorem Node.enginesOnly.readByte {nd nd' : Node} (h : nd.enginesOnly nd') (a : Nat) : nd'.readByte a = nd.readByte a := by
  obtain ⟨p, f, q, rfl⟩ := h
  rfl

theorem Node.Change.readByte {act : Option Action} {nd nd' : Node} {a : Nat} (h : nd.Change act nd')
    (hm : nd.memOk = true) (ha : nd.unwritable a) : nd'.readByte a = nd.readByte a :=
  h.keeps (R := fun x y => y.readByte a = x.readByte a) (fun hx he => (he.readByte a).trans hx)
    (fun hx => hx.readByte hm ha) rfl
    fun kind busy draw _ => afterReset_readByte kind busy draw ha.not_ram (ha.not_pending hm)

/-- Settles O60: no access reaches an unwritable byte, and a reset rewrites pending blocks and working storage alone. -/
theorem executingCodeNeverChanges : Obligations.ExecutingCodeNeverChanges :=
  fun _ _ i _ nd nd' hn hm ht hn' ha => ((step_change ht).2 i nd nd' hn hn').readByte hm ha

/-! ### The running configuration and the executing half -/

theorem memWriteBlock_execHalf (nd : Node) (blk : Nat) (data : List Byte) (draw : Nat) :
    (nd.memWriteBlock blk data draw).2.execHalf = nd.execHalf := by
  rcases memWriteBlock_cases nd blk data draw with h | ⟨-, h⟩ | ⟨-, -, h⟩ <;> rw [h]
  obtain ⟨m, ps, buf, heq⟩ := buffered_programPage_eq nd blk data draw
  rw [heq]

theorem Node.Access.execHalf {nd mid : Node} (h : nd.Access mid) : mid.execHalf = nd.execHalf := by
  cases h with
  | unchanged => rfl
  | regRead r d => exact (regValue_memFrame nd r d).execHalf
  | regWrite r v d => exact (regStore_memFrame nd r v d).execHalf
  | memWrite blk hd d => exact memWriteBlock_execHalf ..
  | collab c => exact (collabStep_memFrame nd c).execHalf
  | raiseChild => rfl

/-- Without a reset a node keeps its configuration and its executing half (R35, R49). -/
theorem Node.Change.cfg_execHalf {a : Option Action} {nd nd' : Node} (h : nd.Change a nd') (ha : Action.isReset a = false) :
    nd'.cfg = nd.cfg ∧ nd'.execHalf = nd.execHalf := by
  refine h.keeps (R := fun x y => y.cfg = x.cfg ∧ y.execHalf = x.execHalf) ?_
    (fun hx => ⟨hx.sameEngines.cfg, hx.execHalf⟩) ⟨rfl, rfl⟩ fun _ _ _ hreset => ?_
  · rintro x y hx ⟨p, f, q, rfl⟩
    exact hx
  · rw [ha] at hreset
    cases hreset

/-- What is kept node by node is kept in the list of nodes. -/
theorem State.nodewise.map_eq {α : Type} {f : Node → α} {s t : State} (h : s.nodewise (fun x y => f y = f x) t) :
    t.nodes.map f = s.nodes.map f := by
  refine List.ext_getElem (by simp [h.1]) fun i hi hi' => ?_
  simp only [List.getElem_map]
  simp only [List.length_map] at hi hi'
  exact h.2 i _ _ (List.getElem?_eq_getElem hi') (List.getElem?_eq_getElem hi)

/-- Settles O59: of the ways of `Node.Change` only a reset loads a configuration or chooses a half. -/
theorem configurationChangesOnlyAtReset : Obligations.ConfigurationChangesOnlyAtReset := by
  intro s t ht ha
  have hkeeps := (step_change ht).mono fun _ _ h => h.cfg_execHalf ha
  exact ⟨(hkeeps.mono fun _ _ ⟨hcfg, _⟩ => hcfg).map_eq, (hkeeps.mono fun _ _ ⟨_, hhalf⟩ => hhalf).map_eq⟩

end Sys2Proof.Machine

/-! SUPPORT. The encoding both ways (30_encoding.md): the fields of an opcode made from them and the opcode made from its
fields, the decoder's two cases by the payload's length, and `instrOf` and `encode` as each other's inverse. -/

namespace Sys2Proof.Machine

/-! ### An opcode and its fields (R111, R119) -/

theorem kindBits_append (kind : BitVec 2) (reg : BitVec 6) :
    (kind ++ reg : Byte).getLsbD 7 = kind.getLsbD 1 ∧ (kind ++ reg : Byte).getLsbD 6 = kind.getLsbD 0 := by
  constructor <;> exact BitVec.getLsbD_append

theorem topBits_append (top low : BitVec 4) :
    (top ++ low : Byte).getLsbD 7 = top.getLsbD 3 ∧ (top ++ low : Byte).getLsbD 6 = top.getLsbD 2 ∧
    (top ++ low : Byte).getLsbD 5 = top.getLsbD 1 ∧ (top ++ low : Byte).getLsbD 4 = top.getLsbD 0 := by
  refine ⟨?_, ?_, ?_, ?_⟩ <;> exact BitVec.getLsbD_append

theorem opReg_append (kind : BitVec 2) (reg : BitVec 6) : opReg (kind ++ reg) = reg :=
  BitVec.extractLsb'_append_eq_right

theorem opLow_append (top low : BitVec 4) : opLow (top ++ low) = low :=
  BitVec.extractLsb'_append_eq_right

theorem opBlk_append (top : BitVec 4) (blk : BitVec 12) :
    opBlk (top ++ blk.extractLsb' 8 4) (blk.extractLsb' 0 8) = blk := by
  rw [opBlk, opLow_append]
  exact (BitVec.extractLsb'_append_extractLsb'_eq_extractLsb' rfl).trans BitVec.extractLsb'_eq_self

theorem opBlk_high (op lo : Byte) : (opBlk op lo).extractLsb' 8 4 = opLow op :=
  BitVec.extractLsb'_append_eq_left

theorem opBlk_low (op lo : Byte) : (opBlk op lo).extractLsb' 0 8 = lo :=
  BitVec.extractLsb'_append_eq_right

/-- Of a register opcode the kind bits and the index leave no bit out. -/
theorem append_opReg {op : Byte} {kind : BitVec 2} (h7 : op.getLsbD 7 = kind.getLsbD 1)
    (h6 : op.getLsbD 6 = kind.getLsbD 0) : kind ++ opReg op = op := by
  refine BitVec.eq_of_getLsbD_eq fun k hk => ?_
  rw [BitVec.getLsbD_append, opReg, BitVec.getLsbD_extractLsb']
  interval_cases k <;> simp_all

/-- Of a memory opcode the top nibble and the low nibble leave no bit out. -/
theorem append_opLow {op : Byte} {top : BitVec 4} (h7 : op.getLsbD 7 = top.getLsbD 3)
    (h6 : op.getLsbD 6 = top.getLsbD 2) (h5 : op.getLsbD 5 = top.getLsbD 1) (h4 : op.getLsbD 4 = top.getLsbD 0) :
    top ++ opLow op = op := by
  refine BitVec.eq_of_getLsbD_eq fun k hk => ?_
  rw [BitVec.getLsbD_append, opLow, BitVec.getLsbD_extractLsb']
  interval_cases k <;> simp_all

/-! ### The row of an encoded opcode, and the words of a decoded row (R112, R124) -/

/-- The opcode and payload of an encoded instruction stand for that instruction. -/
theorem instrOf_encode {i : Instr} {op : Byte} {payload : List Byte} (h : encode i = op :: payload) (lo : Byte) :
    instrOf op (payload.headD lo) (payload.drop 1) = i := by
  cases i with
  | regRead | regWrite =>
    obtain ⟨rfl, rfl⟩ := List.cons.inj h
    simp [instrOf, kindBits_append, opReg_append, -BitVec.getLsbD_eq_getElem]
  | memRead | memWrite =>
    obtain ⟨rfl, rfl⟩ := List.cons.inj h
    simp [instrOf, topBits_append, opBlk_append, -BitVec.getLsbD_eq_getElem]
  | rsvA0 | rsvB0 | rsvC0 | rsvD0 | rsvE0 | rsvF0 =>
    obtain ⟨rfl, rfl⟩ := List.cons.inj h
    simp [instrOf, topBits_append, opLow_append, -BitVec.getLsbD_eq_getElem]

/-- An opcode with the payload its size asks for is what its instruction is encoded as. -/
theorem encode_instrOf {op : Byte} {payload : List Byte} (h : requestSize op = payload.length + 2) (lo : Byte) :
    encode (instrOf op (payload.headD lo) (payload.drop 1)) = op :: payload := by
  unfold requestSize at h
  unfold instrOf
  split
  · cases payload <;> split
    all_goals simp_all [encode, append_opReg, -BitVec.getLsbD_eq_getElem]
  · cases payload <;> split
    all_goals simp_all [encode, append_opLow, opBlk_high, opBlk_low, -BitVec.getLsbD_eq_getElem]

/-! ### The decoder by the payload's length (R118, R123, R155) -/

theorem decode_cons_of_le {op : Byte} {bs : List Byte} (h : requestSize op ≤ bs.length + 2) :
    decode (op :: bs) =
      .ok (instrOf op (bs.headD 0) ((bs.take (requestSize op - 2)).drop 1), bs.drop (requestSize op - 2)) :=
  if_neg (by omega)

theorem decode_cons_of_lt {op : Byte} {bs : List Byte} (h : bs.length + 2 < requestSize op) :
    decode (op :: bs) = .error (.shortPayload op) :=
  if_pos (by omega)

/-- The decoder cuts the bytes after the opcode where the opcode's size says. -/
theorem decode_cons_append {op : Byte} {payload : List Byte} (h : requestSize op = payload.length + 2) (rest : List Byte) :
    decode (op :: (payload ++ rest)) = .ok (instrOf op (payload.headD (rest.headD 0)) (payload.drop 1), rest) := by
  have hn : requestSize op - 2 = payload.length := by omega
  have hlo : (payload ++ rest).headD 0 = payload.headD (rest.headD 0) := by cases payload <;> rfl
  rw [decode_cons_of_le (by simp [h]), hn, List.take_left, List.drop_left, hlo]

/-- What decodes splits into an opcode, the payload its size asks for, and the bytes given back. -/
theorem decode_ok_split {bs rest : List Byte} {i : Instr} (h : decode bs = .ok (i, rest)) :
    ∃ op payload, bs = op :: (payload ++ rest) ∧ requestSize op = payload.length + 2 := by
  cases bs with
  | nil => cases h
  | cons op bs =>
    rcases Nat.lt_or_ge (bs.length + 2) (requestSize op) with hlt | hle
    · rw [decode_cons_of_lt hlt] at h
      cases h
    · have htwo := two_le_requestSize op
      obtain ⟨-, rfl⟩ := decode_ok h
      refine ⟨op, bs.take (requestSize op - 2), by rw [List.take_append_drop], ?_⟩
      rw [List.length_take]
      omega

/-! ### Decoding and encoding (R111, R112, R118, R119, R124) -/

/-- The words of every well-formed instruction have the size its opcode asks for (R112, R155). -/
theorem sizeAgrees (i : Instr) : Laws.SizeAgrees.Statement i := by
  cases i with
  | regRead reg => exact Laws.SizeAgrees.regRead reg
  | regWrite reg value => exact Laws.SizeAgrees.regWrite reg value
  | memRead blk => exact Laws.SizeAgrees.memRead blk
  | memWrite blk data => exact Laws.SizeAgrees.memWrite blk data
  | rsvA0 low lo => exact Laws.SizeAgrees.rsvA0 low lo
  | rsvB0 low lo data => exact Laws.SizeAgrees.rsvB0 low lo data
  | rsvC0 low lo => exact Laws.SizeAgrees.rsvC0 low lo
  | rsvD0 low lo data => exact Laws.SizeAgrees.rsvD0 low lo data
  | rsvE0 low lo => exact Laws.SizeAgrees.rsvE0 low lo
  | rsvF0 low lo data => exact Laws.SizeAgrees.rsvF0 low lo data

/-- Settles O12: the decoder cuts the words at their size (`sizeAgrees`), and they stand for the instruction. -/
theorem decodeOfEncode : Obligations.DecodeOfEncode := by
  intro i rest hwf
  obtain ⟨op, payload, hi, hsize⟩ := sizeAgrees i hwf
  rw [hi, List.cons_append, decode_cons_append hsize, instrOf_encode hi]

/-- Settles O13: what decodes is cut at the opcode's size, and its row is encoded as those bytes again. -/
theorem encodeOfDecode : Obligations.EncodeOfDecode := by
  intro bs rest i hd
  refine ⟨decode_wellFormed hd, ?_⟩
  obtain ⟨op, payload, rfl, hsize⟩ := decode_ok_split hd
  rw [decode_cons_append hsize] at hd
  obtain ⟨rfl, -⟩ := Prod.mk.inj (Except.ok.inj hd)
  rw [encode_instrOf hsize, List.cons_append]

/-- Settles O14: the decoder compares the payload's length with the opcode's size and asks for nothing else. -/
theorem everyOpcodeDecodes : Obligations.EveryOpcodeDecodes :=
  ⟨rfl, fun _ _ => ⟨fun hle => ⟨_, _, decode_cons_of_le hle⟩, decode_cons_of_lt⟩⟩

/-- Settles O15: each word is what its instruction is encoded as, so it decodes to it (O12). -/
theorem knownWordsDecode : Obligations.KnownWordsDecode :=
  ⟨decodeOfEncode (.regRead 0x3F) [] rfl,
    decodeOfEncode (.regWrite 0x10 0x5A) [] rfl,
    decodeOfEncode (.memRead 0x123) [] rfl,
    decodeOfEncode (.memWrite 0xA00 (List.replicate 16 0x10)) [] rfl,
    decodeOfEncode (.rsvA0 0 0) [] rfl,
    decodeOfEncode (.rsvF0 5 1 (List.replicate 16 0xFF)) [] rfl⟩

/-! ### The address byte (R122) -/

theorem addressOf_addressByte (a : BitVec 7) (rw : Bool) : addressOf (addressByte a rw) = a :=
  BitVec.extractLsb'_append_eq_left

theorem directionOf_addressByte (a : BitVec 7) (rw : Bool) : directionOf (addressByte a rw) = rw :=
  BitVec.getLsbD_append.trans (by simp)

theorem addressByte_toNat (a : BitVec 7) (rw : Bool) : (addressByte a rw).toNat = 2 * a.toNat + rw.toNat := by
  rw [addressByte, BitVec.toNat_append, BitVec.toNat_ofBool, ← Nat.shiftLeft_add_eq_or_of_lt (Bool.toNat_lt rw)]
  omega

/-- Settles O11: the address stands above the direction's bit. -/
theorem addressByteRoundTrip : Obligations.AddressByteRoundTrip :=
  ⟨fun a rw => ⟨addressOf_addressByte a rw, directionOf_addressByte a rw, addressByte_toNat a rw⟩, rfl, rfl⟩

end Sys2Proof.Machine

/-! SUPPORT. The codec's round trips (40_codec.md): the CRC steps as bijections, the fields of a status byte, and what
`checkRequest`, `packageReply` and `checkReply` answer, each said once. -/

namespace Sys2Proof.Machine

/-! ### The 8-bit CRC loses nothing (R151) -/

/-- The bit step backwards: bit 0 of the result says whether the generator was added, since the generator is odd. -/
def crc8BitBack (r : Byte) : Byte := if r.getLsbD 0 then ((r ^^^ 0x4D) >>> 1) ||| 0x80 else r >>> 1

theorem crc8BitBack_crc8Bit : Function.LeftInverse crc8BitBack crc8Bit := by
  unfold Function.LeftInverse
  decide +kernel

theorem repeat_crc8Bit_injective (n : Nat) : Function.Injective (Nat.repeat crc8Bit n) := by
  induction n with
  | zero => exact Function.injective_id
  | succ n ih => exact crc8BitBack_crc8Bit.injective.comp ih

/-- After different registers the same byte leaves different registers. -/
theorem crc8Byte_left_injective (b : Byte) : Function.Injective (crc8Byte · b) :=
  fun _ _ h => BitVec.xor_left_inj b |>.mp (repeat_crc8Bit_injective 8 h)

/-- Different bytes leave different registers. -/
theorem crc8Byte_right_injective (r : Byte) : Function.Injective (crc8Byte r) :=
  fun _ _ h => BitVec.xor_right_inj r |>.mp (repeat_crc8Bit_injective 8 h)

theorem foldl_crc8Byte_injective (s : List Byte) : Function.Injective (s.foldl crc8Byte) := by
  induction s with
  | nil => exact Function.injective_id
  | cons b s ih => exact ih.comp (crc8Byte_left_injective b)

theorem crc8Byte_self (r : Byte) : crc8Byte r r = 0 := by
  rw [crc8Byte, BitVec.xor_self]
  decide

/-- Settles O4: the last step divides the register added to itself. -/
theorem checksum8OfOwnChecksumIsZero : Obligations.Checksum8OfOwnChecksumIsZero := by
  intro s
  rw [checksum8_append]
  exact crc8Byte_self _

/-- A change of one byte changes the checksum (R163(c)): the byte's own step and every later one are injective. -/
theorem checksum8_set_ne {s : List Byte} {i : Nat} {v : Byte} (hi : i < s.length) (hv : v ≠ s[i]) :
    checksum8 (s.set i v) ≠ checksum8 s := by
  have hs : s = s.take i ++ s[i] :: s.drop (i + 1) := by simp
  intro h
  rw [List.set_eq_take_append_cons_drop, if_pos hi, checksum8_append] at h
  conv at h => rhs; rw [hs, checksum8_append]
  exact hv (crc8Byte_right_injective _ (foldl_crc8Byte_injective _ h))

/-- Settles O2: the values, computed. -/
theorem checksum8ReferenceValues : Obligations.Checksum8ReferenceValues := by
  unfold Obligations.Checksum8ReferenceValues
  decide +kernel

/-- Settles O3: the values, computed. -/
theorem checksum4ReferenceValues : Obligations.Checksum4ReferenceValues := by
  unfold Obligations.Checksum4ReferenceValues
  decide +kernel

/-! ### Checking a request (R157, R158) -/

/-- Fewer bytes than the opcode asks for; without an opcode two are missing. -/
theorem checkRequest_of_lt {req : List Byte} {k : Nat} (h : k < 2 ∨ k < requestSize (req.getD 1 0)) :
    checkRequest req k = .incomplete := by
  unfold checkRequest
  rcases h with h | h
  · rw [if_pos h]
  · exact (congrArg _ (if_pos h)).trans (ite_self _)

/-- With all its bytes a request is judged by its check byte alone. -/
theorem checkRequest_of_le {b op : Byte} {rest : List Byte} {k : Nat} (h : requestSize op ≤ k) :
    checkRequest (b :: op :: rest) k =
      if b = checksum8 ((op :: rest).take (requestSize op - 1)) then .ok else .reqCheckErr := by
  have htwo := two_le_requestSize op
  have htake : ((b :: op :: rest).take (requestSize op)).drop 1 = (op :: rest).take (requestSize op - 1) := by
    rw [List.drop_take]; rfl
  have hop : (b :: op :: rest).getD 1 0 = op := rfl
  have hb : (b :: op :: rest).getD 0 0 = b := rfl
  simp only [checkRequest, hop, hb, htake]
  rw [if_neg (by omega), if_neg (by omega), ite_not]

/-- A request of the length its opcode asks for is packaged with the checksum of its whole body. -/
theorem frameOf_cons {op : Byte} {payload : List Byte} (h : payload.length + 2 = requestSize op) :
    frameOf (op :: payload) = checksum8 (op :: payload) :: op :: payload := by
  have hall : (op :: payload).take (requestSize op - 1) = op :: payload :=
    List.take_of_length_le (by simp; omega)
  rw [frameOf, packageRequest, List.headD_cons, hall]

/-- Settles O5: the check byte of the packaged request is the checksum of exactly the bytes `checkRequest` takes. -/
theorem packagedRequestChecks : Obligations.PackagedRequestChecks := by
  intro op payload extra k hlen hk
  have hbody : (op :: (payload ++ extra)).take (requestSize op - 1) = op :: payload := by
    rw [← hlen]
    exact congrArg (op :: ·) List.take_left
  rw [frameOf_cons hlen, List.cons_append, List.cons_append, checkRequest_of_le hk, hbody, if_pos rfl]

/-! ### A reply's status byte (R114, R120, R121) -/

theorem statusByte_code (code : BitVec 4) (payload : List Byte) : (statusByte code payload).extractLsb' 0 4 = code :=
  BitVec.extractLsb'_append_eq_right

theorem statusByte_check (code : BitVec 4) (payload : List Byte) :
    (statusByte code payload).extractLsb' 4 4 = checksum4 (code.setWidth 8 :: payload) :=
  BitVec.extractLsb'_append_eq_left

/-- The low nibble of a code value's byte is the code value (R180). -/
theorem setWidth_code (code : BitVec 4) : (code.setWidth 8 : Byte).extractLsb' 0 4 = code := by
  rw [BitVec.extractLsb'_setWidth_of_le (by decide), BitVec.extractLsb'_eq_self]

theorem codeOfNibble_codeNibble (c : Code) : codeOfNibble (codeNibble c) = some c := by
  cases c <;> rfl

theorem codeNibble_inj {c d : Code} : codeNibble c = codeNibble d ↔ c = d := by
  refine ⟨fun h => Option.some.inj ?_, congrArg codeNibble⟩
  rw [← codeOfNibble_codeNibble, h, codeOfNibble_codeNibble]

/-- No result code makes a status byte that reads as a stuck bus: 0xF is unassigned. -/
theorem statusByte_ne_stuck (c : Code) (payload : List Byte) : statusByte (codeNibble c) payload ≠ 0xFF := by
  intro h
  have hcode := statusByte_code (codeNibble c) payload
  rw [h] at hcode
  cases c <;> exact absurd hcode (by decide)

/-! ### Checking a reply (R156, R159, R161) -/

/-- The bytes after a memory-read reply's status byte end in the checksum of the block before it (R116). -/
abbrev MeetsInnerCheck (body : List Byte) : Prop := body.getD blkSize 0 = checksum8 (body.take blkSize)

theorem meetsInnerCheck_append {block : List Byte} (h : block.length = blkSize) (x : Byte) :
    MeetsInnerCheck (block ++ [x]) ↔ x = checksum8 block := by
  rw [MeetsInnerCheck, List.getD_append_right _ _ _ _ h.le, List.take_left' h, h, Nat.sub_self, List.getD_cons_zero]

theorem checkReply_stuck {rep : List Byte} {op : Byte} {k : Nat} (hk : 1 ≤ k) (h : ∀ b ∈ rep, b = 0xFF) :
    checkReply rep op k = .noReply := by
  have hall : (rep.take k).all (· == 0xFF) = true :=
    List.all_eq_true.mpr fun b hb => beq_iff_eq.mpr (h b (List.mem_of_mem_take hb))
  rw [checkReply, if_neg (by omega), if_pos hall]

/-- Only the opcodes of a block read have an `ok` reply with an inner check. -/
theorem replySize_eq_block {op : Byte} : replySize op = 2 + blkSize ↔ op.getLsbD 7 = true ∧ op.getLsbD 4 = false := by
  unfold replySize
  split
  · split <;> simp_all
  · split <;> simp_all

/-- The verdict on a reply with a known code that was read whole. The status byte's check is of `sent`, the bytes
received are `body`: they must agree in the outer check and, for a block, `body` must meet its own inner check. -/
theorem checkReply_whole {c : Code} {op : Byte} {sent body : List Byte} {k : Nat} (extra : List Byte)
    (hlen : body.length + 1 = if c = .ok then replySize op else 1) (hk : body.length + 1 ≤ k) :
    checkReply (statusByte (codeNibble c) sent :: (body ++ extra)) op k =
      if checksum4 (codeByte c :: sent) ≠ checksum4 (codeByte c :: body) then .repCheckErr
      else if c = .ok ∧ replySize op = 2 + blkSize ∧ ¬ MeetsInnerCheck body then .repCheckErr
      else c := by
  have hstuck : ¬ ((statusByte (codeNibble c) sent :: (body ++ extra)).take k).all (· == 0xFF) = true := by
    rw [← Nat.sub_add_cancel (Nat.le_of_add_left_le hk), List.take_succ_cons]
    exact fun h => statusByte_ne_stuck c sent (beq_iff_eq.mp (List.all_eq_true.mp h _ List.mem_cons_self))
  have hbody : ((statusByte (codeNibble c) sent :: (body ++ extra)).take (body.length + 1)).drop 1 = body :=
    List.take_left
  have hinner : (c = .ok ∧ op.getLsbD 7 = true ∧ op.getLsbD 4 = false ∧ body.length + 1 = 2 + blkSize ∧
      (statusByte (codeNibble c) sent :: (body ++ extra)).getD (body.length + 1 - 1) 0 ≠
        checksum8 (((statusByte (codeNibble c) sent :: (body ++ extra)).take (blkSize + 1)).drop 1)) ↔
      c = .ok ∧ replySize op = 2 + blkSize ∧ ¬ MeetsInnerCheck body := by
    refine and_congr_right fun hc => ?_
    rw [if_pos hc] at hlen
    rw [← and_assoc, ← replySize_eq_block, ← hlen, and_self_left]
    refine and_congr_right fun hblk => ?_
    have hlast : body.length = blkSize + 1 := by omega
    have htake : (body ++ extra).take blkSize = body.take blkSize := List.take_append_of_le_length (by omega)
    have hget : (body ++ extra).getD blkSize 0 = body.getD blkSize 0 := List.getD_append _ _ _ _ (by omega)
    rw [hlast, Nat.add_sub_cancel, List.getD_cons_succ, List.take_succ_cons, List.drop_one, List.tail_cons, htake, hget]
  simp only [checkReply, List.getD_cons_zero, statusByte_code, statusByte_check, codeNibble_inj, ← hlen, hbody,
    codeOfNibble_codeNibble, hinner]
  rw [if_neg (by omega), if_neg hstuck, if_neg (by omega)]
  rfl

/-- What packaging gives: a status byte over the bytes sent, and a block that meets its inner check. -/
theorem packageReply_sent {c : Code} {payload bytes : List Byte} (h : packageReply (codeByte c :: payload) = some bytes) :
    ∃ sent, bytes = statusByte (codeNibble c) sent :: sent ∧ sent.length = payload.length ∧
      (sent.length + 1 = 2 + blkSize → MeetsInnerCheck sent) := by
  have hlen := (packageReply_some h).1
  simp only [packageReply, codeByte, setWidth_code] at h
  split at h
  · cases h
  · obtain rfl := Option.some.inj h
    refine ⟨_, rfl, Nat.succ.inj hlen, ?_⟩
    split
    · next hblk =>
      have htake : (payload.take blkSize).length = blkSize := List.length_take_of_le (by omega)
      exact fun _ => (meetsInnerCheck_append htake _).mpr rfl
    · next hblk => exact fun h => absurd h hblk

/-- Settles O7: what was packaged is received unchanged, so neither check fails, and the code is the one sent. -/
theorem packagedReplyChecks : Obligations.PackagedReplyChecks := by
  constructor
  · intro op payload bytes extra k hsize hp hk
    obtain ⟨sent, rfl, hlen, hinner⟩ := packageReply_sent hp
    have hsent : sent.length + 1 = replySize op := by rw [hlen, hsize]
    rw [List.cons_append, checkReply_whole extra hsent hk, if_neg (not_not.mpr rfl),
      if_neg fun ⟨_, hblk, hne⟩ => hne (hinner (hsent.trans hblk))]
  · intro c op extra k hc hk
    have hlen : ([] : List Byte).length + 1 = if c = .ok then replySize op else 1 := (if_neg hc).symm
    exact (checkReply_whole extra hlen hk).trans (by simp [hc])

/-- Settles O6: opcode 0xFF asks for 19 bytes, and by R152 (O2) the check byte of 18 bytes 0xFF is not 0xFF. -/
theorem stuckBusNeverAccepted : Obligations.StuckBusNeverAccepted := by
  have hsize : requestSize 0xFF = 19 := rfl
  have htwo (n : Nat) : List.replicate (n + 2) (0xFF : Byte) = 0xFF :: 0xFF :: List.replicate n 0xFF := rfl
  refine ⟨fun k hk => ?_, fun k hk => ?_, fun op k hk => ?_⟩
  · match k, hk with
    | 0, _ | 1, _ => exact checkRequest_of_lt (.inl (by decide))
    | n + 2, hk => exact checkRequest_of_lt (.inr (by rwa [htwo, List.getD_cons_succ, List.getD_cons_zero, hsize]))
  · obtain ⟨n, rfl⟩ := Nat.exists_eq_add_of_le' hk
    obtain ⟨-, -, -, -, -, -, hne⟩ := checksum8ReferenceValues
    have htake : (0xFF :: List.replicate (n + 17) (0xFF : Byte)).take 18 = List.replicate 18 0xFF := by
      rw [← List.replicate_succ, List.take_replicate, Nat.min_eq_left (by omega)]
    rw [htwo (n + 17), checkRequest_of_le hk, hsize, htake, if_neg (hne 18 le_rfl).symm]
  · exact checkReply_stuck hk fun b hb => List.eq_of_mem_replicate hb

/-- Settles O9: whatever the outer check says, the checksum of the changed block is not the one sent with it. -/
theorem oneDataByteChangeDetected : Obligations.OneDataByteChangeDetected := by
  intro op v data i h7 h4 hdata hi hv
  have hblk := replySize_eq_block.mpr ⟨h7, h4⟩
  have hset : (data.set i v).length = blkSize := List.length_set.trans hdata
  have hlen : (data.set i v ++ [checksum8 data]).length + 1 = replySize op := by simp [hdata, hblk]
  have hinner : ¬ MeetsInnerCheck (data.set i v ++ [checksum8 data]) := by
    rw [meetsInnerCheck_append hset]
    rw [← hdata] at hi
    rw [List.getD_eq_getElem _ _ hi] at hv
    exact (checksum8_set_ne hi hv).symm
  have hwhole := checkReply_whole (c := .ok) (k := 18) (sent := data ++ [checksum8 data]) [] hlen (by simp [hdata])
  rw [List.append_nil] at hwhole
  refine hwhole.trans ?_
  split
  · rfl
  · exact if_pos ⟨rfl, hblk, hinner⟩

/-- Settles O1: the tested bits choose the branch of both sizes; a status-only reply checks as its code by O7. -/
theorem sizesByOpcode : Obligations.SizesByOpcode := by
  refine ⟨fun op => ⟨?_, ?_, ?_, ?_⟩, rfl, rfl, rfl, fun c op hc => packagedReplyChecks.2 c op [] 1 hc le_rfl⟩
  all_goals
    intro h h'
    simp [requestSize, replySize, h, h', -BitVec.getLsbD_eq_getElem]

/-- Settles O8: packaging one byte keeps its low nibble (`packageReply_one`), which is the code. -/
theorem statusOnlyIsPackagedCode : Obligations.StatusOnlyIsPackagedCode := by
  refine ⟨fun c => ⟨?_, rfl⟩, by decide, by decide⟩
  rw [packageReply_one, setWidth_code]

end Sys2Proof.Machine

/-! SUPPORT. The service of a request, said once for all instructions: the rule's node with the reply published, and nothing
else of the network (R180, R290); the service step and the reserved requests by it, and the reboot step (R283). -/

namespace Sys2Proof.Machine

theorem serviceRule_ppe (i : Instr) (nd : Node) (draw : Nat) : (serviceRule i nd draw).2.ppe = nd.ppe := by
  cases i with
  | regRead reg => exact regValue_ppe ..
  | regWrite reg value => exact regStore_ppe ..
  | memWrite blk data => exact memWriteBlock_ppe ..
  | memRead | rsvA0 | rsvB0 | rsvC0 | rsvD0 | rsvE0 | rsvF0 => rfl

/-- The service of a node that has no reply yet publishes the rule's reply (R180, R290). -/
theorem exec_published {i : Instr} {s : State} {nd : Node} {bytes : List Byte} (hs : s.serving nd)
    (hp : packageReply (serviceRule i nd s.draws).1 = some bytes) :
    ∃ t q, exec i s = .next t ∧ s.onlyNode t s.cur { (serviceRule i nd s.draws).2 with ppe := q } ∧
      Published nd.ppe q bytes := by
  obtain ⟨t, nd', ht, honly, -, hpub, hnd'⟩ := serve_published hs (serviceRule_ppe i nd s.draws) hp
  exact ⟨t, nd'.ppe, (exec_eq_serve i s).trans ht, hnd' ▸ honly, hpub⟩

/-- A request whose rule changes nothing changes the reply alone. -/
theorem exec_published_unchanged {i : Instr} {s : State} {nd : Node} {rep bytes : List Byte} (hs : s.serving nd)
    (hrule : serviceRule i nd s.draws = (rep, nd)) (hp : packageReply rep = some bytes) :
    ∃ t nd', exec i s = .next t ∧ s.onlyNode t s.cur nd' ∧ nd' = { nd with ppe := nd'.ppe } ∧
      Published nd.ppe nd'.ppe bytes := by
  obtain ⟨t, q, ht, honly, hpub⟩ := exec_published hs (i := i) (by rw [hrule]; exact hp)
  rw [hrule] at honly
  exact ⟨t, _, ht, honly, rfl, hpub⟩

theorem commit_ppe_only {nd nd' : Node} {rep : List Byte} (h : nd.commit rep = .ok nd') : nd' = { nd with ppe := nd'.ppe } := by
  unfold Node.commit at h
  split at h
  · cases h
  · split at h
    · cases h
    · obtain rfl := Except.ok.inj h
      rw [resume_eq]

/-- A service that answers leaves the rule's node, but for its PPE, and the rest of the network (R180). -/
theorem exec_next_onlyNode {i : Instr} {s t : State} {nd : Node} (hn : s.nodes[s.cur]? = some nd) (h : exec i s = .next t) :
    ∃ q, s.onlyNode t s.cur { (serviceRule i nd s.draws).2 with ppe := q } := by
  rw [exec_eq_serve] at h
  obtain ⟨x, hx, hc⟩ := serve_next h
  obtain rfl : nd = x := Option.some.inj (hn.symm.trans hx)
  obtain ⟨mid, nd', hmid, hcommit, rfl⟩ := commitAt_ok hc
  have hlt : s.cur < s.nodes.length := (List.getElem?_eq_some_iff.1 hn).1
  rw [draw_nodes, setNode_nodes, List.getElem?_set_self hlt] at hmid
  obtain rfl := Option.some.inj hmid
  refine ⟨nd'.ppe, ?_⟩
  rw [← commit_ppe_only hcommit]
  simp [State.onlyNode, List.set_set]

theorem packageReply_ok : packageReply [codeByte .ok] = some [0x50] := by decide

theorem packageReply_illegal : packageReply [codeByte .illegal] = some [0xA5] := by decide

theorem packageReply_forbidden : packageReply [codeByte .forbidden] = some [0xF6] := by decide

/-! ### The step and the reserved requests -/

/-- Settles O17: the service step fetches, decodes and runs (R180, R181, R288). -/
theorem stepServesDecodedRequest : Obligations.StepServesDecodedRequest := by
  intro s n nd i rest hr ha hn hen hd
  have hn' : s.advance.nodes[n]? = some nd := hn
  rw [step_of_action hr ha]
  simp only [State.perform, State.coopStep, State.serviceStep, hn', hen, hd, if_true]

/-- Settles O26: the six rules are one, `[illegal]` and the node as it was (R186). -/
theorem reservedAnswersIllegal : Obligations.ReservedAnswersIllegal := by
  intro low lo data s nd hs i hi
  have hrule : serviceRule i nd s.draws = ([codeByte .illegal], nd) := by
    simp only [List.mem_cons, List.not_mem_nil, or_false] at hi
    rcases hi with rfl | rfl | rfl | rfl | rfl | rfl <;> rfl
  exact exec_published_unchanged hs hrule packageReply_illegal

/-! ### The reboot step -/

theorem rebootEnabled_iff (nd : Node) :
    nd.rebootEnabled = true ↔ nd.rebootReq ≠ .none ∧ nd.ppe.cycAddr = none ∧ nd.ppe.st = .idle := by
  simp [Node.rebootEnabled, and_assoc]

theorem rebootStep_enabled {s : State} {i : Nat} {nd : Node} (hn : s.nodes[i]? = some nd) (h : nd.rebootEnabled = true) :
    s.rebootStep i = .ok (s.resetNode i .reboot) := by
  simp only [State.rebootStep, State.whenNode, hn, h, if_true]

theorem rebootStep_disabled {s : State} {i : Nat} {nd : Node} (hn : s.nodes[i]? = some nd) (h : ¬ nd.rebootEnabled = true) :
    s.rebootStep i = .ok s := by
  simp only [State.rebootStep, State.whenNode, hn, if_neg h]

theorem other_ne (h : Half) : h.other ≠ h := by
  cases h <;> decide

/-- Settles O52: the reset of R400 by the same facts as the power-on reset's; the request chooses the half (R189). -/
theorem rebootStepSwitchesHalf : Obligations.RebootStepSwitchesHalf := by
  intro s i nd hr ha hn
  have hn' : s.advance.nodes[i]? = some nd := hn
  have hstep : step s = (s.advance.rebootStep i).out := step_of_action hr ha
  refine ⟨fun hreq hcyc hst => ?_, fun hoff => ?_⟩
  · have hrest := resetNode_restAfterReset hn' .reboot
    simp only [State.restAfterReset, advance_phase, advance_primary, advance_hostLog, advance_nodes] at hrest
    rw [rebootStep_enabled hn' ((rebootEnabled_iff nd).2 ⟨hreq, hcyc, hst⟩)] at hstep
    refine ⟨_, _, hstep, resetNode_self hn' .reboot, afterReset_wasReset .., ?_, fun hkeep => ?_, fun hswitch => ?_, hrest⟩
    · rw [advance_phase]
      exact decide_eq_true_iff
    · simp [Node.afterReset, Node.halfAfter, hkeep]
    · simp [Node.afterReset, Node.halfAfter, hswitch, other_ne]
  · rw [hstep, rebootStep_disabled hn' fun hen => ?_]
    · rfl
    · obtain ⟨hreq, hcyc, hst⟩ := (rebootEnabled_iff nd).1 hen
      rcases hoff with h | h | h
      · exact hreq h
      · exact h hcyc
      · exact h hst

end Sys2Proof.Machine

/-! SUPPORT. The memory requests (R184, R185): what a read answers, which writes are refused, and what a stored block
changes. -/

namespace Sys2Proof.Machine

/-! ### Memory reads -/

theorem blockData_length (nd : Node) (blk d : Nat) : (nd.blockData blk d).length = 16 := by
  unfold Node.blockData
  split <;> simp [Node.readBlock]

theorem blockData_getD {nd : Node} {blk i : Nat} (d : Nat)
    (h : ¬ (nd.par.region blk = .prog ∧ blk ∈ nd.progPending)) (hi : i < 16) :
    (nd.blockData blk d).getD i 0 = nd.readByte (16 * blk + i) := by
  rw [Node.blockData, if_neg h]
  simp [Node.readBlock, hi, blkBase]

/-- Settles O22: the rule changes nothing, and its reply is `illegal` or the packaged block (R84, R184). -/
theorem memReadResult : Obligations.MemReadResult := by
  intro blk s nd hs
  by_cases hr : nd.par.region blk.toNat = .unmapped
  · obtain ⟨t, nd', ht, honly, heq, hpub⟩ := exec_published_unchanged (i := .memRead blk) hs
      (rep := [codeByte .illegal]) (by simp [serviceRule, Node.memReadReply, hr]) packageReply_illegal
    exact ⟨t, nd', ht, honly, heq, fun _ => hpub, fun h => absurd hr h⟩
  · have hlen := blockData_length nd blk.toNat s.draws
    obtain ⟨t, nd', ht, honly, heq, hpub⟩ := exec_published_unchanged (i := .memRead blk) hs
      (by rw [serviceRule, Node.memReadReply, if_neg hr]) (packageReply_block _ 0 hlen)
    exact ⟨t, nd', ht, honly, heq, fun h => absurd h hr,
      fun _ => ⟨nd.blockData blk.toNat s.draws, hlen, hpub, fun hpend i => blockData_getD s.draws hpend⟩⟩

/-! ### Memory writes -/

theorem memWriteBlock_unmapped {nd : Node} {blk : Nat} (data : List Byte) (draw : Nat) (h : nd.par.region blk = .unmapped) :
    nd.memWriteBlock blk data draw = (.illegal, nd) := by
  simp only [Node.memWriteBlock, h]

/-- Identity and program storage that is not writable refuse the write (R82, R85, R86). -/
theorem memWriteBlock_forbidden {nd : Node} {blk : Nat} (data : List Byte) (draw : Nat)
    (h : nd.par.region blk = .ident ∨ nd.par.region blk = .prog ∧ ¬ nd.progWritable blk = true) :
    nd.memWriteBlock blk data draw = (.forbidden, nd) := by
  rcases h with h | ⟨h, hw⟩
  · simp only [Node.memWriteBlock, h]
  · simp only [Node.memWriteBlock, h, if_neg hw]

theorem memWriteBlock_stored {nd : Node} {blk : Nat} (data : List Byte) (draw : Nat)
    (h : nd.par.region blk = .ram ∨ nd.par.region blk = .config) :
    nd.memWriteBlock blk data draw = (.ok, { nd with mem := nd.mem.writeBytes (blkBase blk) data }) := by
  rcases h with h | h <;> simp only [Node.memWriteBlock, h]

/-- Settles O23: by the regions' refusals of R85; a block is not writable by any one condition of R86. -/
theorem memWriteForbidden : Obligations.MemWriteForbidden := by
  intro blk data s nd hs
  refine ⟨fun hr => ?_, fun hr => ?_⟩
  · exact exec_published_unchanged hs (by rw [serviceRule, memWriteBlock_unmapped data _ hr]) packageReply_illegal
  · have hrefused : nd.par.region blk.toNat = .ident ∨
        nd.par.region blk.toNat = .prog ∧ ¬ nd.progWritable blk.toNat = true := by
      refine hr.imp_right fun ⟨hprog, hwhy⟩ => ⟨hprog, fun hw => ?_⟩
      obtain ⟨hunlock, hprot, hhalf⟩ := (progWritable_iff nd _).1 hw
      rcases hwhy with h | h | h
      · exact h hunlock
      · rw [hprot] at h; cases h
      · exact hhalf h
    exact exec_published_unchanged hs (by rw [serviceRule, memWriteBlock_forbidden data _ hrefused]) packageReply_forbidden

/-- Settles O24: the block's bytes are written at its base (R83), and no other address. -/
theorem memWriteStores : Obligations.MemWriteStores := by
  intro blk data s nd hs hd hr
  have hrule : serviceRule (.memWrite blk data) nd s.draws =
      ([codeByte .ok], { nd with mem := nd.mem.writeBytes (blkBase blk.toNat) data }) := by
    rw [serviceRule, memWriteBlock_stored data _ hr]
  obtain ⟨t, q, ht, honly, hpub⟩ := exec_published (i := .memWrite blk data) hs (by rw [hrule]; exact packageReply_ok)
  rw [hrule] at honly
  refine ⟨t, _, ht, honly, hpub, rfl, fun i hi => readByte_of_read (read_writeBlock_in hd hi), fun a ha => ?_⟩
  exact readByte_congr (read_writeBlock_out hd (by omega)) rfl fun _ => rfl

end Sys2Proof.Machine

/-! SUPPORT. The register requests (R182, R183). A quiet access, which runs no free collaborator, has a closed form; any other
is the collaborator's free change (R32, R93). -/

namespace Sys2Proof.Machine

/-! ### Registers -/

theorem reg_setReg (nd : Node) (r r' : BitVec 6) (v : Byte) : (nd.setReg r v).reg r' = if r' = r then v else nd.reg r' := by
  simp [Node.reg, Node.setReg, Vector.getElem_set, BitVec.toNat_inj, eq_comm]

theorem coreOwned_iff (p : Params) (r : BitVec 6) :
    p.coreOwned r = true ↔ r = 0 ∨ r = p.regMagic ∨ r = p.regCtrl ∨ r = p.regUnlock := by
  simp [Params.coreOwned, or_assoc]

/-- Bits that fall make no notification (R38). -/
theorem setChanged_and (nd : Node) (m : Byte) : nd.setChanged (nd.reg 0 &&& m) = nd.setReg 0 (nd.reg 0 &&& m) := by
  have hfall : (nd.reg 0 &&& m) &&& ~~~nd.regs[0] = 0 := by
    show (nd.regs[0] &&& m) &&& ~~~nd.regs[0] = 0
    rw [BitVec.and_assoc, BitVec.and_comm m, ← BitVec.and_assoc, BitVec.and_not_self]
    exact BitVec.zero_and
  rw [Node.setChanged, hfall]
  simp [Node.setReg]

/-- An access that is not quiet is one of a free collaborator's register (R31, R32). -/
theorem not_quiet {nd : Node} {r : BitVec 6} (h : ¬ nd.quiet r) :
    r ≠ 0 ∧ r ≠ nd.par.regMagic ∧ r ≠ nd.par.regCtrl ∧ r ≠ nd.par.regUnlock ∧ nd.collab = .free := by
  obtain ⟨hcore, hfree⟩ := not_or.1 h
  rw [coreOwned_iff] at hcore
  push Not at hcore
  obtain ⟨h0, hm, hc, hu⟩ := hcore
  refine ⟨h0, hm, hc, hu, ?_⟩
  cases hk : nd.collab with
  | free => rfl
  | storage => exact absurd hk hfree

/-- A quiet access to the collaborator's own register finds plain storage. -/
theorem storage_of_quiet {nd : Node} {r : BitVec 6} (h : nd.quiet r) (h0 : r ≠ 0) (hm : r ≠ nd.par.regMagic)
    (hc : r ≠ nd.par.regCtrl) (hu : r ≠ nd.par.regUnlock) : nd.collab = .storage := by
  refine h.resolve_left fun hcore => ?_
  rcases (coreOwned_iff _ _).1 hcore with h | h | h | h
  · exact h0 h
  · exact hm h
  · exact hc h
  · exact hu h

/-! ### Register reads -/

theorem regValue_of_quiet {nd : Node} {r : BitVec 6} (d : Nat) (h : nd.quiet r) :
    nd.regValue r d = (if r = nd.par.regMagic then nd.par.magicValue else nd.reg r,
      if r ≠ nd.par.regMagic ∧ r = 0 then nd.setReg 0 (nd.reg 0 &&& ~~~nd.par.childMask) else nd) := by
  unfold Node.regValue
  by_cases hm : r = nd.par.regMagic
  · rw [if_pos hm, if_pos hm, if_neg fun h => h.1 hm]
  rw [if_neg hm, if_neg hm]
  by_cases h0 : r = 0
  · rw [if_pos h0, if_pos ⟨hm, h0⟩, setChanged_and, h0]
  have hkept : ¬ (r ≠ nd.par.regMagic ∧ r = 0) := fun hclear => h0 hclear.2
  rw [if_neg h0, if_neg hkept]
  by_cases hcu : r = nd.par.regCtrl ∨ r = nd.par.regUnlock
  · rw [if_pos hcu]
  · obtain ⟨hc, hu⟩ := not_or.1 hcu
    rw [if_neg hcu, Node.appRegRead, storage_of_quiet h h0 hm hc hu]

theorem regValue_of_not_quiet {nd : Node} {r : BitVec 6} (d : Nat) (h : ¬ nd.quiet r) :
    nd.regValue r d = (Config.freeByte d 64, nd.redrawApp d) := by
  obtain ⟨h0, hm, hc, hu, hfree⟩ := not_quiet h
  rw [Node.regValue, if_neg hm, if_neg h0, if_neg (not_or.2 ⟨hc, hu⟩), Node.appRegRead, hfree]

/-- What a register read leaves in a register, `REG_CHANGED` and the collaborator's own apart where it is free (R187). -/
theorem regValue_reg {nd : Node} {r r' : BitVec 6} (d : Nat) (h : (nd.par.coreOwned r' = true ∧ r' ≠ 0) ∨ nd.quiet r) :
    (nd.regValue r d).2.reg r' =
      if r ≠ nd.par.regMagic ∧ r = 0 ∧ r' = 0 then nd.reg 0 &&& ~~~nd.par.childMask else nd.reg r' := by
  by_cases hq : nd.quiet r
  · rw [regValue_of_quiet d hq]
    by_cases hclear : r ≠ nd.par.regMagic ∧ r = 0
    · simp only [if_pos hclear, reg_setReg, ← and_assoc, and_iff_right hclear]
    · simp only [if_neg hclear, ← and_assoc, if_neg fun h => hclear (And.left h)]
  · obtain ⟨hcore, h0'⟩ := h.resolve_right hq
    obtain ⟨h0, -⟩ := not_quiet hq
    rw [regValue_of_not_quiet d hq, if_neg fun h => h0 h.2.1]
    exact redrawApp_reg d hcore h0'

/-- Only a read of `REG_CHANGED` clears its `CHILD` bit (R187). -/
theorem regValue_childBit {nd : Node} {r : BitVec 6} (d : Nat) (h : r ≠ 0) :
    (nd.regValue r d).2.reg 0 &&& nd.par.childMask = nd.reg 0 &&& nd.par.childMask := by
  by_cases hq : nd.quiet r
  · rw [regValue_reg d (.inr hq), if_neg fun hclear => h hclear.2.1]
  · rw [regValue_of_not_quiet d hq]
    exact (redrawApp_changed nd d).1

/-- A quiet read changes registers alone. -/
theorem regValue_regs_only {nd : Node} {r : BitVec 6} (d : Nat) (h : nd.quiet r) :
    ∃ rs, (nd.regValue r d).2 = { nd with regs := rs } := by
  rw [regValue_of_quiet d h]
  dsimp only
  split <;> exact ⟨_, rfl⟩

theorem regValue_requests (nd : Node) (r : BitVec 6) (d : Nat) :
    (nd.regValue r d).2.rebootReq = nd.rebootReq ∧ (nd.regValue r d).2.hfe = nd.hfe := by
  by_cases hq : nd.quiet r
  · obtain ⟨rs, heq⟩ := regValue_regs_only d hq
    rw [heq]
    exact ⟨rfl, rfl⟩
  · rw [regValue_of_not_quiet d hq]
    exact ⟨redrawApp_rebootReq nd d, redrawApp_hfe nd d⟩

/-! ### Register writes -/

theorem regStore_discarded {nd : Node} {r : BitVec 6} (v : Byte) (d : Nat) (h : r = 0 ∨ r = nd.par.regMagic) :
    nd.regStore r v d = nd := by
  rw [Node.regStore, if_pos h]

theorem regStore_of_quiet {nd : Node} {r : BitVec 6} (v : Byte) (d : Nat) (h : nd.quiet r) :
    nd.regStore r v d =
      if r = 0 ∨ r = nd.par.regMagic then nd
      else if r = nd.par.regCtrl ∧ r ≠ nd.par.regUnlock then (nd.setReg r v).ctrlWrite v else nd.setReg r v := by
  unfold Node.regStore
  by_cases hd : r = 0 ∨ r = nd.par.regMagic
  · rw [if_pos hd, if_pos hd]
  obtain ⟨h0, hm⟩ := not_or.1 hd
  rw [if_neg hd, if_neg hd]
  by_cases hu : r = nd.par.regUnlock
  · rw [if_pos hu, if_neg fun h => h.2 hu]
  rw [if_neg hu]
  by_cases hc : r = nd.par.regCtrl
  · rw [if_pos hc, if_pos ⟨hc, hu⟩]
  · rw [if_neg hc, if_neg fun h => hc h.1, Node.appRegWrite, storage_of_quiet h h0 hm hc hu]

theorem regStore_of_not_quiet {nd : Node} {r : BitVec 6} (v : Byte) (d : Nat) (h : ¬ nd.quiet r) :
    nd.regStore r v d = nd.redrawApp d := by
  obtain ⟨h0, hm, hc, hu, hfree⟩ := not_quiet h
  rw [Node.regStore, if_neg (not_or.2 ⟨h0, hm⟩), if_neg hu, if_neg hc, Node.appRegWrite, hfree]

/-- A write of `REG_CTRL` leaves the registers as stored (R188). -/
theorem ctrlWrite_regs (nd : Node) (v : Byte) : (nd.ctrlWrite v).regs = nd.regs := by
  obtain ⟨rr, rs, heq⟩ := ctrlWrite_eq nd v
  rw [heq]

theorem ctrlWrite_rebootReq (nd : Node) (v : Byte) : (nd.ctrlWrite v).rebootReq =
    if v = nd.par.ctrlSwitch then .switch else if v = nd.par.ctrlReboot then .keep else nd.rebootReq := by
  simp only [Node.ctrlWrite, apply_ite Node.rebootReq, apply_ite Node.par, ite_self]

theorem ctrlWrite_resurrectReq (nd : Node) (v : Byte) : (nd.ctrlWrite v).hfe.resurrectReq = true ↔
    nd.hfe.resurrectReq = true ∨ v = nd.par.ctrlResurrect ∧ nd.hubCapable = true := by
  simp only [Node.ctrlWrite, Node.hubCapable, apply_ite Node.hfe, apply_ite Node.par, apply_ite Node.ident, ite_self]
  split
  · rename_i h
    exact iff_of_true rfl (.inr h)
  · rename_i h
    rw [or_iff_left h]

/-- What a register write leaves in a register, `REG_CHANGED` and the collaborator's own apart where it is free (R188). -/
theorem regStore_reg {nd : Node} {r r' : BitVec 6} (v : Byte) (d : Nat)
    (h : (nd.par.coreOwned r' = true ∧ r' ≠ 0) ∨ nd.quiet r) :
    (nd.regStore r v d).reg r' = if r' = r ∧ r ≠ 0 ∧ r ≠ nd.par.regMagic then v else nd.reg r' := by
  by_cases hq : nd.quiet r
  · rw [regStore_of_quiet v d hq]
    by_cases hd : r = 0 ∨ r = nd.par.regMagic
    · rw [if_pos hd, if_neg fun hstore => hd.elim hstore.2.1 hstore.2.2]
    · have hstored : (nd.setReg r v).reg r' = if r' = r ∧ r ≠ 0 ∧ r ≠ nd.par.regMagic then v else nd.reg r' := by
        simp only [reg_setReg, and_iff_left (not_or.1 hd)]
      rw [if_neg hd]
      split
      · rw [Node.reg, ctrlWrite_regs]
        exact hstored
      · exact hstored
  · obtain ⟨hcore, h0'⟩ := h.resolve_right hq
    have hother : r' ≠ r := fun he => hq (.inl (he ▸ hcore))
    rw [regStore_of_not_quiet v d hq, if_neg fun hstore => hother hstore.1]
    exact redrawApp_reg d hcore h0'

/-- No register write changes the `CHILD` bit (R37, R188). -/
theorem regStore_childBit (nd : Node) (r : BitVec 6) (v : Byte) (d : Nat) :
    (nd.regStore r v d).reg 0 &&& nd.par.childMask = nd.reg 0 &&& nd.par.childMask := by
  by_cases hq : nd.quiet r
  · rw [regStore_reg v d (.inr hq), if_neg fun hstore => hstore.2.1 hstore.1.symm]
  · rw [regStore_of_not_quiet v d hq]
    exact (redrawApp_changed nd d).1

/-- A quiet write changes registers and requests alone. -/
theorem regStore_regs_only {nd : Node} {r : BitVec 6} (v : Byte) (d : Nat) (h : nd.quiet r) :
    ∃ rs rr f, nd.regStore r v d = { nd with regs := rs, rebootReq := rr, hfe := f } := by
  rw [regStore_of_quiet v d h]
  split
  · exact ⟨_, _, _, rfl⟩
  · split
    · obtain ⟨rr, rs, heq⟩ := ctrlWrite_eq (nd.setReg r v) v
      exact ⟨_, _, _, heq⟩
    · exact ⟨_, _, _, rfl⟩

/-- Only a write of `REG_CTRL` makes requests (R188). -/
theorem regStore_requests_other {nd : Node} {r : BitVec 6} (v : Byte) (d : Nat) (h : r ≠ nd.par.regCtrl) :
    (nd.regStore r v d).rebootReq = nd.rebootReq ∧ (nd.regStore r v d).hfe = nd.hfe := by
  by_cases hq : nd.quiet r
  · rw [regStore_of_quiet v d hq, if_neg fun hctrl => h (And.left hctrl)]
    split <;> exact ⟨rfl, rfl⟩
  · rw [regStore_of_not_quiet v d hq]
    exact ⟨redrawApp_rebootReq nd d, redrawApp_hfe nd d⟩

/-- Under the constraints of R13 a write of `REG_CTRL` is stored and makes its requests (R188). -/
theorem regStore_ctrl {nd : Node} (v : Byte) (d : Nat) (h : nd.par.wf = true) :
    nd.regStore nd.par.regCtrl v d = (nd.setReg nd.par.regCtrl v).ctrlWrite v := by
  simp only [Params.wf, Bool.and_eq_true, decide_eq_true_eq, and_assoc] at h
  obtain ⟨-, hctrl, -, hmagic, -, hunlock, -⟩ := h
  rw [Node.regStore, if_neg (not_or.2 ⟨hctrl, hmagic.symm⟩), if_neg hunlock, if_pos rfl]

/-! ### Side effects and frames -/

theorem redrawApp_sideEffects {nd : Node} {r : BitVec 6} (d : Nat) (h : ¬ nd.quiet r) : nd.sideEffects (nd.redrawApp d) r := by
  obtain ⟨-, hkept, hrise⟩ := redrawApp_changed nd d
  exact ⟨redrawApp_progPending nd d, redrawApp_progBuf nd d, fun a ha => redrawApp_readByte d (ha.resolve_right h), hkept,
    hrise, fun hq => absurd hq h⟩

/-- A change of registers and requests is no change of memory and of the latch, where no bit of `REG_CHANGED` rises. -/
theorem sideEffects_of_regs_only {nd nd' : Node} {rs : Vector Byte 64} {rr : RebootReq} {f : Hfe} (r : BitVec 6)
    (h : nd' = { nd with regs := rs, rebootReq := rr, hfe := f }) (hrise : nd.risesNotify nd') : nd.sideEffects nd' r := by
  subst h
  exact ⟨rfl, rfl, fun _ _ => rfl, id, hrise, fun _ => rfl⟩

theorem regValue_sideEffects (nd : Node) (r : BitVec 6) (d : Nat) : nd.sideEffects (nd.regValue r d).2 r := by
  by_cases hq : nd.quiet r
  · obtain ⟨rs, heq⟩ := regValue_regs_only d hq
    exact sideEffects_of_regs_only r heq (regValue_risesNotify nd r d)
  · rw [regValue_of_not_quiet d hq]
    exact redrawApp_sideEffects d hq

theorem regStore_sideEffects (nd : Node) (r : BitVec 6) (v : Byte) (d : Nat) : nd.sideEffects (nd.regStore r v d) r := by
  by_cases hq : nd.quiet r
  · obtain ⟨rs, rr, f, heq⟩ := regStore_regs_only v d hq
    exact sideEffects_of_regs_only r heq (regStore_risesNotify nd r v d)
  · rw [regStore_of_not_quiet v d hq]
    exact redrawApp_sideEffects d hq

/-- An access leaves all that is not registers, memory, PPE, HFE and latches (R36, R49). -/
theorem Node.Access.sameRest {nd mid : Node} (h : nd.Access mid) : nd.sameRest mid := by
  have hfixed := h.fixed_eq
  simp only [Node.fixed, Fixed.mk.injEq] at hfixed
  obtain ⟨hseg, hpar, hcollab, hident, hkey⟩ := hfixed
  exact ⟨hseg, hpar, hcollab, hident, hkey, h.execHalf, h.sameEngines.cfg, h.sameEngines.sec⟩

/-! ### The obligations of the register requests -/

/-- Settles O18: the rule's value, published, and the registers as `regValue_reg` says. -/
theorem regReadResult : Obligations.RegReadResult := by
  intro reg s nd hs
  obtain ⟨t, q, ht, honly, hpub⟩ := exec_published (i := .regRead reg) hs (packageReply_value _)
  refine ⟨t, _, _, ht, honly, hpub, fun hm => ?_, fun hm hq => ?_, fun r hr => regValue_reg s.draws hr,
    fun h0 => regValue_childBit s.draws h0⟩
  · rw [Node.regValue, if_pos hm]
  · rw [regValue_of_quiet s.draws hq]
    exact if_neg hm

/-- Settles O19: a read is one access, with the side effects of `regValue_sideEffects`. -/
theorem regReadFrame : Obligations.RegReadFrame := by
  intro reg s t nd hn ht
  obtain ⟨q, honly⟩ := exec_next_onlyNode hn ht
  obtain ⟨hreboot, hhfe⟩ := regValue_requests nd reg s.draws
  refine ⟨_, honly, (Node.Access.regRead reg s.draws).sameRest, hreboot, hhfe, regValue_sideEffects nd reg s.draws,
    fun r h0 hr => ?_, fun h0 => ⟨regValue_childBit s.draws h0, fun hq => ?_⟩⟩
  · exact (regValue_reg s.draws (hr.imp_left fun hcore => ⟨hcore, h0⟩)).trans (if_neg fun h => h0 h.2.2)
  · exact (regValue_reg s.draws (.inr hq)).trans (if_neg fun h => h0 h.2.1)

/-- Settles O20: `[ok]` published, the registers as `regStore_reg` says, and the requests of `REG_CTRL`. -/
theorem regWriteResult : Obligations.RegWriteResult := by
  intro reg value s nd hs hwf
  obtain ⟨t, q, ht, honly, hpub⟩ := exec_published (i := .regWrite reg value) hs packageReply_ok
  refine ⟨t, _, ht, honly, hpub, fun r hr => regStore_reg value s.draws hr, regStore_childBit nd reg value s.draws, ?_⟩
  dsimp only [serviceRule]
  by_cases hc : reg = nd.par.regCtrl
  · subst hc
    rw [regStore_ctrl value s.draws hwf, ctrlWrite_rebootReq, ctrlWrite_resurrectReq]
    simp only [true_and]
    exact ⟨rfl, .rfl⟩
  · obtain ⟨hreboot, hhfe⟩ := regStore_requests_other value s.draws hc
    simp only [hreboot, hhfe, hc, false_and, if_false, or_false, and_self]

/-- Settles O21: a write is one access, with the side effects of `regStore_sideEffects`. -/
theorem regWriteFrame : Obligations.RegWriteFrame := by
  intro reg value s t nd hn ht
  obtain ⟨q, honly⟩ := exec_next_onlyNode hn ht
  have haccess : nd.Access (nd.regStore reg value s.draws) := .regWrite reg value s.draws
  obtain ⟨rs, hhfe, -⟩ := haccess.sameEngines.hfe
  refine ⟨_, honly, haccess.sameRest, regStore_sideEffects nd reg value s.draws, ?_,
    regStore_requests_other value s.draws, fun r hne hr => ?_, regStore_childBit nd reg value s.draws, fun hd => ?_⟩
  · dsimp only [serviceRule]
    rw [hhfe]
  · exact (regStore_reg value s.draws hr).trans (if_neg fun hstore => hne hstore.1)
  · have hkept : (nd.regStore reg value s.draws).regs = nd.regs := by rw [regStore_discarded value s.draws hd]
    exact hkept

end Sys2Proof.Machine

/-! SUPPORT. The bus (42_bus.md): what the controller of a segment receives (R223 to R225), what its event does to the network
(R222, R227, R229), and the host's event on a held and on a free primary segment (R226, R240). -/

namespace Sys2Proof.Machine

/-! ### The combined response -/

/-- A wire reads high where it started high and every driver leaves it high (R225). -/
theorem getLsbD_foldl_and (drivers : List Node) (v : Byte) (j : Nat) :
    (drivers.foldl (fun v nd => v &&& nd.ppe.shift) v).getLsbD j = true ↔
      v.getLsbD j = true ∧ ∀ nd ∈ drivers, nd.ppe.shift.getLsbD j = true := by
  induction drivers generalizing v with
  | nil => simp
  | cons nd drivers ih => rw [List.foldl_cons, ih, BitVec.getLsbD_and, Bool.and_eq_true, List.forall_mem_cons, and_assoc]

theorem getLsbD_released {j : Nat} (hj : j < 8) : (0xFF : Byte).getLsbD j = true := by
  decide +revert

theorem any_targets {s : State} {k : SegId} {f : Node → Bool} :
    (s.targets k).any f = true ↔ ∃ nd ∈ s.nodes, nd.seg = k ∧ f nd = true := by
  simp only [List.any_eq_true, mem_targets, and_assoc]

/-- The address acknowledge is the OR over the targets (R223). -/
theorem response_addr (s : State) (k : SegId) (a : BitVec 7) (rw : Bool) :
    ∃ ack, s.response k (.addr a rw) = some (.addrAck ack) ∧
      (ack = true ↔ ∃ nd ∈ s.nodes, nd.seg = k ∧ nd.ppe.st = .addressing ∧ nd.matches a = true) :=
  ⟨_, rfl, by simp only [any_targets, Bool.and_eq_true, beq_iff_eq]⟩

/-- The data acknowledge is the OR over the targets (R224). -/
theorem response_wbyte (s : State) (k : SegId) (b : Byte) :
    ∃ ack, s.response k (.wbyte b) = some (.dataAck ack) ∧
      (ack = true ↔ ∃ nd ∈ s.nodes, nd.seg = k ∧ nd.ppe.st = .receiving) :=
  ⟨_, rfl, by simp only [any_targets, beq_iff_eq]⟩

/-- A read byte is the AND over the sending targets (R225). -/
theorem response_rbyte (s : State) (k : SegId) :
    ∃ v : Byte, s.response k .rbyte = some (.byte v) ∧ ∀ j, j < 8 → (v.getLsbD j = true ↔
      ∀ nd ∈ s.nodes, nd.seg = k → nd.ppe.st = .sending → nd.ppe.shift.getLsbD j = true) := by
  refine ⟨_, rfl, fun j hj => ?_⟩
  rw [getLsbD_foldl_and, and_iff_right (getLsbD_released hj)]
  simp only [List.mem_filter, mem_targets, beq_iff_eq, and_imp]

/-! ### The joint transition -/

@[simp] theorem edgeOn_sec (nd : Node) (k : SegId) (e : BusEvent) : (nd.edgeOn k e).sec = nd.sec := by
  unfold Node.edgeOn
  split <;> simp

theorem setPhase_primary_other (s : State) {k : SegId} (q : BusPhase) (h : k ≠ .primary) :
    (s.setPhase k q).primary = s.primary := by
  cases k with
  | primary => exact absurd rfl h
  | sub i => rfl

/-- An event of the grammar occurs where it reaches every target of the segment in a cell of R261 that is not "n/a". -/
theorem emit_of_applies {s : State} {k : SegId} {e : BusEvent} {q : BusPhase} (hn : (s.phase k).next e = some q)
    (happ : ∀ nd ∈ s.nodes, nd.seg = k → edgeApplies nd.ppe.st e = true) :
    s.emit k e = .ok ((s.edgeAll k e).setPhase k q, s.response k e) := by
  refine emit_ok_iff.2 ⟨q, hn, List.all_eq_true.2 fun nd hm => ?_, rfl, rfl⟩
  obtain ⟨hmem, hseg⟩ := mem_targets.1 hm
  exact happ nd hmem hseg

/-- In a coherent network an event of the grammar occurs on every segment that is not held (R226, R228). -/
theorem emit_of_coherent {s : State} {k : SegId} {e : BusEvent} {q : BusPhase} (hs : s.coherent = true)
    (hfree : s.held k = false) (hn : (s.phase k).next e = some q) :
    s.emit k e = .ok ((s.edgeAll k e).setPhase k q, s.response k e) := by
  refine emit_of_segOk hn (fun nd hm => ?_) (flowing_of_not_held hfree)
  obtain ⟨hmem, hseg⟩ := mem_targets.1 hm
  obtain ⟨-, -, hfit⟩ := coherent_node hs hmem
  rwa [hseg] at hfit

/-! ### The host's event -/

@[simp] theorem advance_held (s : State) (k : SegId) : s.advance.held k = s.held k := by
  cases k <;> rfl

@[simp] theorem advance_response (s : State) (k : SegId) (e : BusEvent) : s.advance.response k e = s.response k e := by
  cases e <;> rfl

theorem held_of_stalled {s : State} {nd : Node} {k : SegId} (hm : nd ∈ s.nodes) (hseg : nd.seg = k)
    (hst : nd.ppe.st = .sendingStalled) : s.held k = true :=
  Bool.or_eq_true_iff.2 (.inl (any_targets.2 ⟨nd, hm, hseg, beq_iff_eq.2 hst⟩))

theorem hostEvent_held {s : State} (e : BusEvent) (h : s.held .primary = true) : s.hostEvent e = .ok s :=
  if_pos h

theorem hostEvent_refused {s : State} {e : BusEvent} (hfree : s.held .primary = false) (hn : s.primary.next e = none) :
    s.hostEvent e = .error (.refused .busGrammar) := by
  have hout : s.emit .primary e = .error (.refused .busGrammar) := emit_refused hn
  simp only [State.hostEvent, hfree, hout, Bool.false_eq_true, if_false]

theorem hostEvent_occurs {s t : State} {e : BusEvent} {r : Option Obs} (hfree : s.held .primary = false)
    (hout : s.emit .primary e = .ok (t, r)) : s.hostEvent e = .ok { t with hostLog := r.toList ++ t.hostLog } := by
  simp only [State.hostEvent, hfree, hout, Bool.false_eq_true, if_false]

/-! ### The obligations of the bus -/

/-- Settles O57: a step of a coherent state is answered or is the host's refused event (`step_of_coherent`). -/
theorem onlyHostEventsRefused : Obligations.OnlyHostEventsRefused := by
  intro s r hs hr
  rcases step_of_coherent hs with ⟨t, ht⟩ | ⟨e, ha, hn, hrefused⟩
  · exact absurd (ht.symm.trans hr) (by simp)
  · exact ⟨Host.Outcome.refused.inj (hr.symm.trans hrefused), e, ha, hn⟩

/-- Settles O39: a stalled target holds the segment; on a free one of a coherent network the event is the joint transition. -/
theorem heldSegmentBlocksHost : Obligations.HeldSegmentBlocksHost := by
  refine ⟨fun s e nd hr ha hm hseg hst => ?_, fun s e p hs ha hfree hn => ?_⟩
  · have hheld : s.advance.held .primary = true :=
      (advance_held s _).trans (held_of_stalled hm hseg hst)
    rw [step_of_action hr ha, State.perform, hostEvent_held e hheld, res_out_ok]
  · rw [← advance_held] at hfree
    have hout := emit_of_coherent (e := e) (q := p) (coherent_advance hs) hfree hn
    rw [step_of_action (coherent_r54 hs) ha, State.perform, hostEvent_occurs hfree hout, advance_response]
    rfl

/-- Settles O41: the three combined responses, and the joint transition node by node (`emit_node`). -/
theorem combinedResponses : Obligations.CombinedResponses := by
  refine ⟨fun s k a rw b => ⟨response_addr s k a rw, response_wbyte s k b, response_rbyte s k⟩,
    fun s k e p hn happ hk => ?_⟩
  refine ⟨_, emit_of_applies hn happ, setPhase_phase_self p (by simpa using hk), by simp, by simp, by simp, by simp, by simp,
    fun hne => setPhase_primary_other _ p hne, by simp, fun j nd hnd => ?_⟩
  have hlt : j < ((s.edgeAll k e).setPhase k p).nodes.length := by simpa using (List.getElem?_eq_some_iff.1 hnd).1
  have hx := List.getElem?_eq_getElem hlt
  obtain ⟨y, q, hy, heq, hother⟩ := emit_node hx
  obtain rfl : nd = y := Option.some.inj (hnd.symm.trans hy)
  refine ⟨_, hx, ?_, fun hne => ?_⟩
  · rw [heq]; rfl
  · rw [hother hne, edgeOn_sec]

/-- Settles O40: `emit` refuses for every controller, and the host's step passes the refusal on (R229). -/
theorem eventOutsideGrammarRefused : Obligations.EventOutsideGrammarRefused := by
  refine ⟨fun s k e => emit_refused, fun s e hr ha hfree hn => ?_⟩
  rw [← advance_held] at hfree
  rw [step_of_action hr ha, State.perform, hostEvent_refused hfree hn, res_out_refused]

end Sys2Proof.Machine

/-! SUPPORT. An answered reply and the request it answers over one step (R293, R102): only a start condition and the clear
step empty the buffers, both of a drained node, and every other way to write them asks for a reply that is not final. The
start condition of a hub's step is its first event on its segment, so an undrained answer outlives the later events too. -/

namespace Sys2Proof.Machine

/-! ### Answers, node by node -/

/-- The PPE holds the final reply `rep` to the request `req` (R42, R290). -/
structure Ppe.Answered (p : Ppe) (rep req : List Byte) : Prop where
  final  : p.repFinal = true
  status : p.reqSt = .answered
  rep_eq : p.repBytes = rep
  req_eq : p.reqBytes = req

/-- What `p` had answered, `q` has answered, in the same bytes. -/
def Ppe.KeepsAnswer (p q : Ppe) : Prop := ∀ rep req, p.Answered rep req → q.Answered rep req

theorem Ppe.KeepsAnswer.refl (p : Ppe) : p.KeepsAnswer p := fun _ _ h => h

theorem Ppe.KeepsAnswer.trans {p q r : Ppe} (h : p.KeepsAnswer q) (h' : q.KeepsAnswer r) : p.KeepsAnswer r :=
  fun rep req ha => h' rep req (h rep req ha)

theorem keepsAnswer_of_eq {p q : Ppe} (h : q = p) : p.KeepsAnswer q := h ▸ .refl p

theorem keepsAnswer_of_not_final {p q : Ppe} (h : p.repFinal ≠ true) : p.KeepsAnswer q := fun _ _ ha => absurd ha.final h

/-- A final reply is only read, past its end with the filler (R265). -/
theorem loadNext_keepsAnswer (nd : Node) : nd.ppe.KeepsAnswer nd.loadNext.ppe := by
  intro rep req h
  simp only [Node.loadNext]
  split
  · exact { h with }
  · rw [if_pos h.final]
    exact { h with }

/-- A request that is answered takes no more bytes (R264). -/
theorem accept_keepsAnswer (p : Ppe) (b : Byte) : p.KeepsAnswer (p.accept b) := by
  intro rep req h
  rw [Ppe.accept, if_neg (by simp [h.status])]
  exact h

theorem onStart_keepsAnswer {nd : Node} (hd : nd.ppe.drained = false) : nd.ppe.KeepsAnswer nd.onStart.ppe := by
  intro rep req h
  simp only [Node.onStart, hd, Bool.false_eq_true, if_false]
  exact { h with }

theorem onAddr_keepsAnswer (nd : Node) (a : BitVec 7) (rw : Bool) : nd.ppe.KeepsAnswer (nd.onAddr a rw).ppe := by
  intro rep req h
  unfold Node.onAddr
  split <;> exact { h with }

theorem onAddrAckEnd_keepsAnswer (nd : Node) : nd.ppe.KeepsAnswer nd.onAddrAckEnd.ppe := by
  unfold Node.onAddrAckEnd
  split
  · exact loadNext_keepsAnswer nd
  · exact fun _ _ h => { h with }

theorem onReadAckEnd_keepsAnswer (nd : Node) : nd.ppe.KeepsAnswer nd.onReadAckEnd.ppe := by
  unfold Node.onReadAckEnd
  split
  · exact loadNext_keepsAnswer nd
  · exact fun _ _ h => { h with }

/-- The edge handler keeps an answer, but for a start at a drained node (R266). -/
theorem edge_keepsAnswer {nd : Node} {e : BusEvent} (hs : e ≠ .start ∨ nd.ppe.drained = false) :
    nd.ppe.KeepsAnswer (nd.edge e).ppe := by
  unfold Node.edge
  split
  · exact .refl _
  cases e with
  | start => exact onStart_keepsAnswer (hs.resolve_left fun hne => hne rfl)
  | stop => exact fun _ _ h => { h with }
  | addr a rw =>
    dsimp only
    split
    · exact onAddr_keepsAnswer nd a rw
    · exact .refl _
  | wbyte b =>
    dsimp only
    split
    · exact (accept_keepsAnswer nd.ppe b).trans fun _ _ h => { h with }
    · exact .refl _
  | ackEnd =>
    dsimp only
    split
    · exact onAddrAckEnd_keepsAnswer nd
    · split
      · exact onReadAckEnd_keepsAnswer nd
      · exact .refl _
  | sclLow | rbyte | mack k =>
    dsimp only
    split
    · exact fun _ _ h => { h with }
    · exact .refl _
  | notify => exact .refl _

/-- A commit that answers found no final reply (R290). -/
theorem commit_keepsAnswer {nd nd' : Node} {rep : List Byte} (h : nd.commit rep = .ok nd') : nd.ppe.KeepsAnswer nd'.ppe :=
  keepsAnswer_of_not_final fun hF => by simp [commit_twice rep (.inl hF)] at h

theorem commitPartial_keepsAnswer {nd nd' : Node} {bs : List Byte} {last : Bool} (h : nd.commitPartial bs last = .ok nd') :
    nd.ppe.KeepsAnswer nd'.ppe :=
  keepsAnswer_of_not_final fun hF => by simp [Node.commitPartial, hF] at h

/-! ### Answers of the network -/

/-- Every node keeps its answer. -/
def State.keepsAnswers (s t : State) : Prop := s.nodewise (fun nd nd' => nd.ppe.KeepsAnswer nd'.ppe) t

/-- Every node keeps its undrained answer. -/
def State.keepsUndrained (s t : State) : Prop :=
  s.nodewise (fun nd nd' => nd.ppe.drained = false → nd.ppe.KeepsAnswer nd'.ppe) t

theorem State.keepsAnswers.trans {s t u : State} (hst : s.keepsAnswers t) (htu : t.keepsAnswers u) : s.keepsAnswers u :=
  (State.nodewise.comp hst htu).mono fun _ _ ⟨_, h, h'⟩ => h.trans h'

theorem State.keepsUndrained.trans {s t u : State} (hst : s.keepsUndrained t) (htu : t.keepsAnswers u) :
    s.keepsUndrained u :=
  (State.nodewise.comp hst htu).mono fun _ _ ⟨_, h, h'⟩ hd => (h hd).trans h'

theorem State.keepsAnswers.undrained {s t : State} (h : s.keepsAnswers t) : s.keepsUndrained t := h.mono fun _ _ hk _ => hk

theorem keepsAnswers_of_nodes_eq {s t : State} (h : t.nodes = s.nodes) : s.keepsAnswers t := .of_nodes_eq (fun _ => .refl _) h

theorem modNode_keepsAnswers (s : State) (i : Nat) {f : Node → Node} (h : ∀ nd : Node, nd.ppe.KeepsAnswer (f nd).ppe) :
    s.keepsAnswers (s.modNode i f) :=
  .modNode (fun _ => .refl _) h

theorem setNode_keepsAnswers {s : State} {i : Nat} {nd nd' : Node} (hn : s.nodes[i]? = some nd)
    (h : nd.ppe.KeepsAnswer nd'.ppe) : s.keepsAnswers (s.setNode i nd') :=
  .setNode (fun _ => .refl _) hn h

theorem modHfe_keepsAnswers (s : State) (i : Nat) (f : Hfe → Hfe) : s.keepsAnswers (s.modNode i fun nd => nd.withHfe f) :=
  modNode_keepsAnswers s i fun _ => .refl _

/-- The PPEs after a controller's event: the edge handler's on the segment, and else as they were (R222). -/
theorem emit_ppe {s t : State} {k : SegId} {e : BusEvent} {r : Option Obs} (h : s.emit k e = .ok (t, r)) :
    s.nodewise (fun nd nd' => nd'.ppe = (nd.edgeOn k e).ppe) t := by
  obtain ⟨q, -, -, rfl, -⟩ := emit_ok_iff.1 h
  refine ⟨by simp, fun i nd nd' hn hn' => ?_⟩
  obtain ⟨y, q', hy, rfl, -⟩ := emit_node hn'
  obtain rfl : nd = y := Option.some.inj (hn.symm.trans hy)
  rfl

theorem edgeOn_keepsAnswer {nd : Node} (k : SegId) {e : BusEvent} (hs : e ≠ .start ∨ nd.ppe.drained = false) :
    nd.ppe.KeepsAnswer (nd.edgeOn k e).ppe := by
  unfold Node.edgeOn
  split
  · exact edge_keepsAnswer hs
  · exact .refl _

section
variable {s t : State} {k : SegId}

theorem emit_keepsAnswers {e : BusEvent} {r : Option Obs} (he : e ≠ .start) (h : s.emit k e = .ok (t, r)) :
    s.keepsAnswers t :=
  (emit_ppe h).mono fun _ _ hp => hp ▸ edgeOn_keepsAnswer k (.inl he)

theorem emit_keepsUndrained {e : BusEvent} {r : Option Obs} (h : s.emit k e = .ok (t, r)) : s.keepsUndrained t :=
  (emit_ppe h).mono fun _ _ hp hd => hp ▸ edgeOn_keepsAnswer k (.inr hd)

/-- Events without a start keep every answer. -/
theorem emitAll_keepsAnswers {es : List BusEvent} {r r' : Option Obs} (hes : .start ∉ es)
    (h : s.emitAll k es r = .ok (t, r')) : s.keepsAnswers t := by
  induction es generalizing s r with
  | nil => cases h; exact keepsAnswers_of_nodes_eq rfl
  | cons e es ih =>
    rw [State.emitAll] at h
    split at h
    · cases h
    · rename_i he
      have hne : e ≠ .start := (List.ne_of_not_mem_cons hes).symm
      exact (emit_keepsAnswers hne he).trans (ih (List.not_mem_of_not_mem_cons hes) h)

/-- A transaction is opened by one start, before all other events (R230). -/
theorem openTx_keepsUndrained {a : BitVec 7} {rw ack : Bool} (h : s.openTx k a rw = .ok (t, ack)) : s.keepsUndrained t := by
  obtain ⟨⟨u, r⟩, he, hu⟩ := except_map_ok h
  obtain ⟨rfl, -⟩ := Prod.mk.inj hu
  rw [openEvents, State.emitAll] at he
  split at he
  · cases he
  · rename_i hstart
    exact (emit_keepsUndrained hstart).trans (emitAll_keepsAnswers (by simp) he)

theorem writeByte_keepsAnswers {b : Byte} {ack : Bool} (h : s.writeByte k b = .ok (t, ack)) : s.keepsAnswers t := by
  obtain ⟨⟨u, r⟩, he, hu⟩ := except_map_ok h
  obtain ⟨rfl, -⟩ := Prod.mk.inj hu
  exact emitAll_keepsAnswers (by simp [writeEvents]) he

theorem readByte_keepsAnswers {b : Byte} {ack : Bool} (h : s.readByte k ack = .ok (t, b)) : s.keepsAnswers t := by
  obtain ⟨⟨u, r⟩, he, hu⟩ := except_map_ok h
  obtain ⟨rfl, -⟩ := Prod.mk.inj hu
  exact emitAll_keepsAnswers (by simp [readEvents]) he

theorem stopTx_keepsAnswers (h : s.stopTx k = .ok t) : s.keepsAnswers t := by
  obtain ⟨⟨u, r⟩, he, rfl⟩ := except_map_ok h
  exact emit_keepsAnswers (by simp) he

theorem commitAt_keepsAnswers {i : Nat} {rep : List Byte} (h : s.commitAt i rep = .ok t) : s.keepsAnswers t := by
  obtain ⟨nd, nd', hn, hc, rfl⟩ := commitAt_ok h
  exact setNode_keepsAnswers hn (commit_keepsAnswer hc)

theorem noDevice_keepsAnswers {h : Nat} (hd : s.noDevice h = .ok t) : s.keepsAnswers t := by
  obtain ⟨u, v, hstop, hc, rfl⟩ := noDevice_ok hd
  exact ((stopTx_keepsAnswers hstop).trans (commitAt_keepsAnswers hc)).trans (modHfe_keepsAnswers v h _)

theorem goesOn_keepsAnswers {h : Nat} {ack : Bool} {f : Hfe → Hfe} (hg : s.goesOn h ack f t) : s.keepsAnswers t := by
  rcases hg with ⟨-, rfl⟩ | ⟨-, hd⟩
  · exact modHfe_keepsAnswers s h f
  · exact noDevice_keepsAnswers hd

/-! ### The steps that are no reset -/

theorem whenNode_keepsAnswers {i : Nat} {g : Node → Bool} {act : Node → Res State} (h : s.whenNode i g act = .ok t)
    (hact : ∀ nd, s.nodes[i]? = some nd → act nd = .ok t → s.keepsAnswers t) : s.keepsAnswers t := by
  rcases whenNode_ok_cases h with rfl | ⟨nd, hn, -, h⟩
  · exact keepsAnswers_of_nodes_eq rfl
  · exact hact nd hn h

/-- The clear step is a drained node's (R283). -/
theorem clearStep_keepsUndrained {i : Nat} (h : s.clearStep i = .ok t) : s.keepsUndrained t := by
  rcases whenNode_ok_cases h with rfl | ⟨nd, hn, hd, h⟩
  · exact (keepsAnswers_of_nodes_eq rfl).undrained
  · obtain rfl := Except.ok.inj h
    exact .setNode (fun _ _ => .refl _) hn fun hd' => by simp [hd'] at hd

theorem validateStep_keepsAnswers {i : Nat} (h : s.validateStep i = .ok t) : s.keepsAnswers t := by
  rcases whenNode_ok_cases h with rfl | ⟨nd, hn, hg, h⟩
  · exact keepsAnswers_of_nodes_eq rfl
  · split at h
    · obtain ⟨hreq, -⟩ : nd.ppe.reqSt = .unchecked ∧ nd.childCycle = false := by simpa [Node.validateEnabled] using hg
      obtain rfl := Except.ok.inj h
      exact setNode_keepsAnswers hn fun _ _ ha => absurd (ha.status.symm.trans hreq) nofun
    · exact commitAt_keepsAnswers h

/-- A service leaves the PPE to its commit (R180). -/
theorem serviceStep_keepsAnswers {i : Nat} (h : s.serviceStep i = .next t) : s.keepsAnswers t := by
  rcases serviceStep_next h with rfl | ⟨nd, f, -, -, hserve, hacc⟩
  · exact keepsAnswers_of_nodes_eq rfl
  · obtain ⟨x, hx, hc⟩ := serve_next hserve
    have hset : ({ s with cur := i } : State).keepsAnswers ((({ s with cur := i } : State).setNode i (f x s.draws).2).draw) :=
      setNode_keepsAnswers hx (keepsAnswer_of_eq (hacc x).sameEngines.ppe)
    exact hset.trans (commitAt_keepsAnswers hc)

theorem notifyEnd_keepsAnswers {i : Nat} (h : s.notifyEnd i = .ok t) : s.keepsAnswers t :=
  whenNode_keepsAnswers h fun nd _ h => by
    obtain rfl := Except.ok.inj h
    have hseen : s.keepsAnswers (s.notifyController nd.seg) := by
      cases nd.seg with
      | primary => exact keepsAnswers_of_nodes_eq rfl
      | sub j => exact modNode_keepsAnswers s j fun _ => .refl _
    exact hseen.trans (modNode_keepsAnswers _ i fun _ _ _ ha => { ha with })

theorem hostEvent_keepsUndrained {e : BusEvent} (h : s.hostEvent e = .ok t) : s.keepsUndrained t := by
  unfold State.hostEvent at h
  split at h
  · exact Except.ok.inj h ▸ (keepsAnswers_of_nodes_eq rfl).undrained
  · split at h
    · cases h
    · rename_i u r he
      obtain rfl := Except.ok.inj h
      exact (emit_keepsUndrained he).trans (keepsAnswers_of_nodes_eq rfl)

theorem openStep_keepsUndrained {h : Nat} {envLocked : Bool} (ht : s.openStep h envLocked = .ok t) : s.keepsUndrained t := by
  rcases openStep_ok ht with rfl | ⟨nd, -, -, ⟨-, hc⟩ | ⟨-, u, ack, htx, hgo⟩⟩
  · exact (keepsAnswers_of_nodes_eq rfl).undrained
  · exact ((modHfe_keepsAnswers s h _).trans (commitAt_keepsAnswers hc)).undrained
  · have hmark : s.nodewise (fun x y => y.ppe = x.ppe) (s.modNode h fun n => n.withHfe fun f => { f with fwdStarted := true }) :=
      .modNode (R := fun x y => y.ppe = x.ppe) (fun _ => rfl) fun _ => rfl
    have hopen : s.keepsUndrained u :=
      (hmark.comp (openTx_keepsUndrained htx)).mono fun _ _ ⟨_, heq, hk⟩ => heq ▸ hk
    exact hopen.trans (goesOn_keepsAnswers hgo)

theorem forwardStep_keepsAnswers {h : Nat} (ht : s.forwardStep h = .ok t) : s.keepsAnswers t := by
  rcases forwardStep_ok ht with rfl | ⟨nd, -, -, -, -, u, ack, hw, hgo⟩
  · exact keepsAnswers_of_nodes_eq rfl
  · exact (writeByte_keepsAnswers hw).trans (goesOn_keepsAnswers hgo)

theorem turnAroundStep_keepsUndrained {h : Nat} (ht : s.turnAroundStep h = .ok t) : s.keepsUndrained t := by
  rcases turnAroundStep_ok ht with rfl | ⟨nd, -, -, -, u, ack, htx, hgo⟩
  · exact (keepsAnswers_of_nodes_eq rfl).undrained
  · exact (openTx_keepsUndrained htx).trans (goesOn_keepsAnswers hgo)

theorem copyStep_keepsAnswers {h : Nat} (ht : s.copyStep h = .ok t) : s.keepsAnswers t := by
  rcases copyStep_ok ht with rfl | ⟨nd, -, -, -, last, u, b, n, n', -, hread, hu, hc, hend⟩
  · exact keepsAnswers_of_nodes_eq rfl
  · have hn' : n.ppe.KeepsAnswer n'.ppe := commitPartial_keepsAnswer (nd := n.withHfe _) hc
    have hcopy : s.keepsAnswers (u.setNode h n') := (readByte_keepsAnswers hread).trans (setNode_keepsAnswers hu hn')
    rcases hend with ⟨-, rfl⟩ | ⟨-, v, hstop, rfl⟩
    · exact hcopy
    · exact (hcopy.trans (stopTx_keepsAnswers hstop)).trans (modHfe_keepsAnswers v h _)

theorem noBusStep_keepsAnswers {h : Nat} (ht : s.noBusStep h = .ok t) : s.keepsAnswers t :=
  whenNode_keepsAnswers ht fun _ _ ht => (modHfe_keepsAnswers s h _).trans (commitAt_keepsAnswers ht)

theorem coopStep_keepsUndrained {i : Nat} {c : PpeStep} (hc : Action.isReset (some (.coop i c)) = false)
    (h : s.coopStep i c = .next t) : s.keepsUndrained t := by
  cases c with
  | clear => exact clearStep_keepsUndrained (out_next_iff.1 h)
  | reboot => cases hc
  | validate => exact (validateStep_keepsAnswers (out_next_iff.1 h)).undrained
  | service => exact (serviceStep_keepsAnswers h).undrained
  | notifyBegin =>
    refine State.keepsAnswers.undrained (whenNode_keepsAnswers (out_next_iff.1 h) fun nd hn h => ?_)
    obtain rfl := Except.ok.inj h
    exact setNode_keepsAnswers hn fun _ _ ha => { ha with }
  | notifyEnd => exact (notifyEnd_keepsAnswers (out_next_iff.1 h)).undrained

theorem hubStep_keepsUndrained {i : Nat} {c : HfeStep} (hc : Action.isReset (some (.hub i c)) = false)
    (h : s.hubStep i c = .ok t) : s.keepsUndrained t := by
  have hmod : ∀ {g : Node → Bool} (f : Hfe → Hfe) (m : Node → Node), (∀ nd, (m nd).ppe = nd.ppe) →
      s.whenNode i g (fun _ => .ok (s.modNode i fun nd => (m nd).withHfe f)) = .ok t → s.keepsUndrained t :=
    fun f m hm h => State.keepsAnswers.undrained <| whenNode_keepsAnswers h fun _ _ h =>
      Except.ok.inj h ▸ modNode_keepsAnswers s i fun nd => keepsAnswer_of_eq (hm nd)
  cases c with
  | resurrect | notified => exact hmod _ id (fun _ => rfl) h
  | flag => exact hmod _ _ (fun nd => setChanged_ppe nd _) h
  | openTx envLocked => exact openStep_keepsUndrained h
  | forward => exact (forwardStep_keepsAnswers h).undrained
  | turnAround => exact turnAroundStep_keepsUndrained h
  | copy => exact (copyStep_keepsAnswers h).undrained
  | endResurrection => cases hc
  | noBus => exact (noBusStep_keepsAnswers h).undrained

theorem perform_keepsUndrained {a : Action} (ha : Action.isReset (some a) = false)
    (h : s.perform a = .next t) : s.keepsUndrained t := by
  cases a with
  | host e => exact hostEvent_keepsUndrained (out_next_iff.1 h)
  | coop n c => exact coopStep_keepsUndrained ha h
  | hub n c => exact hubStep_keepsUndrained ha (out_next_iff.1 h)
  | collab n c =>
    obtain rfl := Host.Outcome.next.inj h
    exact (modNode_keepsAnswers s n fun nd => keepsAnswer_of_eq (collabStep_sameEngines nd c).ppe).undrained
  | powerOn n => cases ha

/-- A step that is no reset keeps every undrained answer (R293). -/
theorem step_keepsUndrained (ha : Action.isReset s.nextAction = false) (h : step s = .next t) : s.keepsUndrained t := by
  obtain ⟨-, ⟨-, rfl⟩ | ⟨a, hact, hp⟩⟩ := step_next_cases h
  · exact (keepsAnswers_of_nodes_eq rfl).undrained
  · exact perform_keepsUndrained (s := s.advance) (hact ▸ ha) hp

end

/-- Settles O37: a final reply is an answered request's (R54), and a step that is no reset keeps it while it is undrained. -/
theorem answeredReplyIsStable : Obligations.AnsweredReplyIsStable := by
  intro s t i nd hn hF hd ha ht
  obtain ⟨hr, -⟩ := step_next_cases ht
  have hst : nd.ppe.reqSt = .answered :=
    (r54_answered_iff (List.all_eq_true.1 hr nd (List.mem_of_getElem? hn))).2 hF
  obtain ⟨nd', hn', hk⟩ := (step_keepsUndrained ha ht).node_at hn
  obtain ⟨hF', hst', hrep, hreq⟩ := hk hd _ _ ⟨hF, hst, rfl, rfl⟩
  exact ⟨nd', hn', hrep, hF', hst', hreq⟩

end Sys2Proof.Machine

/-! SUPPORT. The peripheral protocol engine: its reply buffer with the commit contract (R290 to R292), the next output byte
(R265), the edge handler state by state (R266 to R281), and its clear, validate and notify steps (R283 to R286). -/

namespace Sys2Proof.Machine

/-! ### Bytes appended to a buffer -/

theorem take_putBytes {n pos : Nat} (v : Vector Byte n) (bs : List Byte) (h : pos + bs.length ≤ n) :
    (putBytes v pos bs).toList.take (pos + bs.length) = v.toList.take pos ++ bs := by
  have hpos : min pos n = pos := by omega
  apply List.ext_getElem
  · simp [hpos, h]
  · intro i h1 h2
    have hi : i < pos + bs.length := by simp at h1; omega
    by_cases hlt : i < pos
    · simp [putBytes, hpos, hlt]
    · have hle : pos ≤ i := Nat.le_of_not_lt hlt
      have hin : i - pos < bs.length := by omega
      simp [putBytes, hpos, hle, hi, hin]

/-! ### The commit contract (R290 to R292) -/

/-- Packaging refuses the lengths outside 1..18 (R159). -/
theorem packageReply_eq_none {rep : List Byte} (h : rep.length = 0 ∨ maxRep < rep.length) : packageReply rep = none := by
  cases hp : packageReply rep with
  | none => rfl
  | some bytes =>
    obtain ⟨-, h1, h18⟩ := packageReply_some hp
    omega

/-- And no length inside (R159). -/
theorem packageReply_of_length {rep : List Byte} (h1 : 1 ≤ rep.length) (h18 : rep.length ≤ maxRep) :
    ∃ bytes, packageReply rep = some bytes := by
  cases rep with
  | nil => cases h1
  | cons s payload => exact ⟨_, if_neg (Nat.not_lt.2 h18)⟩

/-- The node with reply bytes appended, before a stalled read resumes (R290, R291). -/
def Node.withBytes (nd : Node) (bs : List Byte) (last : Bool) : Node :=
  nd.withReply (putBytes nd.ppe.rep nd.ppe.repLen bs) bs.length last

theorem withBytes_repBytes {nd : Node} {bs : List Byte} (last : Bool) (h : nd.ppe.repLen + bs.length ≤ maxRep) :
    (nd.withBytes bs last).ppe.repBytes = nd.ppe.repBytes ++ bs :=
  take_putBytes nd.ppe.rep bs h

theorem commit_eq {nd : Node} {rep bytes : List Byte} (hF : nd.ppe.repFinal = false) (hL : nd.ppe.repLen = 0)
    (hp : packageReply rep = some bytes) : nd.commit rep = .ok (nd.withBytes bytes true).resume := by
  simp [Node.commit, Node.withBytes, Node.withReply, hF, hL, hp]

theorem commit_packageLength {nd : Node} {rep : List Byte} (hF : nd.ppe.repFinal = false) (hL : nd.ppe.repLen = 0)
    (h : rep.length = 0 ∨ maxRep < rep.length) : nd.commit rep = .error .packageLength := by
  simp [Node.commit, hF, hL, packageReply_eq_none h]

theorem commitPartial_overflow {nd : Node} {bs : List Byte} (last : Bool)
    (h : nd.ppe.repFinal = true ∨ maxRep < nd.ppe.repLen + bs.length) : nd.commitPartial bs last = .error .commitOverflow :=
  if_pos h

theorem commitPartial_eq {nd : Node} {bs : List Byte} (last : Bool) (hF : nd.ppe.repFinal = false)
    (h : nd.ppe.repLen + bs.length ≤ maxRep) : nd.commitPartial bs last = .ok (nd.withBytes bs last).resume := by
  rw [Node.commitPartial, if_neg (by simp only [hF, Bool.false_eq_true, false_or]; omega)]
  cases last
  · simp [Node.withBytes, Node.withReply, hF]
  · rfl

/-- Settles O27: the packaged bytes are appended to an empty reply (R290). -/
theorem commitPublishes : Obligations.CommitPublishes := by
  refine fun nd rep => ⟨commit_twice rep, fun hF hL h => commit_packageLength hF hL h, fun hF hL h1 h18 => ?_⟩
  obtain ⟨bytes, hp⟩ := packageReply_of_length h1 h18
  obtain ⟨hlen, -, -⟩ := packageReply_some hp
  have hfit : nd.ppe.repLen + bytes.length ≤ maxRep := by simp only [maxRep_eq]; omega
  refine ⟨bytes, nd.withBytes bytes true, hp, hlen, commit_eq hF hL hp, ?_, ?_⟩
  · simp [Node.withBytes, Node.withReply, hL]
  · rw [withBytes_repBytes true hfit, Ppe.repBytes, hL]
    rfl

/-- Settles O36: the bytes are appended as they are (R291), and a stalled read resumes (R292). -/
theorem commitPartialAppends : Obligations.CommitPartialAppends := fun nd bytes isFinal =>
  ⟨commitPartial_overflow isFinal, fun hF h => ⟨nd.withBytes bytes isFinal, commitPartial_eq isFinal hF h, rfl,
    withBytes_repBytes isFinal h, rfl⟩⟩

/-! ### The next output byte (R265) -/

theorem loadNext_reply {nd : Node} (h : nd.ppe.repPos < nd.ppe.repLen) :
    nd.loadNext = { nd with ppe := { nd.ppe with
      shift := nd.ppe.repBytes.getD nd.ppe.repPos 0, repPos := nd.ppe.repPos + 1, st := .sending } } := by
  have hbyte : nd.ppe.repBytes.getD nd.ppe.repPos 0 = nd.ppe.rep.toList.getD nd.ppe.repPos 0 := by
    simp [Ppe.repBytes, List.getD, h]
  rw [hbyte]
  exact if_pos h

theorem loadNext_filler {nd : Node} (h : nd.ppe.repLen ≤ nd.ppe.repPos) (hF : nd.ppe.repFinal = true) :
    nd.loadNext = { nd with ppe := { nd.ppe with shift := 0xFF, st := .sending } } := by
  simp only [Node.loadNext, if_neg (Nat.not_lt.2 h), if_pos hF]

theorem loadNext_incomplete {nd : Node} (hL : nd.ppe.repLen = 0) (hF : nd.ppe.repFinal = false)
    (hacc : nd.ppe.reqSt = .accumulating) (hc : nd.childCycle = false) :
    nd.loadNext = { nd with ppe := { nd.ppe with
      rep := putBytes nd.ppe.rep 0 [0x61], repLen := 1, repFinal := true, reqSt := .answered
      shift := 0x61, repPos := 1, st := .sending } } := by
  simp [Node.loadNext, hL, hF, hacc, hc, incompleteByte]

theorem loadNext_stall {nd : Node} (h : nd.ppe.repLen ≤ nd.ppe.repPos) (hF : nd.ppe.repFinal = false)
    (hno : nd.ppe.repLen ≠ 0 ∨ nd.ppe.reqSt ≠ .accumulating ∨ nd.childCycle = true) :
    nd.loadNext = { nd with ppe := { nd.ppe with st := .sendingStalled } } := by
  have hdefault : ¬(nd.ppe.repLen = 0 ∧ nd.ppe.reqSt = .accumulating ∧ nd.childCycle = false) := by
    rintro ⟨hL, hacc, hc⟩
    simp [hL, hacc, hc] at hno
  simp only [Node.loadNext, if_neg (Nat.not_lt.2 h), hF, if_neg hdefault, Bool.false_eq_true, if_false]

/-- Settles O29: the four branches of R265; the default error reply is one byte put into an empty buffer. -/
theorem nextOutputByte : Obligations.NextOutputByte := by
  refine fun nd => ⟨fun h _ => loadNext_reply h, loadNext_filler, fun hL hF hacc hc => ?_, loadNext_stall⟩
  rw [loadNext_incomplete hL hF hacc hc]
  exact ⟨rfl, toList_putBytes nd.ppe.rep [0x61] (by simp)⟩

/-! ### The edge handler, state by state -/

theorem edge_start {nd : Node} (h : edgeApplies nd.ppe.st .start = true) : nd.edge .start = nd.onStart := by
  simp [Node.edge, h]

theorem edge_stop {nd : Node} (h : edgeApplies nd.ppe.st .stop = true) : nd.edge .stop = nd.onStop := by
  simp [Node.edge, h]

theorem edge_addr {nd : Node} (a : BitVec 7) (rw : Bool) (h : nd.ppe.st = .addressing) :
    nd.edge (.addr a rw) = nd.onAddr a rw := by
  simp [Node.edge, edgeApplies, h]

theorem edge_wbyte {nd : Node} (b : Byte) (h : nd.ppe.st = .receiving) :
    nd.edge (.wbyte b) = { nd with ppe := { nd.ppe.accept b with st := .receivingAcknowledge } } := by
  simp [Node.edge, edgeApplies, h]

theorem edge_rbyte {nd : Node} (h : nd.ppe.st = .sending) :
    nd.edge .rbyte = { nd with ppe := { nd.ppe with st := .sendingWaitAcknowledge } } := by
  simp [Node.edge, edgeApplies, h]

theorem edge_mack {nd : Node} (k : Bool) (h : nd.ppe.st = .sendingWaitAcknowledge) :
    nd.edge (.mack k) = { nd with ppe := { nd.ppe with lastMack := k, st := .sendingCheckAcknowledge } } := by
  simp [Node.edge, edgeApplies, h]

theorem edge_ackEnd_received {nd : Node} (h : nd.ppe.st = .receivingAcknowledge) : nd.edge .ackEnd = nd.onAddrAckEnd := by
  simp [Node.edge, edgeApplies, h]

theorem edge_ackEnd_sent {nd : Node} (h : nd.ppe.st = .sendingCheckAcknowledge) : nd.edge .ackEnd = nd.onReadAckEnd := by
  simp [Node.edge, edgeApplies, h]

/-- `Idle` ignores every event but a start and a stop (R280). -/
theorem edge_idle_ignored {nd : Node} {e : BusEvent} (hst : nd.ppe.st = .idle) (h1 : e ≠ .start) (h2 : e ≠ .stop) :
    nd.edge e = nd := by
  cases e <;> simp_all [Node.edge, edgeApplies]

/-! ### A written byte (R264) -/

theorem accept_incomplete {p : Ppe} (b : Byte) (h : p.reqSt = .accumulating) :
    p.accept b = { p with
      req := putBytes p.req p.reqLen [b], reqLen := p.reqLen + 1
      reqSt := if 2 ≤ p.reqLen + 1 ∧ p.reqLen + 1 = requestSize (putBytes p.req p.reqLen [b])[1] then .unchecked
        else .accumulating } := by
  rw [Ppe.accept, if_pos h]
  by_cases hfull : 2 ≤ p.reqLen + 1 ∧ p.reqLen + 1 = requestSize (putBytes p.req p.reqLen [b])[1]
  · rw [if_pos hfull]
    exact if_pos hfull
  · rw [if_neg hfull, ← h]
    exact if_neg hfull

theorem accept_complete {p : Ppe} (b : Byte) (h : p.reqSt ≠ .accumulating) : p.accept b = p := if_neg h

/-- An incomplete request has room for a byte (R54). -/
theorem reqLen_lt_of_incomplete {p : Ppe} (hr : p.r54 = true) (h : p.reqSt = .accumulating) : p.reqLen < maxReq := by
  obtain ⟨-, -, -, hinc, -⟩ := (r54_iff p).1 hr
  have hmax : p.reqSize ≤ maxReq := requestSize_le _
  have := hinc h
  simp only [maxReq_eq] at hmax ⊢
  omega

/-- Settles O28: `accept` appends to an incomplete request and leaves any other (R264). -/
theorem writtenByteAccumulates : Obligations.WrittenByteAccumulates := by
  intro nd b hr hst
  rw [edge_wbyte b hst]
  refine ⟨rfl, fun h => by rw [accept_complete b h], fun h => ?_⟩
  have hroom : nd.ppe.reqLen + 1 ≤ 19 := reqLen_lt_of_incomplete hr h
  have hbytes := take_putBytes nd.ppe.req [b] (pos := nd.ppe.reqLen) hroom
  rw [accept_incomplete b h]
  refine ⟨hbytes, rfl, hroom, ?_, rfl, rfl⟩
  have hopcode : 1 ≤ nd.ppe.reqLen →
      (nd.ppe.reqBytes ++ [b]).getD 1 0 = (putBytes nd.ppe.req nd.ppe.reqLen [b])[1] := by
    intro h1
    rw [Ppe.reqBytes, ← hbytes]
    simp [List.getD, show 1 < nd.ppe.reqLen + 1 by omega]
  have htwo : 2 ≤ nd.ppe.reqLen + 1 ↔ 1 ≤ nd.ppe.reqLen := by omega
  simp only [ite_eq_left_iff, reduceCtorEq, imp_false, not_not, htwo]
  exact and_congr_right fun h1 => by rw [hopcode h1]

/-! ### The address phase and the starts and stops -/

/-- Settles O30: the handler of `ADDR` (R269, R270), and of the `ACK_END` that ends its acknowledge (R271, R272). -/
theorem addressPhase : Obligations.AddressPhase := by
  intro nd a rw hst
  rw [edge_addr a rw hst]
  refine ⟨fun hm => if_neg (Bool.eq_false_iff.1 hm), fun hm => ?_⟩
  rw [Node.onAddr, if_pos hm, edge_ackEnd_received rfl]
  refine ⟨rfl, rfl, ?_, fun h => ?_, fun h => ?_, rfl⟩
  · cases nd.ppe.cycAddr <;> rfl
  · simp [h]
  · simp [h]

/-- Settles O31: a start clears a drained node's buffers and no others (R266), also at the end of a pulse (R281). -/
theorem startKeepsUndrainedCycle : Obligations.StartKeepsUndrainedCycle := by
  intro nd hst
  have happ : edgeApplies nd.ppe.st .start = true := by
    simp only [List.mem_cons, List.not_mem_nil, or_false] at hst
    rcases hst with h | h | h | h | h | h <;> rw [h] <;> rfl
  rw [edge_start happ]
  refine ⟨fun hd => ?_, fun hd => ?_, ?_⟩
  · simp [Node.onStart, hd]
  · simp [Node.onStart, hd, Node.clearBuffers]
  · unfold Node.onStart
    split <;> rfl

/-- Settles O32: the states of a read byte follow each other (R275, R276), and a NACK ends the read (R277). -/
theorem readAcknowledgeDrains : Obligations.ReadAcknowledgeDrains := by
  intro nd k hst
  rw [edge_rbyte hst, edge_mack k rfl, edge_ackEnd_sent rfl]
  refine ⟨rfl, rfl, fun hk => if_pos hk, fun hk => ?_⟩
  rw [Node.onReadAckEnd, if_neg (by simp [hk])]
  exact ⟨rfl, by simp, rfl⟩

/-- Settles O33: a stop ends the transaction (R267), and `Idle` ignores the rest (R280). -/
theorem stopAndIgnoredEvents : Obligations.StopAndIgnoredEvents := by
  refine fun nd => ⟨fun hst => ?_, fun hst e h1 h2 => edge_idle_ignored hst h1 h2⟩
  have happ : edgeApplies nd.ppe.st .stop = true := by
    simp only [List.mem_cons, List.not_mem_nil, or_false] at hst
    rcases hst with h | h | h | h | h <;> rw [h] <;> rfl
  exact edge_stop happ

/-! ### The clear and validate steps (R283, R284) -/

theorem whenNode_enabled {s : State} {i : Nat} {nd : Node} {g : Node → Bool} {act : Node → Res State}
    (hn : s.nodes[i]? = some nd) (hg : g nd = true) : s.whenNode i g act = act nd := by
  simp only [State.whenNode, hn, hg, if_true]

theorem whenNode_disabled {s : State} {i : Nat} {nd : Node} {g : Node → Bool} {act : Node → Res State}
    (hn : s.nodes[i]? = some nd) (hg : g nd = false) : s.whenNode i g act = .ok s := by
  simp only [State.whenNode, hn, hg, Bool.false_eq_true, if_false]

theorem setNode_onlyNode (s : State) (i : Nat) (nd : Node) : s.onlyNode (s.setNode i nd) i nd :=
  ⟨rfl, rfl, rfl, rfl, rfl, rfl⟩

/-- Settles O34: the clear step of a drained node is `clearBuffers` of R263. -/
theorem clearStepEndsCycle : Obligations.ClearStepEndsCycle := by
  intro s i nd hr ha hn hd
  have hstep : step s = (s.advance.clearStep i).out := step_of_action hr ha
  have hn' : s.advance.nodes[i]? = some nd := hn
  rw [State.clearStep, whenNode_enabled hn' hd] at hstep
  exact ⟨_, _, hstep, setNode_onlyNode .., rfl⟩

/-- A request of its opcode's size is judged by its check byte over all its other bytes (R158). -/
theorem checkRequest_whole {p : Ppe} (h : p.reqLen = p.reqSize) :
    checkRequest p.req.toList p.reqLen = .ok ↔ p.reqBytes.headD 0 = checksum8 (p.reqBytes.drop 1) := by
  have htwo : 2 ≤ p.reqLen := h ▸ two_le_requestSize _
  have hop : p.req.toList.getD 1 0 = p.req[1] := by simp [List.getD]
  have hsize : requestSize p.req[1] = p.reqLen := h.symm
  have hhead : p.reqBytes.headD 0 = p.req.toList.getD 0 0 := headD_take _ (by omega)
  rw [hhead]
  simp only [checkRequest, hop, hsize, if_neg (Nat.not_lt.2 htwo), lt_irrefl, if_false, ne_eq, ite_not, ite_eq_left_iff,
    reduceCtorEq, imp_false, not_not]
  rfl

theorem packageReply_reqCheckErr : packageReply [codeByte .reqCheckErr] = some [0x03] := by decide

/-- A commit at a node without a reply publishes it, and changes nothing else of the network (R290). -/
theorem commitAt_published {s : State} {i : Nat} {nd : Node} {rep bytes : List Byte} (hn : s.nodes[i]? = some nd)
    (hr : nd.ppe.r54 = true) (hF : nd.ppe.repFinal = false) (hL : nd.ppe.repLen = 0) (hp : packageReply rep = some bytes) :
    ∃ nd', s.commitAt i rep = .ok (s.setNode i nd') ∧ nd' = { nd with ppe := nd'.ppe } ∧ Published nd.ppe nd'.ppe bytes := by
  obtain ⟨nd', hc, hpub, hrest⟩ := commit_published hr hF hL hp
  exact ⟨nd', by simp only [State.commitAt, hn, hc], hrest, hpub⟩

theorem validateEnabled_iff (nd : Node) : nd.validateEnabled = true ↔ nd.ppe.reqSt = .unchecked ∧ nd.childCycle = false := by
  simp [Node.validateEnabled]

/-- Settles O35: an unchecked request is whole (R54), so its check byte decides (R284). -/
theorem validateStepChecks : Obligations.ValidateStepChecks := by
  intro s i nd hr ha hn
  have hn' : s.advance.nodes[i]? = some nd := hn
  have hstep : step s = (s.advance.validateStep i).out := step_of_action hr ha
  refine ⟨fun hreq hc hL => ?_, fun hoff => ?_⟩
  · have hr' : nd.ppe.r54 = true := List.all_eq_true.1 hr nd (List.mem_of_getElem? hn)
    obtain ⟨-, -, -, -, hwhole, hans, -⟩ := (r54_iff nd.ppe).1 hr'
    have hF : nd.ppe.repFinal = false := by simpa [hreq] using hans
    have hcheck := checkRequest_whole (hwhole (.inl hreq))
    rw [State.validateStep, whenNode_enabled hn' ((validateEnabled_iff nd).2 ⟨hreq, hc⟩)] at hstep
    split at hstep
    · rename_i hok
      exact ⟨_, _, hstep, setNode_onlyNode .., rfl, fun _ => rfl, fun hbad => absurd (hcheck.1 hok) hbad⟩
    · rename_i hbad
      obtain ⟨nd', hcommit, hrest, hpub⟩ := commitAt_published hn' hr' hF hL packageReply_reqCheckErr
      rw [hcommit] at hstep
      exact ⟨_, nd', hstep, setNode_onlyNode .., hrest, fun hok => absurd (hcheck.2 hok) hbad, fun _ => hpub⟩
  · have hno : nd.validateEnabled = false := by
      rw [Bool.eq_false_iff, ne_eq, validateEnabled_iff]
      rintro ⟨hreq, hc⟩
      simp [hreq, hc] at hoff
    rw [hstep, State.validateStep, whenNode_disabled hn' hno, res_out_ok]

/-! ### The notify steps (R285, R286) -/

theorem notifyEnabled_iff (s : State) (nd : Node) : s.notifyEnabled nd = true ↔
    nd.notifyPending = true ∧ nd.ppe.st = .idle ∧ nd.ppe.busBusy = false ∧ s.held nd.seg = false := by
  simp [State.notifyEnabled, and_assoc]

/-- A node that notified: the pulse is over and its latch cleared (R286). -/
def Node.afterPulse (nd : Node) : Node := { nd with notifyPending := false, ppe := { nd.ppe with st := .idle } }

/-- The pulse of a notifying node ends on an idle segment that is not held (R286, R234). -/
theorem notifyEnd_eq {s : State} {i : Nat} {nd : Node} (hn : s.nodes[i]? = some nd) (hst : nd.ppe.st = .notifying)
    (hidle : s.phase nd.seg = .idle) (hfree : s.held nd.seg = false) :
    s.notifyEnd i = .ok ((s.notifyController nd.seg).modNode i Node.afterPulse) :=
  whenNode_enabled hn (by simp [hst, hidle, hfree])

theorem notifyEnd_primary {s : State} {i : Nat} {nd : Node} (hn : s.nodes[i]? = some nd) (hseg : nd.seg = .primary)
    (hst : nd.ppe.st = .notifying) (hidle : s.primary = .idle) (hfree : s.held .primary = false) :
    s.notifyEnd i = .ok { s with nodes := s.nodes.set i nd.afterPulse, hostLog := .notify :: s.hostLog } := by
  have hn' : (s.notifyController .primary).nodes[i]? = some nd := hn
  rw [notifyEnd_eq hn hst (by rw [hseg]; exact hidle) (by rw [hseg]; exact hfree), hseg, modNode_eq_setNode _ hn']
  rfl

theorem notifyEnd_hub {s : State} {i h : Nat} {nd hb : Node} (hn : s.nodes[i]? = some nd) (hseg : nd.seg = .sub h)
    (hne : h ≠ i) (hh : s.nodes[h]? = some hb) (hst : nd.ppe.st = .notifying) (hsec : hb.sec = .idle)
    (hfree : s.held (.sub h) = false) :
    s.notifyEnd i = .ok { s with
      nodes := (s.nodes.set i nd.afterPulse).set h { hb with hfe := { hb.hfe with notifySeen := true } } } := by
  have hidle : s.phase nd.seg = .idle := by simp [State.phase, hseg, hh, hsec]
  have hn' : (s.notifyController (.sub h)).nodes[i]? = some nd :=
    (List.getElem?_modify_ne _ s.nodes hne).trans hn
  rw [notifyEnd_eq hn hst hidle (by rw [hseg]; exact hfree), hseg, modNode_eq_setNode _ hn', State.notifyController,
    modNode_eq_setNode _ hh]
  simp only [State.setNode, List.set_comm _ _ hne]

/-- Settles O42: the controller sees the pulse and the node's latch is cleared (R286); a pending node begins one (R285). -/
theorem notifyReachesHub : Obligations.NotifyReachesHub := by
  refine ⟨fun s i h nd hb hr ha hn hseg hne hh hst hsec hfree => ?_,
    fun s i nd hr ha hn hseg hst hidle hfree => ?_, fun s i nd hr ha hn => ?_⟩
  · have hstep : step s = (s.advance.notifyEnd i).out := step_of_action hr ha
    rw [hstep, notifyEnd_hub (s := s.advance) hn hseg hne hh hst hsec ((advance_held s _).trans hfree)]
    rfl
  · have hstep : step s = (s.advance.notifyEnd i).out := step_of_action hr ha
    rw [hstep, notifyEnd_primary (s := s.advance) hn hseg hst hidle ((advance_held s _).trans hfree)]
    rfl
  · have hstep : step s = (s.advance.notifyBegin i).out := step_of_action hr ha
    have hn' : s.advance.nodes[i]? = some nd := hn
    refine ⟨fun hp hst hb hfree => ?_, fun hoff => ?_⟩
    · have hen := (notifyEnabled_iff s.advance nd).2 ⟨hp, hst, hb, (advance_held s _).trans hfree⟩
      rw [hstep, State.notifyBegin, whenNode_enabled hn' hen]
      rfl
    · have hno : s.advance.notifyEnabled nd = false := by
        rw [Bool.eq_false_iff, ne_eq, notifyEnabled_iff, advance_held]
        rintro ⟨hp, hst, hb, hfree⟩
        simp [hp, hst, hb, hfree] at hoff
      rw [hstep, State.notifyBegin, whenNode_disabled hn' hno, res_out_ok]

end Sys2Proof.Machine

/-! SUPPORT. The hub forwarding engine (44_hub_forwarding.md): what the events of a hub's step make of every other node, what the
hub does with the answer of an operation on its segment, and how the end of a resurrection resets the children one by one. -/

namespace Sys2Proof.Machine

/-! ### A hub's events on its segment, node by node (R222) -/

/-- Node `nd` after the events `es` on segment `k`. -/
def Node.driven (nd : Node) (k : SegId) (es : List BusEvent) : Node := if nd.seg = k then es.foldl Node.edge nd else nd

theorem foldl_edge_seg (es : List BusEvent) (nd : Node) : (es.foldl Node.edge nd).seg = nd.seg := by
  induction es generalizing nd with
  | nil => rfl
  | cons e es ih => rw [List.foldl_cons, ih, edge_seg]

@[simp] theorem driven_seg (nd : Node) (k : SegId) (es : List BusEvent) : (nd.driven k es).seg = nd.seg := by
  unfold Node.driven
  split
  · exact foldl_edge_seg es nd
  · rfl

@[simp] theorem driven_nil (nd : Node) (k : SegId) : nd.driven k [] = nd := ite_self nd

theorem driven_target {nd : Node} {k : SegId} (h : nd.seg = k) (es : List BusEvent) :
    nd.driven k es = es.foldl Node.edge nd := if_pos h

theorem driven_append (nd : Node) (k : SegId) (es es' : List BusEvent) :
    nd.driven k (es ++ es') = (nd.driven k es).driven k es' := by
  by_cases h : nd.seg = k
  · rw [driven_target h, List.foldl_append, ← driven_target h es, driven_target ((driven_seg ..).trans h)]
  · simp only [Node.driven, if_neg h]

/-- State `t` is `s` after the events `es` of hub `h` on its segment and whatever the hub did to itself, in the same place. -/
structure State.Drives (s : State) (h : Nat) (es : List BusEvent) (t : State) : Prop where
  length  : t.nodes.length = s.nodes.length
  hub_seg : t.nodes[h]?.map Node.seg = s.nodes[h]?.map Node.seg
  node_at : ∀ (j : Nat) (x : Node), j ≠ h → s.nodes[j]? = some x → t.nodes[j]? = some (x.driven (.sub h) es)

namespace State.Drives

variable {s t u : State} {h : Nat} {es es' : List BusEvent}

theorem refl (s : State) (h : Nat) : s.Drives h [] s := ⟨rfl, rfl, fun j x _ hx => by rw [driven_nil, hx]⟩

theorem trans (hst : s.Drives h es t) (htu : t.Drives h es' u) : s.Drives h (es ++ es') u where
  length := htu.length.trans hst.length
  hub_seg := htu.hub_seg.trans hst.hub_seg
  node_at j x hj hx := by rw [driven_append]; exact htu.node_at j _ hj (hst.node_at j x hj hx)

/-- The hub changes itself. -/
theorem setNode (hd : s.Drives h es t) {nd nd' : Node} (hn : t.nodes[h]? = some nd) (hseg : nd'.seg = nd.seg) :
    s.Drives h es (t.setNode h nd') where
  length := by simpa using hd.length
  hub_seg := by
    rw [← hd.hub_seg, hn, setNode_nodes, List.getElem?_set_self (List.getElem?_eq_some_iff.1 hn).1]
    exact congrArg some hseg
  node_at j x hj hx := by
    rw [setNode_nodes, List.getElem?_set_ne (Ne.symm hj)]
    exact hd.node_at j x hj hx

theorem withHfe (hd : s.Drives h es t) {hub : Node} (hn : t.nodes[h]? = some hub) (f : Hfe → Hfe) :
    s.Drives h es (t.setNode h (hub.withHfe f)) := hd.setNode hn rfl

/-- The targets after the events are the targets before, driven. -/
theorem exists_target (hd : s.Drives h es u) {hub : Node} (hn : s.nodes[h]? = some hub) (ha : hub.seg ≠ .sub h)
    {p : Node → Prop} : (∃ y ∈ u.nodes, y.seg = .sub h ∧ p y) ↔
      ∃ x ∈ s.nodes, x.seg = .sub h ∧ p (es.foldl Node.edge x) := by
  have hne : ∀ {v : State} {j : Nat} {x : Node}, v.nodes[h]?.map Node.seg = some hub.seg → v.nodes[j]? = some x →
      x.seg = .sub h → j ≠ h := by
    rintro v j x hv hx hseg rfl
    rw [hx] at hv
    exact ha ((Option.some.inj hv).symm.trans hseg)
  constructor
  · rintro ⟨y, hy, hseg, hp⟩
    obtain ⟨j, hj⟩ := List.getElem?_of_mem hy
    have hjh := hne (hd.hub_seg.trans (by rw [hn]; rfl)) hj hseg
    have hlt : j < s.nodes.length := hd.length ▸ (List.getElem?_eq_some_iff.1 hj).1
    have hx := List.getElem?_eq_getElem hlt
    obtain rfl := Option.some.inj (hj.symm.trans (hd.node_at j _ hjh hx))
    rw [driven_seg] at hseg
    exact ⟨_, List.mem_of_getElem? hx, hseg, driven_target hseg es ▸ hp⟩
  · rintro ⟨x, hx, hseg, hp⟩
    obtain ⟨j, hj⟩ := List.getElem?_of_mem hx
    exact ⟨_, List.mem_of_getElem? (hd.node_at j x (hne (by rw [hn]; rfl) hj hseg) hj), (driven_seg ..).trans hseg,
      (driven_target hseg es).symm ▸ hp⟩

end State.Drives

theorem emit_drives {s t : State} {h : Nat} {e : BusEvent} {r : Option Obs} (he : s.emit (.sub h) e = .ok (t, r)) :
    s.Drives h [e] t := by
  have hlen := (emit_enginesOnly he).1
  obtain ⟨q, -, -, rfl, -⟩ := emit_ok_iff.1 he
  have hnode : ∀ (j : Nat) (x : Node), s.nodes[j]? = some x → ∃ x' : Node,
      ((s.edgeAll (.sub h) e).setPhase (.sub h) q).nodes[j]? = some x' ∧ x'.seg = x.seg ∧
        (j ≠ h → x' = x.driven (.sub h) [e]) := by
    intro j x hx
    have hx' := List.getElem?_eq_getElem (hlen ▸ (List.getElem?_eq_some_iff.1 hx).1)
    obtain ⟨y, r, hy, heq, hother⟩ := emit_node hx'
    obtain rfl : x = y := Option.some.inj (hx.symm.trans hy)
    exact ⟨_, hx', by rw [heq, withSec_seg, edgeOn_seg], fun hj => hother fun hk => hj (SegId.sub.inj hk).symm⟩
  refine ⟨hlen, ?_, fun j x hj hx => ?_⟩
  · cases hn : s.nodes[h]? with
    | none => simpa [hlen] using hn
    | some x =>
      obtain ⟨x', hx', hseg, -⟩ := hnode h x hn
      rw [hx']
      exact congrArg some hseg
  · obtain ⟨x', hx', -, heq⟩ := hnode j x hx
    rw [hx', heq hj]

/-- The first of several events that are answered. -/
theorem emitAll_cons_ok {s t : State} {k : SegId} {e : BusEvent} {es : List BusEvent} {r r' : Option Obs}
    (h : s.emitAll k (e :: es) r = .ok (t, r')) : ∃ u, s.emit k e = .ok (u, s.response k e) ∧
      u.emitAll k es ((s.response k e).orElse fun _ => r) = .ok (t, r') := by
  rw [State.emitAll] at h
  split at h
  · cases h
  · rename_i u o he
    obtain ⟨-, -, -, -, rfl⟩ := emit_ok_iff.1 he
    exact ⟨u, he, h⟩

theorem emitAll_drives {s t : State} {h : Nat} {es : List BusEvent} {r r' : Option Obs}
    (he : s.emitAll (.sub h) es r = .ok (t, r')) : s.Drives h es t := by
  induction es generalizing s r with
  | nil => cases he; exact .refl _ h
  | cons e es ih =>
    obtain ⟨u, hu, hrest⟩ := emitAll_cons_ok he
    exact (emit_drives hu).trans (ih hrest)

/-- A target on a hub's segment is not the hub (R11). -/
theorem target_ne_hub {s : State} {h j : Nat} {x : Node} (hs : s.coherent = true) (hx : s.nodes[j]? = some x)
    (hseg : x.seg = .sub h) : j ≠ h := by
  rintro rfl
  exact coherent_not_own_target hs hx hseg

/-! ### The controller operations (R230): what the targets do and what the hub receives -/

/-- The address acknowledge comes from the targets that await the address after START and SCL_LOW (R223). -/
theorem openTx_ok {s t : State} {h : Nat} {a : BitVec 7} {rw ack : Bool} (he : s.openTx (.sub h) a rw = .ok (t, ack)) :
    s.Drives h (openEvents a rw) t ∧ ∃ u, s.Drives h [.start, .sclLow] u ∧
      (ack = true ↔ ∃ nd ∈ u.nodes, nd.seg = .sub h ∧ nd.ppe.st = .addressing ∧ nd.matches a = true) := by
  obtain ⟨⟨t', r⟩, h₀, hack⟩ := except_map_ok he
  obtain ⟨rfl, rfl⟩ := Prod.mk.inj hack
  refine ⟨emitAll_drives h₀, ?_⟩
  obtain ⟨s₁, h₁, hr₁⟩ := emitAll_cons_ok h₀
  obtain ⟨s₂, h₂, hr₂⟩ := emitAll_cons_ok hr₁
  obtain ⟨s₃, h₃, hr₃⟩ := emitAll_cons_ok hr₂
  obtain ⟨s₄, h₄, hr₄⟩ := emitAll_cons_ok hr₃
  obtain ⟨ack, hresp, hiff⟩ := response_addr s₂ (.sub h) a rw
  cases hr₄
  exact ⟨s₂, (emit_drives h₁).trans (emit_drives h₂), by rw [hresp]; exact hiff⟩

/-- The data acknowledge comes from the receiving targets (R224). -/
theorem writeByte_ok {s t : State} {h : Nat} {b : Byte} {ack : Bool} (he : s.writeByte (.sub h) b = .ok (t, ack)) :
    s.Drives h (writeEvents b) t ∧ (ack = true ↔ ∃ nd ∈ s.nodes, nd.seg = .sub h ∧ nd.ppe.st = .receiving) := by
  obtain ⟨⟨t', r⟩, h₀, hack⟩ := except_map_ok he
  obtain ⟨rfl, rfl⟩ := Prod.mk.inj hack
  refine ⟨emitAll_drives h₀, ?_⟩
  obtain ⟨s₁, -, hr₁⟩ := emitAll_cons_ok h₀
  obtain ⟨s₂, -, hr₂⟩ := emitAll_cons_ok hr₁
  obtain ⟨ack, hresp, hiff⟩ := response_wbyte s (.sub h) b
  cases hr₂
  rw [hresp]
  exact hiff

/-- The byte is the combined response to RBYTE (R225). -/
theorem readByte_ok {s t : State} {h : Nat} {b : Byte} {ack : Bool} (he : s.readByte (.sub h) ack = .ok (t, b)) :
    s.Drives h (readEvents ack) t ∧ s.response (.sub h) .rbyte = some (.byte b) := by
  obtain ⟨⟨t', r⟩, h₀, hb⟩ := except_map_ok he
  obtain ⟨rfl, rfl⟩ := Prod.mk.inj hb
  refine ⟨emitAll_drives h₀, ?_⟩
  obtain ⟨s₁, -, hr₁⟩ := emitAll_cons_ok h₀
  obtain ⟨s₂, -, hr₂⟩ := emitAll_cons_ok hr₁
  obtain ⟨s₃, -, hr₃⟩ := emitAll_cons_ok hr₂
  cases hr₃
  rfl

theorem stopTx_drives {s t : State} {h : Nat} (he : s.stopTx (.sub h) = .ok t) : s.Drives h [.stop] t := by
  obtain ⟨⟨u, r⟩, hstop, rfl⟩ := except_map_ok he
  exact emit_drives hstop

/-! ### A target that is addressed (R266, R268, R269) -/

/-- A target that awaits the address byte, after START and SCL_LOW. -/
def Node.addressed (nd : Node) : Node := { nd.onStart with ppe := { nd.onStart.ppe with st := .addressing } }

@[simp] theorem addressed_st (nd : Node) : nd.addressed.ppe.st = .addressing := rfl

@[simp] theorem addressed_matches (nd : Node) (a : BitVec 7) : nd.addressed.matches a = nd.matches a := by
  unfold Node.addressed Node.onStart
  split <;> rfl

theorem edge_start_sclLow {nd : Node} (h : edgeApplies nd.ppe.st .start = true) :
    (nd.edge .start).edge .sclLow = nd.addressed := by
  rw [edge_start h]
  simp [Node.edge, edgeApplies, Node.addressed]

/-- A write transaction opened: a target that matches the address receives, any other is outside (R269, R272). -/
theorem openWrite_st {nd : Node} (h : edgeApplies nd.ppe.st .start = true) (a : BitVec 7) :
    ((openEvents a false).foldl Node.edge nd).ppe.st = if nd.matches a then .receiving else .idle := by
  simp only [openEvents, List.foldl_cons, List.foldl_nil, edge_start_sclLow h, edge_addr a false (addressed_st nd),
    Node.onAddr, addressed_matches]
  split
  · rw [edge_ackEnd_received rfl]
    simp [Node.onAddrAckEnd]
  · exact edge_idle rfl (by simp)

namespace State.Controls

variable {s u : State} {h : Nat} {hub : Node} {ph : BusPhase}

/-- A START of the grammar reaches every target that does not stall. -/
theorem start_applies (hc : s.Controls h hub ph) (hn : ph.next .start = some .started) (hf : s.flowing (.sub h)) {x : Node}
    (hx : x ∈ s.nodes) (hseg : x.seg = .sub h) : edgeApplies x.ppe.st .start = true :=
  edgeApplies_of_segOk (hc.follow x (mem_targets.2 ⟨hx, hseg⟩)).1 hn (hf x (mem_targets.2 ⟨hx, hseg⟩))

/-- A hub that opens a transaction is acknowledged where a target matches the address, wherever the targets were (R223). -/
theorem openTx_answer (hc : s.Controls h hub ph) (hn : ph.next .start = some .started) (hf : s.flowing (.sub h))
    (a : BitVec 7) (rw : Bool) :
    ∃ t k, s.openTx (.sub h) a rw = .ok (t, k) ∧ t.Controls h (hub.withSec (dataPhase rw)) (dataPhase rw) ∧
      (k = false → t.flowing (.sub h)) ∧ s.Drives h (openEvents a rw) t ∧
      (k = true ↔ ∃ m ∈ s.nodes, m.seg = .sub h ∧ m.matches a = true) := by
  obtain ⟨t, k, htx, ct, hk⟩ := hc.openTx hn hf a rw
  obtain ⟨hd, v, hv, hack⟩ := openTx_ok htx
  refine ⟨t, k, htx, ct, hk, hd, ?_⟩
  rw [hack, hv.exists_target hc.hub_at hc.apart (p := fun nd => nd.ppe.st = .addressing ∧ nd.matches a = true)]
  refine exists_congr fun m => and_congr_right fun hm => and_congr_right fun hseg => ?_
  simp [edge_start_sclLow (hc.start_applies hn hf hm hseg)]

theorem withHfe (hc : u.Controls h hub ph) (f : Hfe → Hfe) :
    (u.setNode h (hub.withHfe f)).Controls h (hub.withHfe f) ph := hc.setNode rfl rfl

/-- The hub goes on after an acknowledge. -/
theorem goesOn_ack (hc : u.Controls h hub ph) (f : Hfe → Hfe) : u.goesOn h true f (u.setNode h (hub.withHfe f)) :=
  .inl ⟨rfl, (modNode_eq_setNode (fun n => n.withHfe f) hc.hub_at).symm⟩

/-- The hub gives up where nobody acknowledges: `[0xC7]` published, its HFE and its segment idle (R325, R330, R332). -/
theorem goesOn_absent (hc : u.Controls h hub ph) (hn : ph.next .stop = some .idle) (hf : u.flowing (.sub h))
    (hr : hub.ppe.r54 = true) (hF : hub.ppe.repFinal = false) (hL : hub.ppe.repLen = 0) (f : Hfe → Hfe) :
    ∃ t hub', u.goesOn h false f t ∧ t.nodes[h]? = some hub' ∧ Published hub.ppe hub'.ppe [0xC7] ∧
      hub' = { hub with ppe := hub'.ppe, hfe := { hub.hfe with st := .idle }, sec := .idle } := by
  obtain ⟨v, hstop, cv⟩ := hc.stopTx hn hf
  have hcode : packageReply [codeByte .noDevice] = some [0xC7] := by decide
  obtain ⟨nd', hcm, hrest, hpub⟩ := commitAt_published cv.hub_at hr hF hL hcode
  have cset : (v.setNode h nd').Controls h nd' .idle := cv.setNode (hrest ▸ rfl) (hrest ▸ rfl)
  have cend := cset.setNode (hub' := nd'.withHfe fun f => { f with st := .idle }) rfl rfl
  refine ⟨_, _, .inr ⟨rfl, ?_⟩, cend.hub_at, hpub, ?_⟩
  · simp only [State.noDevice, hstop, hcm]
    rw [modNode_eq_setNode _ cset.hub_at]
  · rw [hrest]
    rfl

end State.Controls

/-! ### The open and no-bus steps (R323 to R325, R343) -/

theorem step_of_hub {s t : State} {h : Nat} {c : HfeStep} (hr : s.r54 = true) (ha : s.nextAction = some (.hub h c))
    (ht : s.advance.hubStep h c = .ok t) : step s = .next t :=
  (step_of_action hr ha).trans (out_next_iff.2 ht)

/-- A hub that has begun to forward its child cycle (R323, R343). -/
def Node.begun (nd : Node) : Node := nd.withHfe fun f => { f with fwdStarted := true }

theorem openEnabled_iff (nd : Node) : nd.openEnabled = true ↔
    nd.hfe.st = .idle ∧ nd.childPending = true ∧ nd.resurrectEnabled = false ∧ nd.notifiedEnabled = false := by
  simp [Node.openEnabled, and_assoc]

/-- A hub without a reply answers its child cycle `[0xE8]`, and nothing else of the network changes (R324, R343). -/
theorem commitNoBus {s : State} {h : Nat} {nd : Node} (hn : s.nodes[h]? = some nd) (hr : nd.ppe.r54 = true)
    (hF : nd.ppe.repFinal = false) (hL : nd.ppe.repLen = 0) :
    ∃ t nd', (s.modNode h Node.begun).commitAt h [codeByte .noBus] = .ok t ∧ s.onlyNode t h nd' ∧
      Published nd.ppe nd'.ppe [0xE8] ∧ nd' = { nd with ppe := nd'.ppe, hfe := { nd.hfe with fwdStarted := true } } := by
  have hset : (s.setNode h nd.begun).nodes[h]? = some nd.begun :=
    List.getElem?_set_self (List.getElem?_eq_some_iff.1 hn).1
  have hcode : packageReply [codeByte .noBus] = some [0xE8] := by decide
  obtain ⟨nd', hcm, hrest, hpub⟩ := commitAt_published hset hr hF hL hcode
  rw [modNode_eq_setNode _ hn]
  refine ⟨_, nd', hcm, ?_, hpub, hrest⟩
  simp [State.onlyNode, List.set_set]

theorem openStep_locked {s : State} {h : Nat} {envLocked : Bool} {nd : Node} (hn : s.nodes[h]? = some nd)
    (hg : nd.openEnabled = true) (hl : s.secLocked h envLocked = true) :
    s.openStep h envLocked = (s.modNode h Node.begun).commitAt h [codeByte .noBus] := by
  rw [State.openStep, whenNode_enabled hn hg]
  exact if_pos hl

theorem noBusStep_enabled {s : State} {h : Nat} {nd : Node} (hn : s.nodes[h]? = some nd) (hst : nd.hfe.st = .resurrection)
    (hp : nd.childPending = true) : s.noBusStep h = (s.modNode h Node.begun).commitAt h [codeByte .noBus] :=
  whenNode_enabled hn (by simp [hst, hp])

/-- Settles O43: both steps commit `[0xE8]` at the hub, which has begun to forward (`commitNoBus`). -/
theorem lockedSegmentAnswersNoBus : Obligations.LockedSegmentAnswersNoBus := by
  refine ⟨fun s h envLocked nd hr ha hn hg hF hL hl => ?_, fun s h nd hr ha hn hst hc hfwd hreq hF hL => ?_⟩
  all_goals
    have hn' : s.advance.nodes[h]? = some nd := hn
    obtain ⟨t, nd', ht, hrest⟩ := commitNoBus hn' (List.all_eq_true.1 hr nd (List.mem_of_getElem? hn)) hF hL
  · exact ⟨t, nd', step_of_hub hr ha ((openStep_locked hn' hg hl).trans ht), hrest⟩
  · have hp : nd.childPending = true := by simp [Node.childPending, childCycle_hubCapable hc, hc, hfwd, hreq]
    exact ⟨t, nd', step_of_hub hr ha ((noBusStep_enabled hn' hst hp).trans ht), hrest⟩

theorem openStep_of_goesOn {s u t : State} {h : Nat} {envLocked k : Bool} {nd : Node} {c : BitVec 7}
    (hn : s.nodes[h]? = some nd) (hg : nd.openEnabled = true) (hcyc : nd.ppe.cycAddr = some c)
    (hl : s.secLocked h envLocked = false) (htx : (s.modNode h Node.begun).openTx (.sub h) c false = .ok (u, k))
    (hgo : u.goesOn h k (fun f => { f with fwdPos := 0, st := .requestForwarding }) t) : s.openStep h envLocked = .ok t := by
  have htx' : (s.modNode h fun n => n.withHfe fun f => { f with fwdStarted := true }).openTx (.sub h) c false =
      .ok (u, k) := htx
  rw [State.openStep, whenNode_enabled hn hg]
  simp only [hl, hcyc, Option.getD_some, htx', Bool.false_eq_true, if_false]
  rcases hgo with ⟨rfl, rfl⟩ | ⟨rfl, hd⟩
  · rfl
  · exact hd

/-- The open step of an unlocked segment opens a write to the child, whose answer decides how it ends (R323, R325). -/
theorem openStep_opens {s : State} {h : Nat} {envLocked : Bool} {nd : Node} {c : BitVec 7} (hs : s.coherent = true)
    (hn : s.nodes[h]? = some nd) (hg : nd.openEnabled = true) (hcyc : nd.ppe.cycAddr = some c)
    (hl : s.secLocked h envLocked = false) :
    ∃ u k, u.Controls h (nd.begun.withSec .writeData) .writeData ∧ s.Drives h (openEvents c false) u ∧
      (k = true ↔ ∃ m ∈ s.nodes, m.seg = .sub h ∧ m.matches c = true) ∧
      ∀ t, u.goesOn h k (fun f => { f with fwdPos := 0, st := .requestForwarding }) t → s.openStep h envLocked = .ok t := by
  obtain ⟨hst, -⟩ := (openEnabled_iff nd).1 hg
  have hidle := hfeOk_idle (coherent_node hs (List.mem_of_getElem? hn)).2.1 hst
  have hc := (hidle ▸ coherent_controls hs hn).setNode (hub' := nd.begun) rfl rfl
  have hbegun : s.Drives h [] (s.setNode h nd.begun) := (State.Drives.refl s h).setNode hn rfl
  have hflow : (s.setNode h nd.begun).flowing (.sub h) := fun x hx =>
    flowing_of_not_secLocked (Bool.eq_false_iff.1 hl) x (mem_targets_setNode hc.apart hx)
  obtain ⟨u, k, htx, cu, -, hd, hk⟩ := hc.openTx_answer rfl hflow c false
  refine ⟨u, k, cu, hbegun.trans hd, hk.trans (hbegun.exists_target hn (coherent_not_own_target hs hn)), fun t hgo => ?_⟩
  exact openStep_of_goesOn hn hg hcyc hl (modNode_eq_setNode Node.begun hn ▸ htx) hgo

/-- Settles O44: no target matches, so nobody acknowledges, and the hub gives up (`goesOn_absent`). -/
theorem absentChildAnswersNoDevice : Obligations.AbsentChildAnswersNoDevice := by
  intro s h nd c hs ha hn hg hcyc hl hnone
  obtain ⟨hp, hh, -⟩ := coherent_node hs (List.mem_of_getElem? hn)
  obtain ⟨hst, hpend, -⟩ := (openEnabled_iff nd).1 hg
  obtain ⟨hL, hF⟩ := childPending_noReply hh hpend
  obtain ⟨u, k, cu, -, hk, hstep⟩ := openStep_opens (coherent_advance hs) hn hg hcyc hl
  obtain rfl : k = false := by
    rw [Bool.eq_false_iff, ne_eq, hk]
    rintro ⟨m, hm, hseg, hmatch⟩
    simp [hnone m hm hseg] at hmatch
  obtain ⟨t, nd', hgo, hn', hpub, heq⟩ := cu.goesOn_absent rfl (cu.flowing (by decide) (by decide)) (ppeOk_r54 hp) hF hL _
  refine ⟨t, nd', step_of_hub (coherent_r54 hs) ha (hstep t hgo), hn', hpub, heq.trans ?_⟩
  simp only [Node.begun, Node.withHfe, Node.withSec, ← hst, ← hfeOk_idle hh hst]

/-- Settles O45: a target matches and acknowledges, so the hub goes on; `openWrite_st` says what each target does. -/
theorem openStepStartsForwarding : Obligations.OpenStepStartsForwarding := by
  intro s h nd m c hs ha hn hg hcyc hl hm hseg hmatch
  obtain ⟨u, k, cu, hd, hk, hstep⟩ := openStep_opens (coherent_advance hs) hn hg hcyc hl
  obtain rfl : k = true := hk.2 ⟨m, hm, hseg, hmatch⟩
  refine ⟨_, _, step_of_hub (coherent_r54 hs) ha (hstep _ (cu.goesOn_ack _)), (cu.withHfe _).hub_at, rfl,
    fun j x hx hxseg => ?_⟩
  have hj := target_ne_hub hs hx hxseg
  obtain ⟨hst, -⟩ := (openEnabled_iff nd).1 hg
  have hidle := hfeOk_idle (coherent_node hs (List.mem_of_getElem? hn)).2.1 hst
  have happ := (hidle ▸ coherent_controls hs hn).start_applies rfl
    (flowing_of_not_secLocked (Bool.eq_false_iff.1 hl)) (List.mem_of_getElem? hx) hxseg
  refine ⟨_, (hd.withHfe cu.hub_at _).node_at j x hj hx, ?_⟩
  rw [driven_target hxseg, openWrite_st happ]

/-! ### The forward and turn-around steps (R329 to R332) -/

/-- A hub that forwards a request, in a coherent network: a forwarding child cycle without a reply, in an open write (R323). -/
theorem coherent_requesting {s : State} {h : Nat} {nd : Node} (hs : s.coherent = true) (hn : s.nodes[h]? = some nd)
    (hst : nd.hfe.st = .requestForwarding) :
    s.Controls h nd .writeData ∧ nd.hubCapable = true ∧ nd.ppe.r54 = true ∧ nd.ppe.repFinal = false ∧
      nd.ppe.repLen = 0 := by
  have hE := coherent_enginesOk hs
  obtain ⟨hsec, -, hc, hL, hF, -⟩ := (hE.hfe_at hn).requesting hst
  exact ⟨hsec ▸ coherent_controls hs hn, childCycle_hubCapable hc, ppeOk_r54 (hE.ppe_at hn), hF, hL⟩

theorem reqBytes_getD {p : Ppe} {i : Nat} (h : i < p.reqLen) : p.reqBytes.getD i 0 = p.req.toList.getD i 0 := by
  simp [Ppe.reqBytes, List.getD, h]

theorem forwardStep_of_goesOn {s u t : State} {h : Nat} {k : Bool} {nd : Node} (hn : s.nodes[h]? = some nd)
    (hcap : nd.hubCapable = true) (hst : nd.hfe.st = .requestForwarding) (hpos : nd.hfe.fwdPos < nd.ppe.reqLen)
    (hfree : s.held (.sub h) = false)
    (hw : s.writeByte (.sub h) (nd.ppe.reqBytes.getD nd.hfe.fwdPos 0) = .ok (u, k))
    (hgo : u.goesOn h k (fun f => { f with fwdPos := f.fwdPos + 1 }) t) : s.forwardStep h = .ok t := by
  rw [State.forwardStep, whenNode_enabled hn (by simp [hcap, hst, hpos, hfree]), ← reqBytes_getD hpos, hw]
  rcases hgo with ⟨rfl, rfl⟩ | ⟨rfl, hd⟩
  · rfl
  · exact hd

/-- Settles O46: the byte is written to the targets, whose acknowledge decides whether the hub goes on. -/
theorem forwardStepPassesByte : Obligations.ForwardStepPassesByte := by
  intro s h nd hs ha hn hst hpos hfree
  obtain ⟨hc, hcap, hr, hF, hL⟩ := coherent_requesting (coherent_advance hs) hn hst
  obtain ⟨u, k, hw, cu⟩ := hc.writeByte (nd.ppe.reqBytes.getD nd.hfe.fwdPos 0)
  obtain ⟨hd, hk⟩ := writeByte_ok hw
  have hstep : ∀ t, u.goesOn h k (fun f => { f with fwdPos := f.fwdPos + 1 }) t → step s = .next t := fun t hgo =>
    step_of_hub (coherent_r54 hs) ha
      (forwardStep_of_goesOn hc.hub_at hcap hst hpos ((advance_held s _).trans hfree) hw hgo)
  cases k with
  | true =>
    refine ⟨_, _, hstep _ (cu.goesOn_ack _), (cu.withHfe _).hub_at, fun _ => ⟨?_, fun j x hx hseg => ?_⟩,
      fun hnone => ?_⟩
    · rw [← hc.sec_eq]; rfl
    · have hj := target_ne_hub hs hx hseg
      rw [(hd.withHfe cu.hub_at _).node_at j x hj hx, driven_target hseg]
      rfl
    · obtain ⟨m, hm, hseg, hmst⟩ := hk.1 rfl
      exact absurd hmst (hnone m hm hseg)
  | false =>
    obtain ⟨t, nd', hgo, hn', hpub, heq⟩ := cu.goesOn_absent rfl (cu.flowing (by decide) (by decide)) hr hF hL _
    exact ⟨t, nd', hstep t hgo, hn', fun hsome => absurd (hk.2 hsome) (by decide),
      fun _ => ⟨hpub, congrArg (fun n => n.hfe.st) heq, congrArg Node.sec heq⟩⟩

theorem turnAroundStep_of_goesOn {s u t : State} {h : Nat} {k : Bool} {nd : Node} {c : BitVec 7}
    (hn : s.nodes[h]? = some nd) (hcap : nd.hubCapable = true) (hst : nd.hfe.st = .requestForwarding)
    (hpos : nd.hfe.fwdPos = nd.ppe.reqLen) (hread : nd.ppe.readSeen = true) (hcyc : nd.ppe.cycAddr = some c)
    (hfree : s.held (.sub h) = false) (htx : s.openTx (.sub h) c true = .ok (u, k))
    (hgo : u.goesOn h k (fun f => { f with rdNeed := nd.replyNeed, rdPos := 0, st := .replyForwarding }) t) :
    s.turnAroundStep h = .ok t := by
  rw [State.turnAroundStep, whenNode_enabled hn (by simp [hcap, hst, hpos, hread, hcyc, hfree]), hcyc, Option.getD_some, htx]
  rcases hgo with ⟨rfl, rfl⟩ | ⟨rfl, hd⟩
  · rfl
  · exact hd

/-- The opcode that sizes the read is the request's byte 1, once it is forwarded (R331). -/
theorem replyNeed_eq {nd : Node} (hpos : nd.hfe.fwdPos = nd.ppe.reqLen) :
    nd.replyNeed = if 2 ≤ nd.hfe.fwdPos then replySize (nd.ppe.reqBytes.getD 1 0) else 1 := by
  unfold Node.replyNeed
  split
  · have hop : nd.ppe.req.toList.getD 1 0 = nd.ppe.req[1] := by simp [List.getD]
    rw [reqBytes_getD (by omega), hop]
  · rfl

/-- Settles O47: the read is opened to the targets that match, if any (`openTx_answer`). -/
theorem turnAroundOpensReply : Obligations.TurnAroundOpensReply := by
  intro s h nd c hs ha hn hst hpos hread hcyc hfree
  have hfree' : s.advance.held (.sub h) = false := (advance_held s _).trans hfree
  obtain ⟨hc, hcap, hr, hF, hL⟩ := coherent_requesting (coherent_advance hs) hn hst
  obtain ⟨u, k, htx, cu, hflow, -, hk⟩ := hc.openTx_answer rfl (flowing_of_not_held hfree') c true
  have hstep : ∀ t, u.goesOn h k (fun f => { f with rdNeed := nd.replyNeed, rdPos := 0, st := .replyForwarding }) t →
      step s = .next t := fun t hgo =>
    step_of_hub (coherent_r54 hs) ha (turnAroundStep_of_goesOn hc.hub_at hcap hst hpos hread hcyc hfree' htx hgo)
  cases k with
  | true =>
    refine ⟨_, _, hstep _ (cu.goesOn_ack _), (cu.withHfe _).hub_at, fun _ => ?_, fun hnone => ?_⟩
    · rw [replyNeed_eq hpos]; rfl
    · obtain ⟨m, hm, hseg, hmatch⟩ := hk.1 rfl
      exact absurd ((hnone m hm hseg).symm.trans hmatch) (by decide)
  | false =>
    obtain ⟨t, nd', hgo, hn', hpub, heq⟩ := cu.goesOn_absent rfl (hflow rfl) hr hF hL _
    exact ⟨t, nd', hstep t hgo, hn', fun hsome => absurd (hk.2 hsome) (by decide),
      fun _ => ⟨hpub, congrArg (fun n => n.hfe.st) heq, congrArg Node.sec heq⟩⟩

/-! ### The copy step (R334, R335) -/

/-- A stalled read resumes from the node's own reply, whatever its HFE and its secondary segment do (R292). -/
theorem resume_withSec_withHfe (nd : Node) (q : BusPhase) (f : Hfe → Hfe) :
    ((nd.withSec q).withHfe f).resume = (nd.resume.withSec q).withHfe f := by
  unfold Node.resume Node.loadNext
  simp only [apply_ite (fun n : Node => (n.withSec q).withHfe f)]
  rfl

/-- The hub with the child's byte appended to its reply, before a stalled read resumes (R334). -/
def Node.copied (nd : Node) (b : Byte) (last : Bool) : Node :=
  ((nd.withSec .readData).withHfe fun f => { f with rdPos := f.rdPos + 1 }).withBytes [b] last

theorem copied_eq (nd : Node) (b : Byte) (last : Bool) : nd.copied b last = { nd with
    ppe := { nd.ppe with
      rep := (nd.copied b last).ppe.rep, repLen := nd.ppe.repLen + 1, repFinal := last
      reqSt := if last then .answered else nd.ppe.reqSt }
    hfe := { nd.hfe with rdPos := nd.hfe.rdPos + 1 }
    sec := .readData } := rfl

theorem copied_repBytes {nd : Node} (b : Byte) (last : Bool) (hL : nd.ppe.repLen + 1 ≤ maxRep) :
    (nd.copied b last).ppe.repBytes = nd.ppe.repBytes ++ [b] :=
  withBytes_repBytes (nd := (nd.withSec .readData).withHfe fun f => { f with rdPos := f.rdPos + 1 }) (bs := [b]) last hL

/-- A hub that forwards a reply, in a coherent network: a child cycle whose reply has room for the next byte (R331, R334). -/
theorem coherent_replying {s : State} {h : Nat} {nd : Node} (hs : s.coherent = true) (hn : s.nodes[h]? = some nd)
    (hst : nd.hfe.st = .replyForwarding) :
    s.Controls h nd .readData ∧ nd.hubCapable = true ∧ nd.ppe.repFinal = false ∧ nd.ppe.repLen + 1 ≤ maxRep ∧
      nd.hfe.rdPos < nd.hfe.rdNeed := by
  have hE := coherent_enginesOk hs
  obtain ⟨hsec, -, hc, hF, hL, hpos, hneed⟩ := (hE.hfe_at hn).replying hst
  exact ⟨hsec ▸ coherent_controls hs hn, childCycle_hubCapable hc, hF, by omega, hpos⟩

/-- The copy step reads a byte, appends it, and after the last one stops the transaction. -/
theorem copyStep_eq {s u : State} {h : Nat} {nd : Node} {b : Byte} {last : Bool} (hn : s.nodes[h]? = some nd)
    (hcap : nd.hubCapable = true) (hst : nd.hfe.st = .replyForwarding) (hpos : nd.hfe.rdPos < nd.hfe.rdNeed)
    (hfree : s.held (.sub h) = false) (hlast : last = decide (nd.hfe.rdPos + 1 = nd.hfe.rdNeed))
    (hread : s.readByte (.sub h) (!last) = .ok (u, b)) (hu : u.nodes[h]? = some (nd.withSec .readData))
    (hF : nd.ppe.repFinal = false) (hL : nd.ppe.repLen + 1 ≤ maxRep) :
    s.copyStep h = if last then
        ((u.setNode h (nd.copied b last).resume).stopTx (.sub h)).map fun v =>
          v.modNode h fun n => n.withHfe fun f => { f with st := .idle }
      else .ok (u.setNode h (nd.copied b last).resume) := by
  have hcm : ((nd.withSec .readData).withHfe fun f => { f with rdPos := f.rdPos + 1 }).commitPartial [b] last =
      .ok (nd.copied b last).resume := commitPartial_eq last hF hL
  rw [State.copyStep, whenNode_enabled hn (by simp [hcap, hst, hpos, hfree])]
  simp only [← hlast, hread, hu, hcm]
  refine if_congr Iff.rfl ?_ rfl
  cases (u.setNode h (nd.copied b last).resume).stopTx (.sub h) <;> rfl

theorem copied_resume_seg_sec (nd : Node) (b : Byte) (last : Bool) :
    (nd.copied b last).resume.seg = nd.seg ∧ (nd.copied b last).resume.sec = .readData := by
  rw [resume_eq]
  exact ⟨rfl, rfl⟩

/-- Settles O48: the byte read is appended (`withBytes_repBytes`), and every target takes the events of the read. -/
theorem copyStepPassesByte : Obligations.CopyStepPassesByte := by
  intro s h nd b last hs ha hn hst hfree hresp hlast
  have hfree' : s.advance.held (.sub h) = false := (advance_held s _).trans hfree
  obtain ⟨hc, hcap, hF, hL, hpos⟩ := coherent_replying (coherent_advance hs) hn hst
  obtain ⟨u, b', hread, cu, hflow⟩ := hc.readByte (flowing_of_not_held hfree') (!last)
  obtain ⟨hd, hb⟩ := readByte_ok hread
  obtain rfl : b = b' := Obs.byte.inj (Option.some.inj (hresp.symm.trans ((advance_response s _ _).symm.trans hb)))
  have hstep := copyStep_eq hc.hub_at hcap hst hpos hfree' hlast hread cu.hub_at hF hL
  obtain ⟨hseg, hsec⟩ := copied_resume_seg_sec nd b last
  have cx := cu.setNode hseg hsec
  have dx := hd.setNode cu.hub_at hseg
  have hbytes := copied_repBytes b last hL
  cases last with
  | false =>
    refine ⟨_, _, nd.copied b false, step_of_hub (coherent_r54 hs) ha hstep, cx.hub_at, rfl, ?_, hbytes, dx.length,
      fun j x hj hx => dx.node_at j x hj hx⟩
    simp only [Bool.false_eq_true, if_false, ← hst]
    exact copied_eq nd b false
  | true =>
    obtain ⟨v, hstop, cv⟩ := cx.stopTx rfl fun x hx => hflow rfl x (mem_targets_setNode cx.apart hx)
    have dv := (dx.trans (stopTx_drives hstop)).withHfe cv.hub_at fun f => { f with st := .idle }
    simp only [if_true, hstop, Except.map, modNode_eq_setNode _ cv.hub_at] at hstep
    refine ⟨_, _, ((nd.copied b true).withSec .idle).withHfe fun f => { f with st := .idle },
      step_of_hub (coherent_r54 hs) ha hstep, (cv.withHfe _).hub_at, ?_, ?_, ?_, dv.length, fun j x hj hx => ?_⟩
    · exact (resume_withSec_withHfe ..).symm
    · exact congrArg (fun n : Node => (n.withSec .idle).withHfe fun f => { f with st := .idle }) (copied_eq nd b true)
    · exact hbytes
    · exact dv.node_at j x hj hx

/-! ### The steps of a hub that does not forward (R326 to R328, R339) -/

/-- The `CHILD` bit is the only bit of its mask (R37). -/
theorem childMask_getLsbD (p : Params) {j : Nat} (hj : j < 8) : p.childMask.getLsbD j = (j == p.changedChildBit.toNat) := by
  unfold Params.childMask
  generalize p.changedChildBit = bit
  clear p
  decide +revert

/-- Raising the `CHILD` bit sets the notification latch where the bit was 0 (R38). -/
theorem raiseChild_notifyPending (nd : Node) : (nd.setChanged (nd.reg 0 ||| nd.par.childMask)).notifyPending = true ↔
    nd.notifyPending = true ∨ nd.regs[0].getLsbD nd.par.changedChildBit.toNat = false := by
  have hbit : nd.par.childMask.getLsbD nd.par.changedChildBit.toNat = true := by
    rw [childMask_getLsbD _ nd.par.changedChildBit.isLt, beq_self_eq_true]
  constructor
  · intro h
    by_contra hno
    obtain ⟨hoff, hset⟩ := not_or.1 hno
    have hsame : (nd.regs[0] ||| nd.par.childMask) &&& ~~~nd.regs[0] = 0 := BitVec.eq_of_getLsbD_eq fun j hj => by
      rw [BitVec.getLsbD_and, BitVec.getLsbD_or, BitVec.getLsbD_not, childMask_getLsbD _ hj]
      by_cases hjk : j = nd.par.changedChildBit.toNat
      · rw [← hjk] at hset
        simp [hset]
      · cases nd.regs[0].getLsbD j <;> simp [hjk]
    have hlatch : (nd.setChanged (nd.reg 0 ||| nd.par.childMask)).notifyPending =
        (nd.notifyPending || (nd.regs[0] ||| nd.par.childMask) &&& ~~~nd.regs[0] != 0) := rfl
    rw [hlatch, hsame, bne_self_eq_false, Bool.or_false] at h
    exact hoff h
  · rintro (h | h)
    · exact setChanged_keeps _ h
    · exact setChanged_rise h (by rw [BitVec.getLsbD_or, hbit, Bool.or_true])

theorem raiseChild_reg {nd : Node} {r : BitVec 6} (v : Byte) (hr : r ≠ 0) : (nd.setChanged v).reg r = nd.reg r :=
  (reg_setReg nd 0 r v).trans (if_neg hr)

/-- The step of the `Notified` state raises the `CHILD` bit and is done (R328). -/
theorem flagStep_enabled {s : State} {h : Nat} {nd : Node} (hn : s.nodes[h]? = some nd) (hcap : nd.hubCapable = true)
    (hst : nd.hfe.st = .notified) : s.flagStep h = .ok (s.setNode h
      ((nd.setChanged (nd.reg 0 ||| nd.par.childMask)).withHfe fun f => { f with notifySeen := false, st := .idle })) := by
  rw [State.flagStep, whenNode_enabled hn (by simp [hcap, hst]), modNode_eq_setNode _ hn]

theorem resurrectStep_enabled {s : State} {h : Nat} {nd : Node} (hn : s.nodes[h]? = some nd)
    (hg : nd.resurrectEnabled = true) :
    s.resurrectStep h = .ok (s.setNode h (nd.withHfe fun f => { f with resurrectReq := false, st := .resurrection })) := by
  rw [State.resurrectStep, whenNode_enabled hn hg, modNode_eq_setNode _ hn]

theorem notifiedStep_enabled {s : State} {h : Nat} {nd : Node} (hn : s.nodes[h]? = some nd) (hg : nd.notifiedEnabled = true) :
    s.notifiedStep h = .ok (s.setNode h (nd.withHfe fun f => { f with st := .notified })) := by
  rw [State.notifiedStep, whenNode_enabled hn hg, modNode_eq_setNode _ hn]

theorem resurrectEnabled_iff (nd : Node) : nd.resurrectEnabled = true ↔
    nd.hubCapable = true ∧ nd.hfe.st = .idle ∧ nd.hfe.resurrectReq = true := by
  simp [Node.resurrectEnabled, and_assoc]

theorem notifiedEnabled_iff (nd : Node) : nd.notifiedEnabled = true ↔
    nd.hubCapable = true ∧ nd.hfe.st = .idle ∧ nd.hfe.notifySeen = true ∧ nd.resurrectEnabled = false := by
  simp [Node.notifiedEnabled, and_assoc]

/-- A segment whose controller is in `Resurrection` is held (R226, R235). -/
theorem held_of_resurrection {s : State} {h : Nat} {nd : Node} (hn : s.nodes[h]? = some nd) (hst : nd.hfe.st = .resurrection) :
    s.held (.sub h) = true :=
  Bool.or_eq_true_iff.2 (.inr (by simp [State.resurrecting, hn, hst]))

/-- A step of a hub that is kept from being taken leaves the network as it is (log 3). -/
theorem step_of_hub_disabled {s : State} {h : Nat} {c : HfeStep} (hr : s.r54 = true) (ha : s.nextAction = some (.hub h c))
    (ht : s.advance.hubStep h c = .ok s.advance) (t : State) (hstep : step s = .next t) :
    t.nodes = s.nodes ∧ t.primary = s.primary := by
  obtain rfl : s.advance = t := Host.Outcome.next.inj ((step_of_hub hr ha ht).symm.trans hstep)
  exact ⟨rfl, rfl⟩

/-- Settles O49: each step changes the hub alone, and the order of R339 stands in the conditions of the steps. -/
theorem notifiedStateRaisesChild : Obligations.NotifiedStateRaisesChild := by
  refine ⟨fun s h nd hr ha hn hcap hst => ?_, fun s h nd hr hn hcap hst => ?_⟩
  · have hn' : s.advance.nodes[h]? = some nd := hn
    refine ⟨_, _, step_of_hub hr ha (flagStep_enabled hn' hcap hst), setNode_onlyNode .., rfl, rfl, fun j hj => ?_,
      raiseChild_notifyPending nd, fun r hr => raiseChild_reg _ hr⟩
    have hreg : (nd.setChanged (nd.reg 0 ||| nd.par.childMask)).regs[0] = nd.regs[0] ||| nd.par.childMask :=
      Vector.getElem_set_self (by decide)
    rw [withHfe_regs, hreg, BitVec.getLsbD_or, childMask_getLsbD _ hj]
  · have hn' : s.advance.nodes[h]? = some nd := hn
    refine ⟨fun ha hreq => ?_, fun ha hseen hreq => ?_, fun ha hreq => ?_, fun env ha hwait => ?_⟩
    · have hg := (resurrectEnabled_iff nd).2 ⟨hcap, hst, hreq⟩
      have hset := List.getElem?_set_self (a := nd.withHfe fun f => { f with resurrectReq := false, st := .resurrection })
        (List.getElem?_eq_some_iff.1 hn').1
      exact ⟨_, step_of_hub hr ha (resurrectStep_enabled hn' hg), held_of_resurrection hset rfl, setNode_onlyNode ..⟩
    · have hg := (notifiedEnabled_iff nd).2 ⟨hcap, hst, hseen, by simp [Node.resurrectEnabled, hreq]⟩
      exact ⟨_, step_of_hub hr ha (notifiedStep_enabled hn' hg), setNode_onlyNode ..⟩
    · have hres := (resurrectEnabled_iff nd).2 ⟨hcap, hst, hreq⟩
      have hg : nd.notifiedEnabled = false := by simp [Node.notifiedEnabled, hres]
      exact step_of_hub_disabled hr ha (whenNode_disabled hn' hg)
    · have hg : nd.openEnabled = false := by
        rw [Bool.eq_false_iff, ne_eq, openEnabled_iff]
        rintro ⟨-, -, hres, hnot⟩
        rcases hwait with hreq | hseen
        · exact absurd ((resurrectEnabled_iff nd).2 ⟨hcap, hst, hreq⟩) (by simp [hres])
        · exact absurd ((notifiedEnabled_iff nd).2 ⟨hcap, hst, hseen, hres⟩) (by simp [hnot])
      exact step_of_hub_disabled hr ha (whenNode_disabled hn' hg)

/-! ### The end of a resurrection (R337, R338) -/

/-- Whether the recovery of hub `h`'s targets among the first `m` nodes stops node `x`: it takes part in an open transaction of
one of them and does not stall (R402). -/
def State.stops (s : State) (h m : Nat) (x : Node) : Bool :=
  match x.seg with
  | .primary => false
  | .sub k => decide (k < m) && (s.nodes[k]?.any fun c => c.seg == .sub h && c.sec != .idle) && x.ppe.st != .sendingStalled

section
variable {s : State} {h m : Nat} {x : Node}

theorem stops_sub {k : Nat} (hseg : x.seg = .sub k) : s.stops h m x =
    (decide (k < m) && (s.nodes[k]?.any fun c => c.seg == .sub h && c.sec != .idle) && x.ppe.st != .sendingStalled) := by
  simp only [State.stops, hseg]

theorem stops_iff : s.stops h m x = true ↔ (∃ k c, x.seg = .sub k ∧ k < m ∧ s.nodes[k]? = some c ∧ c.seg = .sub h ∧
    c.sec ≠ .idle) ∧ x.ppe.st ≠ .sendingStalled := by
  unfold State.stops
  split
  · rename_i hseg; simp [hseg]
  · rename_i k hseg; simp [hseg, Option.any_eq_true, and_assoc]

/-- The next node decides for the nodes on its own segment alone. -/
theorem stops_succ_other (hseg : x.seg ≠ .sub m) : s.stops h (m + 1) x = s.stops h m x := by
  cases hx : x.seg with
  | primary => simp only [State.stops, hx]
  | sub k =>
    have hk : k ≠ m := fun h => hseg (h ▸ hx)
    rw [stops_sub hx, stops_sub hx, decide_eq_decide.2 (show k < m + 1 ↔ k < m by omega)]

theorem stops_own (hseg : x.seg = .sub m) : s.stops h m x = false := by
  simp [stops_sub hseg]

end

theorem afterReset_seg (nd : Node) (kind : ResetKind) (busy : Bool) (draw : Nat) :
    (nd.afterReset kind busy draw).seg = nd.seg := by
  simp only [Node.afterReset]

/-- State `t` is `s` after the recovery reset of hub `h`'s targets among the first `m` nodes (R338, R402). -/
structure State.Recovered (s : State) (h m : Nat) (t : State) : Prop where
  length  : t.nodes.length = s.nodes.length
  primary : t.primary = s.primary
  hostLog : t.hostLog = s.hostLog
  phase   : t.phase (.sub h) = .idle
  waiting : ∀ (j : Nat) (x : Node), s.nodes[j]? = some x → x.seg = .sub h → m ≤ j → t.nodes[j]? = some x
  reset   : ∀ (j : Nat) (x : Node), s.nodes[j]? = some x → x.seg = .sub h → j < m →
    ∃ draw, t.nodes[j]? = some (x.afterReset .recovery false draw)
  other   : ∀ (j : Nat) (x : Node), s.nodes[j]? = some x → x.seg ≠ .sub h →
    t.nodes[j]? = some (if s.stops h m x then x.onStop else x)

namespace State.Recovered

variable {s t : State} {h m : Nat}

theorem zero (hidle : s.phase (.sub h) = .idle) : s.Recovered h 0 s where
  length := rfl
  primary := rfl
  hostLog := rfl
  phase := hidle
  waiting _ _ hx _ _ := hx
  reset _ _ _ _ hj := absurd hj (Nat.not_lt_zero _)
  other j x hx _ := by
    have hno : s.stops h 0 x = false := by rw [Bool.eq_false_iff, ne_eq, stops_iff]; simp
    rw [hx, hno]
    rfl

/-- A node that is no target of the hub is passed over. -/
theorem skip (hr : s.Recovered h m t) (hno : ∀ c, s.nodes[m]? = some c → c.seg ≠ .sub h) : s.Recovered h (m + 1) t where
  length := hr.length
  primary := hr.primary
  hostLog := hr.hostLog
  phase := hr.phase
  waiting j x hx hseg hj := hr.waiting j x hx hseg (by omega)
  reset j x hx hseg hj := by
    have hjm : j ≠ m := by
      rintro rfl
      exact hno x hx hseg
    exact hr.reset j x hx hseg (by omega)
  other j x hx hseg := by
    have hstops : s.stops h (m + 1) x = s.stops h m x := by
      by_cases hm : x.seg = .sub m
      · rw [stops_own hm, Bool.eq_false_iff, ne_eq, stops_iff]
        rintro ⟨⟨k, c, hk, -, hc, hch, -⟩, -⟩
        obtain rfl : m = k := SegId.sub.inj (hm.symm.trans hk)
        exact hno c hc hch
      · exact stops_succ_other hm
    rw [hstops]
    exact hr.other j x hx hseg

/-- A target of the hub is reset, which no earlier reset touched, and the nodes on its own segment are stopped. -/
theorem resetNext (hr : s.Recovered h m t) {c : Node} (hc : s.nodes[m]? = some c) (hch : c.seg = .sub h) (hne : m ≠ h) :
    s.Recovered h (m + 1) (t.resetNode m .recovery) := by
  have hct : t.nodes[m]? = some c := hr.waiting m c hc hch le_rfl
  have hphase : t.phase (.sub m) = c.sec := by simp only [State.phase, hct]
  obtain ⟨-, hprim, hlog, hlen, -⟩ := resetNode_restAfterReset hct .recovery
  have hsub : SegId.sub h ≠ .sub m := fun he => hne (SegId.sub.inj he).symm
  have hother : ∀ (j : Nat) (y : Node), j ≠ m → t.nodes[j]? = some y → (t.resetNode m .recovery).nodes[j]? =
      some (if y.seg = .sub m ∧ c.sec ≠ .idle ∧ y.ppe.st ≠ .sendingStalled then y.onStop else y) := by
    intro j y hj hy
    rw [resetNode_other hct hj, abandonTx_getElem?, hy, hphase]
    rfl
  have hself := resetNode_self hct .recovery
  rw [hch, hr.phase, decide_eq_false (not_not.2 rfl)] at hself
  exact {
    length := hlen.trans hr.length
    primary := hprim.trans hr.primary
    hostLog := hlog.trans hr.hostLog
    phase := (resetNode_phase_other .recovery hct hsub).trans hr.phase
    waiting := fun j x hx hseg hj => by
      rw [hother j x (by omega) (hr.waiting j x hx hseg (by omega)), hseg, if_neg fun hstop => hsub hstop.1]
    reset := fun j x hx hseg hj => by
      by_cases hjm : j = m
      · subst hjm
        obtain rfl : x = c := Option.some.inj (hx.symm.trans hc)
        exact ⟨_, hself⟩
      · obtain ⟨draw, hx'⟩ := hr.reset j x hx hseg (by omega)
        have hseg' := (afterReset_seg x .recovery false draw).trans hseg
        exact ⟨draw, by rw [hother j _ hjm hx', hseg', if_neg fun hstop => hsub hstop.1]⟩
    other := fun j x hx hseg => by
      have hjm : j ≠ m := by
        rintro rfl
        exact hseg ((Option.some.inj (hx.symm.trans hc)) ▸ hch)
      rw [hother j _ hjm (hr.other j x hx hseg)]
      by_cases hm : x.seg = .sub m
      · simp [stops_own hm, stops_sub hm, hc, hch, hm]
      · rw [stops_succ_other hm, if_neg]
        rintro ⟨hseg', -⟩
        refine hm ?_
        split at hseg'
        · exact hseg'
        · exact hseg' }

end State.Recovered

theorem recoverFirst_recovered {s : State} {h : Nat} (hidle : s.phase (.sub h) = .idle)
    (ha : ∀ hub, s.nodes[h]? = some hub → hub.seg ≠ .sub h) (m : Nat) : s.Recovered h m (s.recoverFirst h m) := by
  induction m with
  | zero => exact .zero hidle
  | succ m ih =>
    rw [recoverFirst_succ]
    by_cases hm : ∃ c, s.nodes[m]? = some c ∧ c.seg = .sub h
    · obtain ⟨c, hc, hch⟩ := hm
      have hne : m ≠ h := by
        rintro rfl
        exact ha c hc hch
      rw [if_pos (by simp [ih.waiting m c hc hch le_rfl, hch])]
      exact ih.resetNext hc hch hne
    · have hno : ∀ c, s.nodes[m]? = some c → c.seg ≠ .sub h := fun c hc hch => hm ⟨c, hc, hch⟩
      rw [if_neg]
      · exact ih.skip hno
      · rw [Option.any_eq_true]
        rintro ⟨y, hy, hyseg⟩
        have hlt : m < s.nodes.length := ih.length ▸ (List.getElem?_eq_some_iff.1 hy).1
        have hc := List.getElem?_eq_getElem hlt
        obtain rfl := Option.some.inj (hy.symm.trans (ih.other m _ hc (hno _ hc)))
        rw [beq_iff_eq] at hyseg
        split at hyseg
        · exact hno _ hc hyseg
        · exact hno _ hc hyseg

/-- A hub is no target on the segment of one of its own targets, so its recovery of them does not stop it (R11). -/
theorem not_stops_hub {s : State} {h : Nat} {nd : Node} (ht : s.tree = true) (hn : s.nodes[h]? = some nd) (m : Nat) :
    s.stops h m nd = false := by
  rw [tree_iff] at ht
  rw [Bool.eq_false_iff, ne_eq, stops_iff]
  rintro ⟨⟨k, c, hk, -, hc, hch, -⟩, -⟩
  obtain ⟨hkh, -⟩ := ht h k nd hn hk
  obtain ⟨hhk, -⟩ := ht k h c hc hch
  omega

/-- A hub in `Resurrection`, in a coherent network: its segment's controller is between transactions (R327). -/
theorem coherent_resurrecting {s : State} {h : Nat} {nd : Node} (hs : s.coherent = true) (hn : s.nodes[h]? = some nd)
    (hst : nd.hfe.st = .resurrection) : nd.hubCapable = true ∧ nd.sec = .idle := by
  have hfits := (coherent_enginesOk hs).hfe_at hn
  refine ⟨?_, (hfits.resting (by simp [Hfe.Rests, hst])).1⟩
  by_contra hno
  obtain ⟨hidle, -⟩ := hfits.inert (Bool.eq_false_iff.2 hno)
  simp [hst] at hidle

theorem endResurrectionStep_enabled {s : State} {h : Nat} {nd : Node} (hn : s.nodes[h]? = some nd)
    (hcap : nd.hubCapable = true) (hst : nd.hfe.st = .resurrection) : s.endResurrectionStep h =
      .ok ((s.setNode h (nd.withHfe fun f => { f with st := .idle })).recoverChildren h) := by
  rw [State.endResurrectionStep, whenNode_enabled hn (by simp [hcap, hst]), modNode_eq_setNode _ hn]

/-- Settles O50: by `recoverFirst_recovered` over the whole list of nodes, from the state in which the hub is idle. -/
theorem resurrectionRecoversChildren : Obligations.ResurrectionRecoversChildren := by
  intro s h nd hs ha hn hst
  refine ⟨held_of_resurrection hn hst, ?_⟩
  obtain ⟨hcap, hsec⟩ := coherent_resurrecting hs hn hst
  have hapart := coherent_not_own_target hs hn
  have hn' : s.advance.nodes[h]? = some nd := hn
  have hlt := (List.getElem?_eq_some_iff.1 hn').1
  generalize hu : s.advance.setNode h (nd.withHfe fun f => { f with st := .idle }) = u
  have hhub : u.nodes[h]? = some (nd.withHfe fun f => { f with st := .idle }) := hu ▸ List.getElem?_set_self hlt
  have hnode : ∀ j, j ≠ h → u.nodes[j]? = s.nodes[j]? := fun j hj => hu ▸ List.getElem?_set_ne (Ne.symm hj)
  have hlen : u.nodes.length = s.nodes.length := by rw [← hu]; simp
  have htree : u.tree = true := by
    obtain ⟨ht, -⟩ := (coherent_iff s.advance).1 (coherent_advance hs)
    rw [← hu]
    exact tree_of_fixed (.setNode (R := fun a b => b.fixed = a.fixed) (fun _ => rfl) hn' rfl) ht
  have hr : u.Recovered h u.nodes.length (u.recoverChildren h) :=
    recoverFirst_recovered (by simp only [State.phase, hhub]; exact hsec)
      (fun hub hhub' => Option.some.inj (hhub.symm.trans hhub') ▸ hapart) _
  have hstep := step_of_hub (coherent_r54 hs) ha (endResurrectionStep_enabled hn' hcap hst)
  rw [hu] at hstep
  refine ⟨_, hstep, ?_, hr.length.trans hlen, hr.primary.trans (hu ▸ rfl), hr.hostLog.trans (hu ▸ rfl),
    fun j x hx hseg => ?_, fun j x hj hx hseg => ?_⟩
  · rw [hr.other h _ hhub hapart, not_stops_hub htree hhub]
    rfl
  · have hj := target_ne_hub hs hx hseg
    have hx' : u.nodes[j]? = some x := (hnode j hj).trans hx
    obtain ⟨draw, hy⟩ := hr.reset j x hx' hseg (List.getElem?_eq_some_iff.1 hx').1
    exact ⟨_, hy, afterReset_wasReset .., rfl, rfl⟩
  · have hx' := hr.other j x ((hnode j hj).trans hx) hseg
    have hchild : ∀ k, x.seg = .sub k → u.nodes[k]? = s.nodes[k]? := fun k hk =>
      hnode k fun hkh => hseg (hkh ▸ hk)
    refine ⟨fun ⟨⟨k, c, hk, hc, hch, hopen⟩, hflow⟩ => ?_, fun hkept => ?_⟩
    · have hc' := (hchild k hk).trans hc
      rw [hx', if_pos (stops_iff.2 ⟨⟨k, c, hk, (List.getElem?_eq_some_iff.1 hc').1, hc', hch, hopen⟩, hflow⟩)]
      rfl
    · rw [hx', if_neg]
      rw [stops_iff]
      rintro ⟨⟨k, c, hk, -, hc, hch, hopen⟩, hflow⟩
      rcases hkept with hidle | hstall
      · exact hopen (hidle k c hk (hchild k hk ▸ hc) hch)
      · exact hflow hstall

end Sys2Proof.Machine
